-- ==== Sys2Proof/Word.lean ====
section
/-! DEFINITION. The two word types of the block: the 64-bit host register (10_state.md R38) and the 8-bit
byte (00_scope.md R13). -/

namespace Sys2Proof

/-- A host register, a command word (10_state.md R35, R38). -/
abbrev Word := BitVec 64

/-- A byte of a stream (00_scope.md R13). -/
abbrev Byte := BitVec 8

end Sys2Proof
end

