-- ==== Sys2Proof/Syntax.lean ====
section
/-! DEFINITION. The 42 commands of 30_encoding.md R64, one constructor per row of spec/opcode_table.json.
A width command carries its W field (R61). -/

namespace Sys2Proof

/-- A command of the block (30_encoding.md R64). -/
inductive Instr where
  /-- RD.INIT, OPC 0x40, rule R130. -/
  | rdInit
  /-- RD.ALIGN, OPC 0x41, rule R132. -/
  | rdAlign
  /-- RD.U8, OPC 0x42, rule R100. -/
  | rdU8
  /-- RD.S8, OPC 0x43, rule R101. -/
  | rdS8
  /-- RD.U16, OPC 0x44, rule R102. -/
  | rdU16
  /-- RD.S16, OPC 0x45, rule R103. -/
  | rdS16
  /-- RD.U32, OPC 0x46, rule R104. -/
  | rdU32
  /-- RD.S32, OPC 0x47, rule R105. -/
  | rdS32
  /-- RD.U64, OPC 0x48, rule R106. -/
  | rdU64
  /-- RD.S64, OPC 0x49, rule R107. -/
  | rdS64
  /-- RD.F32, OPC 0x4A, rule R108. -/
  | rdF32
  /-- RD.F64, OPC 0x4B, rule R109. -/
  | rdF64
  /-- RD.VU32, OPC 0x4C, rule R171. -/
  | rdVu32
  /-- RD.F16, OPC 0x4D, rule R176. -/
  | rdF16
  /-- RD.FX32, OPC 0x4E, rule R185. -/
  | rdFx32
  /-- RD.FX8, OPC 0x4F, rule R187. -/
  | rdFx8
  /-- RD.UB W, OPC 0x50, rule R141. -/
  | rdUb (w : Nat)
  /-- RD.SB W, OPC 0x51, rule R144. -/
  | rdSb (w : Nat)
  /-- RD.FB W, OPC 0x52, rule R147. -/
  | rdFb (w : Nat)
  /-- WR.INIT, OPC 0x80, rule R131. -/
  | wrInit
  /-- WR.ALIGN, OPC 0x81, rule R133. -/
  | wrAlign
  /-- WR.U8, OPC 0x82, rule R110. -/
  | wrU8
  /-- WR.S8, OPC 0x83, rule R111. -/
  | wrS8
  /-- WR.U16, OPC 0x84, rule R112. -/
  | wrU16
  /-- WR.S16, OPC 0x85, rule R113. -/
  | wrS16
  /-- WR.U32, OPC 0x86, rule R114. -/
  | wrU32
  /-- WR.S32, OPC 0x87, rule R115. -/
  | wrS32
  /-- WR.U64, OPC 0x88, rule R116. -/
  | wrU64
  /-- WR.S64, OPC 0x89, rule R117. -/
  | wrS64
  /-- WR.F32, OPC 0x8A, rule R118. -/
  | wrF32
  /-- WR.F64, OPC 0x8B, rule R119. -/
  | wrF64
  /-- WR.VU32, OPC 0x8C, rule R172. -/
  | wrVu32
  /-- WR.F16, OPC 0x8D, rule R182. -/
  | wrF16
  /-- WR.FX32, OPC 0x8E, rule R186. -/
  | wrFx32
  /-- WR.FX8, OPC 0x8F, rule R188. -/
  | wrFx8
  /-- WR.UB W, OPC 0x90, rule R142. -/
  | wrUb (w : Nat)
  /-- WR.SB W, OPC 0x91, rule R145. -/
  | wrSb (w : Nat)
  /-- WR.FB W, OPC 0x92, rule R148. -/
  | wrFb (w : Nat)
  /-- SZ.VU32, OPC 0x0C, rule R173. -/
  | szVu32
  /-- SZ.UB, OPC 0x10, rule R143. -/
  | szUb
  /-- SZ.SB, OPC 0x11, rule R146. -/
  | szSb
  /-- SZ.FB, OPC 0x12, rule R149. -/
  | szFb
deriving DecidableEq, Repr

end Sys2Proof
end

