-- ==== Sys2Proof/WellFormed.lean ====
section
/-! DEFINITION. When a command can be written as a command word: its W fits the 6-bit field c[13:8]
(30_encoding.md R61). Widths 33 to 63 are well-formed: they reach the block and its operand check rejects them. -/

namespace Sys2Proof

/-- The W field the command word carries: the width of a width command, 0 otherwise (30_encoding.md R60, R62). -/
def Instr.wField : Instr → Nat
  | .rdInit => 0
  | .rdAlign => 0
  | .rdU8 => 0
  | .rdS8 => 0
  | .rdU16 => 0
  | .rdS16 => 0
  | .rdU32 => 0
  | .rdS32 => 0
  | .rdU64 => 0
  | .rdS64 => 0
  | .rdF32 => 0
  | .rdF64 => 0
  | .rdVu32 => 0
  | .rdF16 => 0
  | .rdFx32 => 0
  | .rdFx8 => 0
  | .rdUb w => w
  | .rdSb w => w
  | .rdFb w => w
  | .wrInit => 0
  | .wrAlign => 0
  | .wrU8 => 0
  | .wrS8 => 0
  | .wrU16 => 0
  | .wrS16 => 0
  | .wrU32 => 0
  | .wrS32 => 0
  | .wrU64 => 0
  | .wrS64 => 0
  | .wrF32 => 0
  | .wrF64 => 0
  | .wrVu32 => 0
  | .wrF16 => 0
  | .wrFx32 => 0
  | .wrFx8 => 0
  | .wrUb w => w
  | .wrSb w => w
  | .wrFb w => w
  | .szVu32 => 0
  | .szUb => 0
  | .szSb => 0
  | .szFb => 0

/-- Whether the command is a width command (30_encoding.md R65), the ones whose W may be non-zero. -/
def Instr.takesWidth : Instr → Bool
  | .rdInit => false
  | .rdAlign => false
  | .rdU8 => false
  | .rdS8 => false
  | .rdU16 => false
  | .rdS16 => false
  | .rdU32 => false
  | .rdS32 => false
  | .rdU64 => false
  | .rdS64 => false
  | .rdF32 => false
  | .rdF64 => false
  | .rdVu32 => false
  | .rdF16 => false
  | .rdFx32 => false
  | .rdFx8 => false
  | .rdUb _ => true
  | .rdSb _ => true
  | .rdFb _ => true
  | .wrInit => false
  | .wrAlign => false
  | .wrU8 => false
  | .wrS8 => false
  | .wrU16 => false
  | .wrS16 => false
  | .wrU32 => false
  | .wrS32 => false
  | .wrU64 => false
  | .wrS64 => false
  | .wrF32 => false
  | .wrF64 => false
  | .wrVu32 => false
  | .wrF16 => false
  | .wrFx32 => false
  | .wrFx8 => false
  | .wrUb _ => true
  | .wrSb _ => true
  | .wrFb _ => true
  | .szVu32 => false
  | .szUb => false
  | .szSb => false
  | .szFb => false

/-- W is an unsigned 6-bit field, value 0..63 (30_encoding.md R61). -/
def Instr.wf (i : Instr) : Bool :=
  decide (i.wField < 64)

end Sys2Proof
end

