-- ==== Sys2Proof/Decode.lean ====
section
/-! DEFINITION. Decoding of command words, total on all 64-bit words (30_encoding.md R60 to R70), the encoder
written from the same table, and the decoder the host asks about one opcode-table word. -/

namespace Sys2Proof

/-- Why a command word is illegal (30_encoding.md R68). Every one of them is the outcome ILLEGAL_COMMAND. -/
inductive Illegal where
  /-- c[63:14] is not 0 (R62). -/
  | reservedBits
  /-- UNIT = 0b11 (R63). -/
  | reservedUnit
  /-- OP is reserved for its unit (R64). -/
  | reservedOp
  /-- c[13:8] is not 0 in a command that is not a width command (R62). -/
  | widthNotZero
deriving DecidableEq, Repr

/-- `v[hi:lo]` as an unsigned number, for a field of `n` bits from bit `lo` (00_scope.md R13). -/
def bitField (c : Word) (lo n : Nat) : Nat :=
  c.toNat / 2 ^ lo % 2 ^ n

/-- OP = c[5:0] (30_encoding.md R60). -/
def opOf (c : Word) : Nat := bitField c 0 6

/-- UNIT = c[7:6] (30_encoding.md R60). -/
def unitOf (c : Word) : Nat := bitField c 6 2

/-- W = c[13:8] (30_encoding.md R60). -/
def widthOf (c : Word) : Nat := bitField c 8 6

/-- The reserved bits c[63:14] (30_encoding.md R60). -/
def reservedOf (c : Word) : Nat := bitField c 14 50

/-- The reader commands by OP, with the W field they carry (30_encoding.md R64). -/
def readerOp (op w : Nat) : Option Instr :=
  match op with
  | 0x00 => some .rdInit
  | 0x01 => some .rdAlign
  | 0x02 => some .rdU8
  | 0x03 => some .rdS8
  | 0x04 => some .rdU16
  | 0x05 => some .rdS16
  | 0x06 => some .rdU32
  | 0x07 => some .rdS32
  | 0x08 => some .rdU64
  | 0x09 => some .rdS64
  | 0x0A => some .rdF32
  | 0x0B => some .rdF64
  | 0x0C => some .rdVu32
  | 0x0D => some .rdF16
  | 0x0E => some .rdFx32
  | 0x0F => some .rdFx8
  | 0x10 => some (.rdUb w)
  | 0x11 => some (.rdSb w)
  | 0x12 => some (.rdFb w)
  | _ => none

/-- The writer commands by OP, with the W field they carry (30_encoding.md R64). -/
def writerOp (op w : Nat) : Option Instr :=
  match op with
  | 0x00 => some .wrInit
  | 0x01 => some .wrAlign
  | 0x02 => some .wrU8
  | 0x03 => some .wrS8
  | 0x04 => some .wrU16
  | 0x05 => some .wrS16
  | 0x06 => some .wrU32
  | 0x07 => some .wrS32
  | 0x08 => some .wrU64
  | 0x09 => some .wrS64
  | 0x0A => some .wrF32
  | 0x0B => some .wrF64
  | 0x0C => some .wrVu32
  | 0x0D => some .wrF16
  | 0x0E => some .wrFx32
  | 0x0F => some .wrFx8
  | 0x10 => some (.wrUb w)
  | 0x11 => some (.wrSb w)
  | 0x12 => some (.wrFb w)
  | _ => none

/-- The size commands by OP, with the W field they carry (30_encoding.md R64). -/
def sizeOp (op : Nat) : Option Instr :=
  match op with
  | 0x0C => some .szVu32
  | 0x10 => some .szUb
  | 0x11 => some .szSb
  | 0x12 => some .szFb
  | _ => none

/-- The command UNIT and OP select (30_encoding.md R63, R64). -/
def selectOp (unit op w : Nat) : Option Instr :=
  match unit with
  | 0 => sizeOp op
  | 1 => readerOp op w
  | 2 => writerOp op w
  | _ => none

/-- Decode a command word (30_encoding.md R68, R70). -/
def decode (c : Word) : Except Illegal Instr :=
  if reservedOf c ≠ 0 then .error .reservedBits
  else if unitOf c = 3 then .error .reservedUnit
  else
    match selectOp (unitOf c) (opOf c) (widthOf c) with
    | none => .error .reservedOp
    | some i => if i.takesWidth = false ∧ widthOf c ≠ 0 then .error .widthNotZero else .ok i

/-- OPC, the opcode byte UNIT·64 + OP (30_encoding.md R60, R64). -/
def Instr.opc : Instr → Nat
  | .rdInit => 0x40
  | .rdAlign => 0x41
  | .rdU8 => 0x42
  | .rdS8 => 0x43
  | .rdU16 => 0x44
  | .rdS16 => 0x45
  | .rdU32 => 0x46
  | .rdS32 => 0x47
  | .rdU64 => 0x48
  | .rdS64 => 0x49
  | .rdF32 => 0x4A
  | .rdF64 => 0x4B
  | .rdVu32 => 0x4C
  | .rdF16 => 0x4D
  | .rdFx32 => 0x4E
  | .rdFx8 => 0x4F
  | .rdUb _ => 0x50
  | .rdSb _ => 0x51
  | .rdFb _ => 0x52
  | .wrInit => 0x80
  | .wrAlign => 0x81
  | .wrU8 => 0x82
  | .wrS8 => 0x83
  | .wrU16 => 0x84
  | .wrS16 => 0x85
  | .wrU32 => 0x86
  | .wrS32 => 0x87
  | .wrU64 => 0x88
  | .wrS64 => 0x89
  | .wrF32 => 0x8A
  | .wrF64 => 0x8B
  | .wrVu32 => 0x8C
  | .wrF16 => 0x8D
  | .wrFx32 => 0x8E
  | .wrFx8 => 0x8F
  | .wrUb _ => 0x90
  | .wrSb _ => 0x91
  | .wrFb _ => 0x92
  | .szVu32 => 0x0C
  | .szUb => 0x10
  | .szSb => 0x11
  | .szFb => 0x12

/-- The command word W·256 + OPC (30_encoding.md R71). -/
def encode (i : Instr) : Word :=
  BitVec.ofNat 64 (i.wField * 256 + i.opc)

/-- What the decoder reads from an instruction of `nbits` bits with the value `w`; the bits above are 0.
A command is one 64-bit word (30_encoding.md R60). -/
def decodeTableWord (nbits w : Nat) : Option Instr :=
  match decode (BitVec.ofNat 64 (w % 2 ^ nbits)) with
  | .ok i => some i
  | .error _ => none

end Sys2Proof
end

