-- ==== Sys2Proof/Config.lean ====
section
/-! DEFINITION. What the spec leaves open: the parameter F16_TIES (00_scope.md R8) and the draws (R19).
Every constant here is opaque and has no body: nothing can compute or prove a value of it, so what is proved
of the model holds for every value. A draw takes a plain counter that State holds, so that every draw is fresh. -/

namespace Sys2Proof

/-- The two tie rules of the Float16 encoder (00_scope.md R8). -/
inductive F16Ties where
  | away
  | even
deriving DecidableEq, Repr, Inhabited

/-- An answer of the byte source to one SrcPull (20_memory.md R41). -/
inductive SrcAnswer where
  /-- The source delivered this byte, now consumed. -/
  | byte (b : Byte)
  /-- The source is exhausted (the spec's `End`). -/
  | endOfData
  /-- The transport failed. -/
  | fail
deriving DecidableEq, Repr, Inhabited

/-- An answer of the byte sink to one SinkPush (20_memory.md R42). -/
inductive SinkAnswer where
  /-- The sink took the byte. -/
  | ok
  /-- The transport failed and the byte was not taken. -/
  | fail
deriving DecidableEq, Repr, Inhabited

namespace Config

/-- F16_TIES (00_scope.md R8): OPEN parameter, free. Assumption 5. -/
opaque f16Ties : F16Ties

/-- The answer of the byte source to its `n`-th pull, where nothing in State settles it (20_memory.md R41:
"a draw of the external source"). Free. Assumption 3. -/
opaque srcAnswer : Nat → SrcAnswer

/-- The answer of the byte sink to its `n`-th offer, where nothing in State settles it (20_memory.md R42).
Free. Assumption 4. -/
opaque sinkAnswer : Nat → SinkAnswer

/-- The `n`-th draw of F16_NAN_ENC (00_scope.md R9): the sign bit and, less one, the mantissa of the Float16
NaN word, so every word with exponent 31 and a non-zero mantissa is a value and no other word is. Free. Assumption 6. -/
opaque f16NanEnc : Nat → Bool × Fin 1023

/-- The `n`-th draw of F16_NAN_DEC (00_scope.md R10): the sign bit and, less one, the fraction of the binary32
NaN. Free. Assumption 7. -/
opaque f16NanDec : Nat → Bool × Fin 8388607

/-- How far a command got when the platform asserted reset during it, the `n`-th time (70_reset_and_hazards.md
R230, 93_implementation_defined.md U13). Free. Assumption 16. -/
opaque resetCut : Nat → Nat

end Config
end Sys2Proof
end

