-- ==== Sys2Proof/Machine/State.lean ====
section
/-! DEFINITION. The state of the block and of what stands around it (10_state.md, 20_memory.md R40 to R42,
70_reset_and_hazards.md R241), as plain data, and the state after reset (10_state.md R39). -/

namespace Sys2Proof.Machine

/-- The Reader unit (10_state.md R22 to R25). -/
structure Reader where
  /-- R.BYTE, the byte most recently pulled (R22). -/
  byte  : Byte
  /-- R.CNT, the number of unread bits of R.BYTE, 0 to 7 between commands (R23). -/
  cnt   : BitVec 3
  /-- R.TOTAL, the number of bytes pulled since reset or RD.INIT (R24). -/
  total : Word
  /-- R.ERR, the latched error code (R25). -/
  err   : BitVec 8
deriving DecidableEq, Repr

/-- The Writer unit (10_state.md R26 to R29). -/
structure Writer where
  /-- W.ACC, the pending bits, right-justified (R26). -/
  acc   : Byte
  /-- W.CNT, the number of pending bits, 0 to 7 between commands (R27). -/
  cnt   : BitVec 3
  /-- W.TOTAL, the number of bytes the sink took since reset or WR.INIT (R28). -/
  total : Word
  /-- W.ERR, the latched error code (R29). -/
  err   : BitVec 8
deriving DecidableEq, Repr

/-- The byte source (20_memory.md R41), outside the block. `script` holds the answers already settled, the next
first; past it every answer is `beyond`, or, where that is none, the free `Config.srcAnswer`. -/
structure Source where
  script : List SrcAnswer
  beyond : Option SrcAnswer
  /-- How many answers the source has given. -/
  asked  : Nat
  /-- The bytes it has delivered, in order (70_reset_and_hazards.md R241). -/
  pulled : List Byte
deriving DecidableEq, Repr

/-- The byte sink (20_memory.md R42), outside the block; `script` and `beyond` as for the source. -/
structure Sink where
  script  : List SinkAnswer
  beyond  : Option SinkAnswer
  /-- How many answers the sink has given. -/
  offered : Nat
  /-- The bytes it has taken, in order (70_reset_and_hazards.md R241). -/
  taken   : List Byte
deriving DecidableEq, Repr

/-- What reaches the block from outside, one event a step: the host's register accesses (10_state.md R38), with
the offset from the block's base and the access width in bits, and the platform's acts (70_reset_and_hazards.md
R230, R233). -/
inductive HostEvent where
  /-- The host writes `v` at `offset`. -/
  | write (offset width : Nat) (v : Word)
  /-- The host reads at `offset`. -/
  | read (offset width : Nat)
  /-- The platform asserts reset between commands (R230). -/
  | reset
  /-- The platform asserts reset while the command word `c`, just written to CMD, is in progress (R230). -/
  | resetDuring (c : Word)
  /-- The platform attaches a new byte source (R233). -/
  | attachSource (script : List SrcAnswer) (beyond : Option SrcAnswer)
  /-- The platform attaches a new byte sink (R233). -/
  | attachSink (script : List SinkAnswer) (beyond : Option SinkAnswer)
deriving DecidableEq, Repr

/-- The block's registers (10_state.md R22 to R35), the streams and the host around it, and the model's own
counters of draws. CMD holds no state (R35); RSTATE, WSTATE, RTOTAL and WTOTAL are views (R36, R37). -/
structure State where
  /-- The Reader unit. -/
  r        : Reader
  /-- The Writer unit. -/
  w        : Writer
  /-- DIN (R32). -/
  din      : Word
  /-- DIN.V (R32). -/
  dinV     : Bool
  /-- DOUT (R33). -/
  dout     : Word
  /-- DOUT.V (R33). -/
  doutV    : Bool
  /-- STATUS (R34). -/
  status   : Word
  /-- The byte source. -/
  source   : Source
  /-- The byte sink. -/
  sink     : Sink
  /-- The pending events of host and platform, the next first. -/
  host     : List HostEvent
  /-- The values the host has read, in order. -/
  readback : List Word
  /-- How many draws F16_NAN_ENC have been taken (the model's own). -/
  nanEnc   : Nat
  /-- How many draws F16_NAN_DEC have been taken (the model's own). -/
  nanDec   : Nat
  /-- How many resets during a command have been met (the model's own). -/
  cuts     : Nat
deriving DecidableEq, Repr

/-- The host faults (60_exceptions.md R207): host misuse the block does not define. The run stops and no state
changes. Each is safe: the model stops where the block might go on. -/
inductive Fault where
  /-- Raised by a Writer value command or a size command while DIN.V = 0 (40_command_cycle.md R82). Safe. -/
  | dinUnwritten
  /-- Raised by a host read of DOUT while DOUT.V = 0 (10_state.md R33). Safe. -/
  | doutInvalid
  /-- Raised by an access at an unmapped offset, not 64 bits wide, a write to a read-only register or a read of
  CMD (10_state.md R38). Safe. -/
  | badAccess
  /-- Raised by a command that would take R.TOTAL or W.TOTAL past 2^64 - 1 (00_scope.md R6). Safe. -/
  | counterOverflow
deriving DecidableEq, Repr

/-- What has no meaning in the model. -/
inductive Refusal where
  /-- Raised by exec for an instruction that has no meaning yet; none is left. Safe. -/
  | notModelled (mnemonic : String)
deriving DecidableEq, Repr

/-- The Reader after reset and after RD.INIT (10_state.md R39, 42_bit_stream.md R130). -/
def Reader.start : Reader := { byte := 0, cnt := 0, total := 0, err := 0 }

/-- The Writer after reset and after WR.INIT (10_state.md R39, 42_bit_stream.md R131). -/
def Writer.start : Writer := { acc := 0, cnt := 0, total := 0, err := 0 }

/-- The machine right after reset (10_state.md R39). DIN and DOUT are unspecified there and 0 here
(DESIGN CHOICE, assumptions 1 and 2). The streams are external: nothing of their answers is settled, and the
host has no access pending (DESIGN CHOICE, assumptions 3, 4, 10, 11). -/
def State.reset : State where
  r := Reader.start
  w := Writer.start
  din := 0
  dinV := false
  dout := 0
  doutV := false
  status := 0
  source := { script := [], beyond := none, asked := 0, pulled := [] }
  sink := { script := [], beyond := none, offered := 0, taken := [] }
  host := []
  readback := []
  nanEnc := 0
  nanDec := 0
  cuts := 0

end Sys2Proof.Machine
end

