-- ==== Sys2Proof/Machine/Flags.lean ====
section
/-! DEFINITION. The block's only condition indication: the outcome of a command, its STATUS word and the error
latch (10_state.md R34, 60_exceptions.md R200), and the read-only views of the units (10_state.md R36). -/

namespace Sys2Proof.Machine

/-- The outcomes of a command: one for each pair of CODE and INFO that 60_exceptions.md R200 lists. -/
inductive Verdict where
  | ok
  /-- END_OF_STREAM (R201). -/
  | endOfStream
  /-- IO_ERROR, INFO 1 TRANSPORT (R202). -/
  | transport
  /-- IO_ERROR, INFO 2 TRUNCATED (R202). -/
  | truncated
  /-- MALFORMED_VARINT (R203). -/
  | malformedVarint
  /-- INVALID_FIELD_RANGE, INFO 1 WIDTH (R204). -/
  | badWidth
  /-- INVALID_FIELD_RANGE, INFO 2 VALUE (R204). -/
  | badValue
  /-- INVALID_FIELD_RANGE, INFO 3 NONFINITE (R204). -/
  | nonFinite
  /-- ILLEGAL_COMMAND (R205). -/
  | illegalCommand
  /-- STREAM_BROKEN (R206). -/
  | streamBroken
deriving DecidableEq, Repr

/-- STATUS.CODE (60_exceptions.md R200). -/
def Verdict.code : Verdict → Nat
  | .ok => 0
  | .endOfStream => 1
  | .transport => 2
  | .truncated => 2
  | .malformedVarint => 3
  | .badWidth => 4
  | .badValue => 4
  | .nonFinite => 4
  | .illegalCommand => 5
  | .streamBroken => 6

/-- STATUS.INFO (60_exceptions.md R200). -/
def Verdict.info : Verdict → Nat
  | .ok => 0
  | .endOfStream => 0
  | .transport => 1
  | .truncated => 2
  | .malformedVarint => 0
  | .badWidth => 1
  | .badValue => 2
  | .nonFinite => 3
  | .illegalCommand => 0
  | .streamBroken => 0

/-- Whether the outcome sets the unit's latch (60_exceptions.md R200, 40_command_cycle.md R83). -/
def Verdict.latches (v : Verdict) : Bool :=
  v.code == 1 || v.code == 2 || v.code == 3

/-- STATUS <- code + 256·delta + 65536·info (40_command_cycle.md R80, 10_state.md R34). -/
def statusWord (v : Verdict) (delta : Nat) : Word :=
  BitVec.ofNat 64 (v.code + 256 * delta + 65536 * v.info)

/-- The unit's latch after a command ended with `v`: set by codes 1 to 3, otherwise kept
(40_command_cycle.md R83). -/
def latch (err : BitVec 8) (v : Verdict) : BitVec 8 :=
  if v.latches then BitVec.ofNat 8 v.code else err

/-- The layout RSTATE and WSTATE share: byte in [7:0], count in [10:8], error in [23:16] (10_state.md R36). -/
def unitView (byte : Byte) (cnt : BitVec 3) (err : BitVec 8) : Word :=
  BitVec.ofNat 64 (byte.toNat + 256 * cnt.toNat + 65536 * err.toNat)

/-- RSTATE (10_state.md R36). -/
def State.rstate (s : State) : Word := unitView s.r.byte s.r.cnt s.r.err

/-- WSTATE (10_state.md R36). -/
def State.wstate (s : State) : Word := unitView s.w.acc s.w.cnt s.w.err

end Sys2Proof.Machine
end

