-- ==== Sys2Proof/Machine/Operands.lean ====
section
/-! DEFINITION. Operand and result formats (30_encoding.md R66, R67), the arithmetic notation of
00_scope.md R14 and R15, the size helpers (43_packed_numeric.md R140, 44_variable_width.md R170), the
fixed-point helper (R184) and the Float16 conversions (R175, R180, R181). Values are exact integers: a rational
of the spec appears as a numerator over a power of two. -/

namespace Sys2Proof.Machine

/-! ### Integers (00_scope.md R14) -/

/-- `s64(x)`: the two's-complement value of a register. -/
def s64 (x : Word) : Int := x.toInt

/-- `sext_N(v)`: the two's-complement value of the N-bit pattern `v`; 0 for N = 0. -/
def sext (n v : Nat) : Int :=
  if 0 < n ∧ 2 ^ (n - 1) ≤ v then (v : Int) - (2 ^ n : Nat) else v

/-- `bits_K(i)`: the K-bit two's-complement pattern of `i`, that is `i mod 2^K`. -/
def bitsK (k : Nat) (i : Int) : Nat :=
  (i % ((2 ^ k : Nat) : Int)).toNat

/-- `FitsU(v, n)`. -/
def fitsU (v n : Nat) : Bool :=
  decide (v < 2 ^ n)

/-- `FitsS(v, n)`: for n = 0, v = 0. -/
def fitsS (v : Int) (n : Nat) : Bool :=
  match n with
  | 0 => decide (v = 0)
  | m + 1 => decide (-((2 ^ m : Nat) : Int) ≤ v ∧ v ≤ ((2 ^ m : Nat) : Int) - 1)

/-! ### Results in DOUT (30_encoding.md R67) -/

/-- An unsigned value, zero-extended to 64 bits. -/
def zextWord (v : Nat) : Word := BitVec.ofNat 64 v

/-- A signed value, as `bits_64`. -/
def sextWord (i : Int) : Word := BitVec.ofInt 64 i

/-! ### Sizes (43_packed_numeric.md R140, 44_variable_width.md R170) -/

/-- `BitLen(v)`. -/
def bitLen (v : Nat) : Nat :=
  if v = 0 then 0 else Nat.log2 v + 1

/-- `UBSize(v)`. -/
def ubSize (v : Nat) : Nat :=
  max 1 (bitLen v)

/-- `SBSize(s)`. -/
def sbSize (s : Int) : Nat :=
  bitLen (if 0 ≤ s then s else -s - 1).toNat + 1

/-- `VarintSize(v)`, for v < 2^32. -/
def varintSize (v : Nat) : Nat :=
  if v < 128 then 1
  else if v < 128 ^ 2 then 2
  else if v < 128 ^ 3 then 3
  else if v < 128 ^ 4 then 4
  else 5

/-! ### IEEE 754 data (00_scope.md R15; the layouts are the spec's general knowledge, K1) -/

/-- The sign bit of a binary64 pattern. -/
def f64Sign (x : Word) : Bool := x.getLsbD 63

/-- The biased exponent, bits 62..52. -/
def f64Exp (x : Word) : Nat := x.toNat / 2 ^ 52 % 2 ^ 11

/-- The fraction, bits 51..0. -/
def f64Frac (x : Word) : Nat := x.toNat % 2 ^ 52

/-- Whether the datum is finite: its exponent is not all ones. -/
def f64Finite (x : Word) : Bool := decide (f64Exp x ≠ 2047)

/-- The magnitude of a finite binary64 datum is `f64Mag x / 2^1074`. -/
def f64Mag (x : Word) : Nat :=
  if f64Exp x = 0 then f64Frac x else (2 ^ 52 + f64Frac x) * 2 ^ (f64Exp x - 1)

/-- The sign bit of a binary32 pattern. -/
def f32Sign (x : BitVec 32) : Bool := x.getLsbD 31

/-- The biased exponent, bits 30..23. -/
def f32Exp (x : BitVec 32) : Nat := x.toNat / 2 ^ 23 % 2 ^ 8

/-- The fraction, bits 22..0. -/
def f32Frac (x : BitVec 32) : Nat := x.toNat % 2 ^ 23

/-- The magnitude of a finite binary32 datum is `f32Mag x / 2^149`. -/
def f32Mag (x : BitVec 32) : Nat :=
  if f32Exp x = 0 then f32Frac x else (2 ^ 23 + f32Frac x) * 2 ^ (f32Exp x - 1)

/-- The bit pattern, with `fb` fraction bits, `eb` exponent bits and bias `bias`, of the datum equal to
`± mag / 2^k`, used only where that is exactly a normal datum or zero (00_scope.md R15). -/
def ieeeBits (fb eb bias k : Nat) (neg : Bool) (mag : Nat) : Nat :=
  let sign := if neg then 2 ^ (fb + eb) else 0
  if mag = 0 then sign
  else sign + (Nat.log2 mag + bias - k) * 2 ^ fb + (mag * 2 ^ fb / 2 ^ Nat.log2 mag - 2 ^ fb)

/-- `bits64(r / 2^k)` for an integer `r`; zero is +0.0 (00_scope.md R15). -/
def bits64 (r : Int) (k : Nat) : Word :=
  BitVec.ofNat 64 (ieeeBits 52 11 1023 k (decide (r < 0)) r.natAbs)

/-! ### Fixed point (44_variable_width.md R184, 43_packed_numeric.md R140) -/

/-- `FXRaw(x, k)` = trunc0(value(x)·2^k) for a finite binary64 datum; `FBRaw(x)` is `FXRaw(x, 16)`. -/
def fxRaw (x : Word) (k : Nat) : Int :=
  let m : Nat := f64Mag x * 2 ^ k / 2 ^ 1074
  if f64Sign x then -(m : Int) else m

/-! ### Float16 (44_variable_width.md R174 to R181) -/

/-- The sign s = h[15]. -/
def f16Sign (h : Nat) : Bool := h.testBit 15

/-- The biased exponent E = h[14:10]. -/
def f16Exp (h : Nat) : Nat := h / 1024 % 32

/-- The mantissa M = h[9:0]. -/
def f16Frac (h : Nat) : Nat := h % 1024

/-- The magnitude of a finite Float16 word is `f16Mag h / 2^24` (R175). -/
def f16Mag (h : Nat) : Nat :=
  if f16Exp h = 0 then f16Frac h else (1024 + f16Frac h) * 2 ^ (f16Exp h - 1)

/-- The binary32 NaN of a draw F16_NAN_DEC (00_scope.md R10). -/
def f32NanOf (d : Bool × Fin 8388607) : Nat :=
  (if d.1 then 2 ^ 31 else 0) + 255 * 2 ^ 23 + (d.2.val + 1)

/-- The Float16 NaN word of a draw F16_NAN_ENC (00_scope.md R9). -/
def f16NanOf (d : Bool × Fin 1023) : Nat :=
  (if d.1 then 0x8000 else 0) + 31 * 1024 + (d.2.val + 1)

/-- Whether a Float16 word is a NaN: exponent all ones and mantissa not 0 (R175). -/
def f16IsNan (h : Nat) : Bool :=
  decide (f16Exp h = 31 ∧ f16Frac h ≠ 0)

/-- `bits32(Half2Real(h))` for a word that is not a NaN, the infinities included (R175, R176). -/
def half2Bits32 (h : Nat) : Nat :=
  if f16Exp h = 31 then (if f16Sign h then 2 ^ 31 else 0) + 255 * 2 ^ 23
  else ieeeBits 23 8 127 24 (f16Sign h) (f16Mag h)

/-- `RoundInt(num / den)` (R181): to the nearest integer, a half by the tie rule. -/
def roundInt (ties : F16Ties) (num den : Nat) : Nat :=
  let n := num / den
  let f := num % den
  if 2 * f < den then n
  else if den < 2 * f then n + 1
  else
    match ties with
    | .away => n + 1
    | .even => if n % 2 = 0 then n else n + 1

/-- The Float16 magnitude bits of the rational `a / 2^149`, a > 0, before the sign (R180). The exponent E of
the spec is `log2 a - 149`, so E < -14 is `log2 a < 135`, and E + 15 is `log2 a - 134`. -/
def real2HalfMag (ties : F16Ties) (a : Nat) : Nat :=
  let h :=
    if Nat.log2 a < 135 then roundInt ties (a * 2 ^ 24) (2 ^ 149)
    else
      let e := Nat.log2 a - 134
      e * 1024 + (roundInt ties (a * 2 ^ 25) (2 ^ 149 * 2 ^ e) - 1024)
  if 0x7C00 ≤ h then 0x7C00 else h

/-- Whether a binary32 pattern is a NaN (00_scope.md R15). -/
def f32IsNan (x : BitVec 32) : Bool :=
  decide (f32Exp x = 255 ∧ f32Frac x ≠ 0)

/-- `Real2Half(x)` for a datum that is not a NaN (R180). -/
def real2Half (ties : F16Ties) (x : BitVec 32) : Nat :=
  (if f32Sign x then 0x8000 else 0) +
    (if f32Exp x = 255 then 0x7C00
     else if f32Mag x = 0 then 0
     else real2HalfMag ties (f32Mag x))

end Sys2Proof.Machine
end

