-- ==== Sys2Proof/Machine/Ops.lean ====
section
/-! DEFINITION. The named operations every command is made of: the two streams (20_memory.md R41, R42), the
bit and byte transfer primitives (40_command_cycle.md R85 to R92), and what the command cycle does around a
body: Finish, the error latch, the checks and the implicit align (R80 to R84). The block has no traps
(60_exceptions.md R210): Finish with the latch stands where another machine takes an exception, and the
units' start state (42_bit_stream.md R130, R131) where it returns from one. -/

namespace Sys2Proof.Machine

/-! ### The streams -/

/-- The next answer of an external stream: the next settled one, else the standing one, else the free one. -/
def nextAnswer {α : Type} (script : List α) (beyond : Option α) (free : α) : α :=
  match script with
  | a :: _ => a
  | [] => beyond.getD free

/-- The bytes an answer of the source delivers: one, or none (20_memory.md R41). -/
def deliveredBy (a : SrcAnswer) : List Byte :=
  match a with
  | .byte b => [b]
  | .endOfData => []
  | .fail => []

/-- `SrcPull()` (20_memory.md R41): the answer, and the source after it. -/
def Source.pull (src : Source) : SrcAnswer × Source :=
  let a := nextAnswer src.script src.beyond (Config.srcAnswer src.asked)
  (a, { src with script := src.script.tail, asked := src.asked + 1, pulled := src.pulled ++ deliveredBy a })

/-- `SinkPush(b)` (20_memory.md R42): the answer, and the sink after it. -/
def Sink.push (snk : Sink) (b : Byte) : SinkAnswer × Sink :=
  let a := nextAnswer snk.script snk.beyond (Config.sinkAnswer snk.offered)
  (a, { snk with
        script := snk.script.tail
        offered := snk.offered + 1
        taken := snk.taken ++ (match a with | .ok => [b] | .fail => []) })

/-! ### A command in progress -/

/-- What a Reader command works on: its unit, its source, the draws F16_NAN_DEC taken, and `delta`, the bytes
this command has transferred (00_scope.md R18). -/
structure RdCtx where
  unit     : Reader
  source   : Source
  nanDraws : Nat
  delta    : Nat
deriving DecidableEq, Repr

/-- What a Writer command works on. -/
structure WrCtx where
  unit     : Writer
  sink     : Sink
  nanDraws : Nat
  delta    : Nat
deriving DecidableEq, Repr

/-- How a piece of a command's body ends: with a value, or by `raise` (00_scope.md R18). The effects already
performed, in the context, remain in both. -/
inductive Res (σ α : Type) where
  | done (a : α) (c : σ)
  | raised (v : Verdict) (c : σ)
deriving DecidableEq, Repr

/-- The context a piece of a body leaves. -/
def Res.ctx {σ α : Type} : Res σ α → σ
  | .done _ c => c
  | .raised _ c => c

/-- One piece after another; a raise ends both. -/
def Res.andThen {σ α β : Type} (x : Res σ α) (f : α → σ → Res σ β) : Res σ β :=
  match x with
  | .done a c => f a c
  | .raised v c => .raised v c

/-- Apply a function to the value, where there is one. -/
def Res.map {σ α β : Type} (f : α → β) (x : Res σ α) : Res σ β :=
  match x with
  | .done a c => .done (f a) c
  | .raised v c => .raised v c

/-! ### Reader primitives -/

/-- `ReadBit()` (40_command_cycle.md R85). R.CNT is 8 only inside this procedure; of a freshly pulled byte it
delivers bit 7 and leaves R.CNT = 7. An `End` answer is classified by what this command has pulled (R93). -/
def readBit (c : RdCtx) : Res RdCtx Bool :=
  if c.unit.cnt = 0 then
    match c.source.pull with
    | (.byte b, src) =>
      .done (b.getLsbD 7)
        { c with
          unit := { c.unit with byte := b, cnt := 7, total := c.unit.total + 1 }
          source := src
          delta := c.delta + 1 }
    | (.endOfData, src) =>
      .raised (if c.delta = 0 then .endOfStream else .truncated) { c with source := src }
    | (.fail, src) => .raised .transport { c with source := src }
  else
    .done (c.unit.byte.getLsbD (c.unit.cnt - 1).toNat)
      { c with unit := { c.unit with cnt := c.unit.cnt - 1 } }

/-- `ReadBits(n)` (40_command_cycle.md R86): the first bit read is bit n-1 of the value. -/
def readBits : Nat → RdCtx → Res RdCtx Nat
  | 0, c => .done 0 c
  | n + 1, c =>
    (readBits n c).andThen fun v c => (readBit c).map fun b => 2 * v + b.toNat

/-- `ReadBytesLE(k)` (40_command_cycle.md R87): the least significant byte first. -/
def readBytesLE : Nat → RdCtx → Res RdCtx Nat
  | 0, c => .done 0 c
  | k + 1, c =>
    (readBytesLE k c).andThen fun v c => (readBits 8 c).map fun b => v + b * 2 ^ (8 * k)

/-- `AlignR()` (40_command_cycle.md R88). -/
def alignR (c : RdCtx) : RdCtx :=
  { c with unit := { c.unit with cnt := 0 } }

/-! ### Writer primitives -/

/-- Offer a full byte to the sink and count it (40_command_cycle.md R89, R92); the accumulator is already empty. -/
def pushByte (x : Byte) (c : WrCtx) : Res WrCtx Unit :=
  match c.sink.push x with
  | (.ok, snk) =>
    .done () { c with
               unit := { c.unit with total := c.unit.total + 1 }
               sink := snk
               delta := c.delta + 1 }
  | (.fail, snk) => .raised .transport { c with sink := snk }

/-- `WriteBit(b)` (40_command_cycle.md R89): the eighth bit flushes the byte. -/
def writeBit (b : Bool) (c : WrCtx) : Res WrCtx Unit :=
  let acc := BitVec.ofNat 8 (2 * c.unit.acc.toNat + b.toNat)
  if c.unit.cnt = 7 then
    pushByte acc { c with unit := { c.unit with acc := 0, cnt := 0 } }
  else
    .done () { c with unit := { c.unit with acc := acc, cnt := c.unit.cnt + 1 } }

/-- `WriteBits(n, v)` (40_command_cycle.md R90): the low n bits of v, the most significant first. -/
def writeBits : Nat → Nat → WrCtx → Res WrCtx Unit
  | 0, _, c => .done () c
  | n + 1, v, c => (writeBit (v.testBit n) c).andThen fun _ c => writeBits n v c

/-- `WriteBytesLE(k, v)` (40_command_cycle.md R91): the low k bytes of v, the least significant first. -/
def writeBytesLE : Nat → Nat → WrCtx → Res WrCtx Unit
  | 0, _, c => .done () c
  | k + 1, v, c => (writeBytesLE k v c).andThen fun _ c => writeBits 8 (v / 2 ^ (8 * k) % 256) c

/-- `AlignW()` (40_command_cycle.md R92): the pending bits, then zero padding, become one byte. -/
def alignW (c : WrCtx) : Res WrCtx Unit :=
  if c.unit.cnt = 0 then .done () c
  else
    pushByte (BitVec.ofNat 8 (c.unit.acc.toNat * 2 ^ (8 - c.unit.cnt.toNat)))
      { c with unit := { c.unit with acc := 0, cnt := 0 } }

/-! ### Finish -/

/-- `Finish(code, info)` of 40_command_cycle.md R80, less the result and the latch: STATUS is written, and
DOUT.V falls unless the outcome is OK. -/
def State.finish (s : State) (v : Verdict) (delta : Nat) : State :=
  { s with
    status := statusWord v delta
    doutV := (match v with | .ok => s.doutV | _ => false) }

/-- DOUT <- result; DOUT.V <- 1 (40_command_cycle.md R80). -/
def State.setDout (s : State) (x : Word) : State :=
  { s with dout := x, doutV := true }

/-- Whether a byte counter can hold `delta` more (00_scope.md R6). No command transfers more than 9 bytes
(40_command_cycle.md R94), so far from the top the answer needs no look at what the streams did. -/
def counterRoom (total : Word) (delta : Nat) : Bool :=
  decide (total.toNat + 9 < 2 ^ 64) || decide (total.toNat + delta < 2 ^ 64)

/-- The context a Reader command starts with: delta is 0 (40_command_cycle.md R80). -/
def State.rdStart (s : State) : RdCtx :=
  { unit := s.r, source := s.source, nanDraws := s.nanDec, delta := 0 }

/-- The context a Writer command starts with. -/
def State.wrStart (s : State) : WrCtx :=
  { unit := s.w, sink := s.sink, nanDraws := s.nanEnc, delta := 0 }

/-- The state after a Reader body: what it did stays, and a stream error latches (40_command_cycle.md R83). -/
def State.afterRead (s : State) (x : Res RdCtx (Option Word)) : State :=
  match x with
  | .done result c =>
    let t := { s with r := c.unit, source := c.source, nanDec := c.nanDraws }
    (match result with
      | none => t
      | some d => t.setDout d).finish .ok c.delta
  | .raised v c =>
    { s with r := { c.unit with err := latch c.unit.err v }, source := c.source, nanDec := c.nanDraws }.finish
      v c.delta

/-- The state after a Writer body. -/
def State.afterWrite (s : State) (x : Res WrCtx Unit) : State :=
  match x with
  | .done _ c => { s with w := c.unit, sink := c.sink, nanEnc := c.nanDraws }.finish .ok c.delta
  | .raised v c =>
    { s with w := { c.unit with err := latch c.unit.err v }, sink := c.sink, nanEnc := c.nanDraws }.finish v c.delta

/-! ### The command cycle (40_command_cycle.md R80, R81), after decoding -/

/-- A Reader command other than RD.INIT: latch, check, implicit align where `aligns`, body. -/
def readerCycle (check : Option Verdict) (aligns : Bool) (body : RdCtx → Res RdCtx (Option Word)) (s : State) :
    Host.Outcome State Fault Refusal :=
  if s.r.err ≠ 0 then .next (s.finish .streamBroken 0)
  else
    match check with
    | some v => .next (s.finish v 0)
    | none =>
      let x := body (if aligns then alignR s.rdStart else s.rdStart)
      if counterRoom s.r.total x.ctx.delta then .next (s.afterRead x) else .fault .counterOverflow

/-- A Writer command other than WR.INIT: latch, DIN where `readsDin`, check, implicit align where `aligns`, body. -/
def writerCycle (readsDin : Bool) (check : Option Verdict) (aligns : Bool) (body : WrCtx → Res WrCtx Unit)
    (s : State) : Host.Outcome State Fault Refusal :=
  if s.w.err ≠ 0 then .next (s.finish .streamBroken 0)
  else if readsDin && !s.dinV then .fault .dinUnwritten
  else
    match check with
    | some v => .next (s.finish v 0)
    | none =>
      let x := if aligns then (alignW s.wrStart).andThen fun _ c => body c else body s.wrStart
      if counterRoom s.w.total x.ctx.delta then .next (s.afterWrite x) else .fault .counterOverflow

/-- A size command (40_command_cycle.md R95): DIN, check, result. -/
def sizeCycle (check : Option Verdict) (size : Nat) (s : State) : Host.Outcome State Fault Refusal :=
  if s.dinV then
    match check with
    | some v => .next (s.finish v 0)
    | none => .next ((s.setDout (zextWord size)).finish .ok 0)
  else .fault .dinUnwritten

/-! ### Operand checks, in the order 40_command_cycle.md R81 gives -/

/-- The width check of every width command: W ≤ 32 (00_scope.md R7). -/
def checkWidth (w : Nat) : Option Verdict :=
  if w ≤ 32 then none else some .badWidth

/-- The first check that fails. -/
def firstFailure (a b : Option Verdict) : Option Verdict :=
  match a with
  | some v => some v
  | none => b

/-- A value check: INVALID_FIELD_RANGE(2) unless the value fits. -/
def checkValue (fits : Bool) : Option Verdict :=
  if fits then none else some .badValue

/-- The finiteness check: INVALID_FIELD_RANGE(3) for a NaN or an infinity. -/
def checkFinite (x : Word) : Option Verdict :=
  if f64Finite x then none else some .nonFinite

/-! ### Whole-unit operations -/

/-- RD.INIT's body (42_bit_stream.md R130): what reset does to the Reader, without touching DIN, DOUT, STATUS or the
Writer (70_reset_and_hazards.md R231). -/
def State.initReader (s : State) : State := { s with r := Reader.start }

/-- WR.INIT's body (42_bit_stream.md R131): what reset does to the Writer, pending bits discarded, without touching
DIN, DOUT, STATUS or the Reader (70_reset_and_hazards.md R231). -/
def State.initWriter (s : State) : State := { s with w := Writer.start }

/-- Reset (70_reset_and_hazards.md R230, R231): the block's registers take their reset values; streams, pending
accesses and the model's counters are not the block's. -/
def State.resetBlock (s : State) : State :=
  { s with
    r := Reader.start
    w := Writer.start
    din := State.reset.din
    dinV := State.reset.dinV
    dout := State.reset.dout
    doutV := State.reset.doutV
    status := State.reset.status }

end Sys2Proof.Machine
end

