-- ==== Sys2Proof/Machine/ByteRead.lean ====
section
/-! DEFINITION. The byte-stream reads (41_byte_stream.md R100 to R109). -/

namespace Sys2Proof.Machine

/-- A byte-level read of `k` bytes whose value `format` puts in DOUT (41_byte_stream.md, 30_encoding.md R67). -/
def readFixed (k : Nat) (format : Nat → Word) (s : State) : Host.Outcome State Fault Refusal :=
  readerCycle none true (fun c => (readBytesLE k c).map fun v => some (format v)) s

/-- RD.U8 (R100). -/
def execRdU8 (s : State) : Host.Outcome State Fault Refusal :=
  readFixed 1 zextWord s

/-- RD.S8 (R101). -/
def execRdS8 (s : State) : Host.Outcome State Fault Refusal :=
  readFixed 1 (fun v => sextWord (sext 8 v)) s

/-- RD.U16 (R102). -/
def execRdU16 (s : State) : Host.Outcome State Fault Refusal :=
  readFixed 2 zextWord s

/-- RD.S16 (R103). -/
def execRdS16 (s : State) : Host.Outcome State Fault Refusal :=
  readFixed 2 (fun v => sextWord (sext 16 v)) s

/-- RD.U32 (R104). -/
def execRdU32 (s : State) : Host.Outcome State Fault Refusal :=
  readFixed 4 zextWord s

/-- RD.S32 (R105). -/
def execRdS32 (s : State) : Host.Outcome State Fault Refusal :=
  readFixed 4 (fun v => sextWord (sext 32 v)) s

/-- RD.U64 (R106). -/
def execRdU64 (s : State) : Host.Outcome State Fault Refusal :=
  readFixed 8 zextWord s

/-- RD.S64 (R107). -/
def execRdS64 (s : State) : Host.Outcome State Fault Refusal :=
  readFixed 8 (fun v => sextWord (sext 64 v)) s

/-- RD.F32 (R108): the pattern moved unchanged. -/
def execRdF32 (s : State) : Host.Outcome State Fault Refusal :=
  readFixed 4 zextWord s

/-- RD.F64 (R109): the pattern moved unchanged. -/
def execRdF64 (s : State) : Host.Outcome State Fault Refusal :=
  readFixed 8 zextWord s

end Sys2Proof.Machine
end

