-- ==== Sys2Proof/Machine/ByteWrite.lean ====
section
/-! DEFINITION. The byte-stream writes (41_byte_stream.md R110 to R119). The operand is the low bits of DIN;
upper bits are ignored (30_encoding.md R66). -/

namespace Sys2Proof.Machine

/-- A byte-level write of the low `k` bytes of DIN, without a check (41_byte_stream.md). -/
def writeFixed (k : Nat) (s : State) : Host.Outcome State Fault Refusal :=
  writerCycle true none true (writeBytesLE k s.din.toNat) s

/-- WR.U8 (R110). -/
def execWrU8 (s : State) : Host.Outcome State Fault Refusal :=
  writeFixed 1 s

/-- WR.S8 (R111). -/
def execWrS8 (s : State) : Host.Outcome State Fault Refusal :=
  writeFixed 1 s

/-- WR.U16 (R112). -/
def execWrU16 (s : State) : Host.Outcome State Fault Refusal :=
  writeFixed 2 s

/-- WR.S16 (R113). -/
def execWrS16 (s : State) : Host.Outcome State Fault Refusal :=
  writeFixed 2 s

/-- WR.U32 (R114). -/
def execWrU32 (s : State) : Host.Outcome State Fault Refusal :=
  writeFixed 4 s

/-- WR.S32 (R115). -/
def execWrS32 (s : State) : Host.Outcome State Fault Refusal :=
  writeFixed 4 s

/-- WR.U64 (R116). -/
def execWrU64 (s : State) : Host.Outcome State Fault Refusal :=
  writeFixed 8 s

/-- WR.S64 (R117). -/
def execWrS64 (s : State) : Host.Outcome State Fault Refusal :=
  writeFixed 8 s

/-- WR.F32 (R118): the pattern moved unchanged. -/
def execWrF32 (s : State) : Host.Outcome State Fault Refusal :=
  writeFixed 4 s

/-- WR.F64 (R119): the pattern moved unchanged. -/
def execWrF64 (s : State) : Host.Outcome State Fault Refusal :=
  writeFixed 8 s

end Sys2Proof.Machine
end

