-- ==== Sys2Proof/Machine/Control.lean ====
section
/-! DEFINITION. The control commands INIT and ALIGN (42_bit_stream.md). None reads DIN or writes DOUT. -/

namespace Sys2Proof.Machine

/-- RD.INIT (R130): executes whatever R.ERR is; its body, then Finish(OK, 0), which writes STATUS
(40_command_cycle.md R80; against 70_reset_and_hazards.md R231 see assumption 26). -/
def execRdInit (s : State) : Host.Outcome State Fault Refusal :=
  .next (s.initReader.finish .ok 0)

/-- WR.INIT (R131): executes whatever W.ERR is; its body, then Finish(OK, 0), as for RD.INIT. -/
def execWrInit (s : State) : Host.Outcome State Fault Refusal :=
  .next (s.initWriter.finish .ok 0)

/-- RD.ALIGN (R132). -/
def execRdAlign (s : State) : Host.Outcome State Fault Refusal :=
  readerCycle none false (fun c => .done none (alignR c)) s

/-- WR.ALIGN (R133). -/
def execWrAlign (s : State) : Host.Outcome State Fault Refusal :=
  writerCycle false none false alignW s

end Sys2Proof.Machine
end

