-- ==== Sys2Proof/Machine/Packed.lean ====
section
/-! DEFINITION. The packed bit-field commands (43_packed_numeric.md). Width commands never align: they start at
the unit's current bit position (20_memory.md R47). -/

namespace Sys2Proof.Machine

/-- A width read of `w` bits whose value `format` puts in DOUT (R141, R144, R147). -/
def readField (w : Nat) (format : Nat → Word) (s : State) : Host.Outcome State Fault Refusal :=
  readerCycle (checkWidth w) false (fun c => (readBits w c).map fun v => some (format v)) s

/-- RD.UB W (R141). -/
def execRdUb (w : Nat) (s : State) : Host.Outcome State Fault Refusal :=
  readField w zextWord s

/-- RD.SB W (R144): W = 0 gives 0. -/
def execRdSb (w : Nat) (s : State) : Host.Outcome State Fault Refusal :=
  readField w (fun v => sextWord (sext w v)) s

/-- RD.FB W (R147): W = 0 gives +0.0. -/
def execRdFb (w : Nat) (s : State) : Host.Outcome State Fault Refusal :=
  readField w (fun v => bits64 (sext w v) 16) s

/-- WR.UB W (R142): the width, then FitsU. -/
def execWrUb (w : Nat) (s : State) : Host.Outcome State Fault Refusal :=
  writerCycle true (firstFailure (checkWidth w) (checkValue (fitsU s.din.toNat w))) false
    (writeBits w s.din.toNat) s

/-- WR.SB W (R145): the width, then FitsS. -/
def execWrSb (w : Nat) (s : State) : Host.Outcome State Fault Refusal :=
  writerCycle true (firstFailure (checkWidth w) (checkValue (fitsS (s64 s.din) w))) false
    (writeBits w (bitsK w (s64 s.din))) s

/-- WR.FB W (R148): the width, then finiteness, then FitsS of FBRaw. -/
def execWrFb (w : Nat) (s : State) : Host.Outcome State Fault Refusal :=
  writerCycle true
    (firstFailure (checkWidth w)
      (firstFailure (checkFinite s.din) (checkValue (fitsS (fxRaw s.din 16) w)))) false
    (writeBits w (bitsK w (fxRaw s.din 16))) s

/-- SZ.UB (R143). -/
def execSzUb (s : State) : Host.Outcome State Fault Refusal :=
  sizeCycle (checkValue (fitsU s.din.toNat 32)) (ubSize s.din.toNat) s

/-- SZ.SB (R146). -/
def execSzSb (s : State) : Host.Outcome State Fault Refusal :=
  sizeCycle (checkValue (fitsS (s64 s.din) 32)) (sbSize (s64 s.din)) s

/-- SZ.FB (R149): finiteness, then the int32 range of FBRaw. -/
def execSzFb (s : State) : Host.Outcome State Fault Refusal :=
  sizeCycle (firstFailure (checkFinite s.din) (checkValue (fitsS (fxRaw s.din 16) 32)))
    (sbSize (fxRaw s.din 16)) s

end Sys2Proof.Machine
end

