-- ==== Sys2Proof/Machine/VariableWidth.lean ====
section
/-! DEFINITION. The variable-width commands: EncodedU32, Float16, Fixed and Fixed8 (44_variable_width.md). All are
byte-level commands: the cycle aligns before the body. -/

namespace Sys2Proof.Machine

/-! ### EncodedU32 -/

/-- The decode loop of RD.VU32 (R171) from byte `i` on, with `left` bytes to go and the value `v` so far. The
last case is never reached: a 5th byte that continues is malformed. -/
def readVarint : (left i v : Nat) → RdCtx → Res RdCtx Nat
  | 0, _, _, c => .raised .malformedVarint c
  | left + 1, i, v, c =>
    (readBits 8 c).andThen fun b c =>
      if i = 4 ∧ 15 < b then .raised .malformedVarint c
      else if b < 128 then .done (v + b % 128 * 2 ^ (7 * i)) c
      else readVarint left (i + 1) (v + b % 128 * 2 ^ (7 * i)) c

/-- RD.VU32 (R171). -/
def execRdVu32 (s : State) : Host.Outcome State Fault Refusal :=
  readerCycle none true (fun c => (readVarint 5 0 0 c).map fun v => some (zextWord v)) s

/-- The encode loop of WR.VU32 (R172): `left + 1` groups, the first being group `i`; all but the last carry
the continuation bit. -/
def writeVarint : (left i v : Nat) → WrCtx → Res WrCtx Unit
  | 0, i, v, c => writeBits 8 (v / 2 ^ (7 * i) % 128) c
  | left + 1, i, v, c =>
    (writeBits 8 (v / 2 ^ (7 * i) % 128 + 128) c).andThen fun _ c => writeVarint left (i + 1) v c

/-- WR.VU32 (R172). -/
def execWrVu32 (s : State) : Host.Outcome State Fault Refusal :=
  writerCycle true (checkValue (fitsU s.din.toNat 32)) true
    (writeVarint (varintSize s.din.toNat - 1) 0 s.din.toNat) s

/-- SZ.VU32 (R173). -/
def execSzVu32 (s : State) : Host.Outcome State Fault Refusal :=
  sizeCycle (checkValue (fitsU s.din.toNat 32)) (varintSize s.din.toNat) s

/-! ### Float16 -/

/-- The result of RD.F16 for the word `h` (R176): a NaN takes a draw F16_NAN_DEC. -/
def decodeHalf (h : Nat) (c : RdCtx) : Res RdCtx (Option Word) :=
  if f16IsNan h then
    .done (some (zextWord (f32NanOf (Config.f16NanDec c.nanDraws)))) { c with nanDraws := c.nanDraws + 1 }
  else .done (some (zextWord (half2Bits32 h))) c

/-- RD.F16 (R176). -/
def execRdF16 (s : State) : Host.Outcome State Fault Refusal :=
  readerCycle none true (fun c => (readBytesLE 2 c).andThen decodeHalf) s

/-- The operand of WR.F16, the binary32 pattern DIN[31:0] (30_encoding.md R66). -/
def f32Operand (din : Word) : BitVec 32 := din.setWidth 32

/-- The body of WR.F16 for the datum `x` (R180, R182): a NaN takes a draw F16_NAN_ENC. -/
def encodeHalf (x : BitVec 32) (c : WrCtx) : Res WrCtx Unit :=
  if f32IsNan x then
    writeBytesLE 2 (f16NanOf (Config.f16NanEnc c.nanDraws)) { c with nanDraws := c.nanDraws + 1 }
  else writeBytesLE 2 (real2Half Config.f16Ties x) c

/-- WR.F16 (R182). -/
def execWrF16 (s : State) : Host.Outcome State Fault Refusal :=
  writerCycle true none true (encodeHalf (f32Operand s.din)) s

/-! ### Fixed and Fixed8 -/

/-- RD.FX32 (R185). -/
def execRdFx32 (s : State) : Host.Outcome State Fault Refusal :=
  readFixed 4 (fun v => bits64 (sext 32 v) 16) s

/-- RD.FX8 (R187). -/
def execRdFx8 (s : State) : Host.Outcome State Fault Refusal :=
  readFixed 2 (fun v => bits64 (sext 16 v) 8) s

/-- A fixed-point write with `k` fraction bits on `n` bytes (R186, R188): finiteness, then the wire range. -/
def writeFixedPoint (k n : Nat) (s : State) : Host.Outcome State Fault Refusal :=
  writerCycle true (firstFailure (checkFinite s.din) (checkValue (fitsS (fxRaw s.din k) (8 * n)))) true
    (writeBytesLE n (bitsK (8 * n) (fxRaw s.din k))) s

/-- WR.FX32 (R186). -/
def execWrFx32 (s : State) : Host.Outcome State Fault Refusal :=
  writeFixedPoint 16 4 s

/-- WR.FX8 (R188). -/
def execWrFx8 (s : State) : Host.Outcome State Fault Refusal :=
  writeFixedPoint 8 2 s

end Sys2Proof.Machine
end

