-- ==== Sys2Proof/Machine/Dispatch.lean ====
section
/-! DEFINITION. One arm per command, each a direct call of its meaning (30_encoding.md R64). -/

namespace Sys2Proof.Machine

def exec (i : Instr) (s : State) : Host.Outcome State Fault Refusal :=
  match i with
  | .rdInit => Sys2Proof.Machine.execRdInit s
  | .rdAlign => Sys2Proof.Machine.execRdAlign s
  | .rdU8 => Sys2Proof.Machine.execRdU8 s
  | .rdS8 => Sys2Proof.Machine.execRdS8 s
  | .rdU16 => Sys2Proof.Machine.execRdU16 s
  | .rdS16 => Sys2Proof.Machine.execRdS16 s
  | .rdU32 => Sys2Proof.Machine.execRdU32 s
  | .rdS32 => Sys2Proof.Machine.execRdS32 s
  | .rdU64 => Sys2Proof.Machine.execRdU64 s
  | .rdS64 => Sys2Proof.Machine.execRdS64 s
  | .rdF32 => Sys2Proof.Machine.execRdF32 s
  | .rdF64 => Sys2Proof.Machine.execRdF64 s
  | .rdVu32 => Sys2Proof.Machine.execRdVu32 s
  | .rdF16 => Sys2Proof.Machine.execRdF16 s
  | .rdFx32 => Sys2Proof.Machine.execRdFx32 s
  | .rdFx8 => Sys2Proof.Machine.execRdFx8 s
  | .rdUb w => Sys2Proof.Machine.execRdUb w s
  | .rdSb w => Sys2Proof.Machine.execRdSb w s
  | .rdFb w => Sys2Proof.Machine.execRdFb w s
  | .wrInit => Sys2Proof.Machine.execWrInit s
  | .wrAlign => Sys2Proof.Machine.execWrAlign s
  | .wrU8 => Sys2Proof.Machine.execWrU8 s
  | .wrS8 => Sys2Proof.Machine.execWrS8 s
  | .wrU16 => Sys2Proof.Machine.execWrU16 s
  | .wrS16 => Sys2Proof.Machine.execWrS16 s
  | .wrU32 => Sys2Proof.Machine.execWrU32 s
  | .wrS32 => Sys2Proof.Machine.execWrS32 s
  | .wrU64 => Sys2Proof.Machine.execWrU64 s
  | .wrS64 => Sys2Proof.Machine.execWrS64 s
  | .wrF32 => Sys2Proof.Machine.execWrF32 s
  | .wrF64 => Sys2Proof.Machine.execWrF64 s
  | .wrVu32 => Sys2Proof.Machine.execWrVu32 s
  | .wrF16 => Sys2Proof.Machine.execWrF16 s
  | .wrFx32 => Sys2Proof.Machine.execWrFx32 s
  | .wrFx8 => Sys2Proof.Machine.execWrFx8 s
  | .wrUb w => Sys2Proof.Machine.execWrUb w s
  | .wrSb w => Sys2Proof.Machine.execWrSb w s
  | .wrFb w => Sys2Proof.Machine.execWrFb w s
  | .szVu32 => Sys2Proof.Machine.execSzVu32 s
  | .szUb => Sys2Proof.Machine.execSzUb s
  | .szSb => Sys2Proof.Machine.execSzSb s
  | .szFb => Sys2Proof.Machine.execSzFb s

end Sys2Proof.Machine
end

