-- ==== Sys2Proof/Machine/Bus.lean ====
section
/-! DEFINITION. What one event of the host or the platform does: register writes and reads
(10_state.md R32 to R38), reset (70_reset_and_hazards.md R230, R231) and a new stream (R233). -/

namespace Sys2Proof.Machine

/-- The host registers by offset (10_state.md R38). -/
inductive HostReg where
  | cmd
  | din
  | dout
  | status
  | rstate
  | wstate
  | rtotal
  | wtotal
deriving DecidableEq, Repr

/-- The register an access reaches: 64 bits wide at one of the eight offsets (10_state.md R38). -/
def regAt (offset width : Nat) : Option HostReg :=
  if width = 64 then
    match offset with
    | 0x00 => some .cmd
    | 0x08 => some .din
    | 0x10 => some .dout
    | 0x18 => some .status
    | 0x20 => some .rstate
    | 0x28 => some .wstate
    | 0x30 => some .rtotal
    | 0x38 => some .wtotal
    | _ => none
  else none

/-- A host write of the word `c` to CMD (40_command_cycle.md R80): an illegal word is the outcome
ILLEGAL_COMMAND, a legal one runs. -/
def commandWrite (c : Word) (s : State) : Host.Outcome State Fault Refusal :=
  match decode c with
  | .error _ => .next (s.finish .illegalCommand 0)
  | .ok i => exec i s

/-- A host write (10_state.md R32, R35, R38). The access is checked before a command starts, so a write to CMD of
another width is BadAccess whatever its word would have met (the model's choice, assumption 28). -/
def hostWrite (offset width : Nat) (v : Word) (s : State) : Host.Outcome State Fault Refusal :=
  match regAt offset width with
  | some .cmd => commandWrite v s
  | some .din => .next { s with din := v, dinV := true }
  | some .dout => .fault .badAccess
  | some .status => .fault .badAccess
  | some .rstate => .fault .badAccess
  | some .wstate => .fault .badAccess
  | some .rtotal => .fault .badAccess
  | some .wtotal => .fault .badAccess
  | none => .fault .badAccess

/-- The host receives a value it read. -/
def deliver (s : State) (x : Word) : Host.Outcome State Fault Refusal :=
  .next { s with readback := s.readback ++ [x] }

/-- A host read (10_state.md R32 to R38). A read of DOUT of another width while DOUT.V = 0 meets two causes of
60_exceptions.md R207, whose order the spec leaves open: it is BadAccess here (the model's choice, assumption 28). -/
def hostRead (offset width : Nat) (s : State) : Host.Outcome State Fault Refusal :=
  match regAt offset width with
  | some .cmd => .fault .badAccess
  | some .din => deliver s s.din
  | some .dout => if s.doutV then deliver s s.dout else .fault .doutInvalid
  | some .status => deliver s s.status
  | some .rstate => deliver s s.rstate
  | some .wstate => deliver s s.wstate
  | some .rtotal => deliver s s.r.total
  | some .wtotal => deliver s s.w.total
  | none => .fault .badAccess

/-- The source after its next `n` answers. -/
def sourceAfter : Nat → Source → Source
  | 0, src => src
  | n + 1, src => sourceAfter n src.pull.2

/-- The sink after its next `n` offers, the bytes offered being the first of `bs`. -/
def sinkAfter : Nat → List Byte → Sink → Sink
  | 0, _, snk => snk
  | n + 1, [], snk => sinkAfter n [] (snk.push 0).2
  | n + 1, b :: bs, snk => sinkAfter n bs (snk.push b).2

/-- Reset asserted while the command word `c` is in progress (70_reset_and_hazards.md R230,
93_implementation_defined.md U13): the block's state is the reset state; of the command's stream transfers the
first few happened, how many being free (assumption 16). The draws of the whole command count as taken, so that no
later command takes one again (00_scope.md R9, R10, R19; the model's choice, assumption 27). -/
def resetDuringCommand (c : Word) (s : State) : Host.Outcome State Fault Refusal :=
  match commandWrite c s with
  | .next t =>
    let pulls := t.source.asked - s.source.asked
    let offers := t.sink.offered - s.sink.offered
    let cut := Config.resetCut s.cuts
    .next { s.resetBlock with
            source := sourceAfter (min cut pulls) s.source
            sink := sinkAfter (min cut offers) (t.sink.taken.drop s.sink.taken.length) s.sink
            nanEnc := t.nanEnc
            nanDec := t.nanDec
            cuts := s.cuts + 1 }
  | .fault f => .fault f
  | .refused r => .refused r

/-- The platform attaches a new byte source (70_reset_and_hazards.md R233): the block does not know of it. -/
def attachSource (script : List SrcAnswer) (beyond : Option SrcAnswer) (s : State) : State :=
  { s with source := { s.source with script := script, beyond := beyond } }

/-- The platform attaches a new byte sink (70_reset_and_hazards.md R233). -/
def attachSink (script : List SinkAnswer) (beyond : Option SinkAnswer) (s : State) : State :=
  { s with sink := { s.sink with script := script, beyond := beyond } }

/-- One event. -/
def hostEvent (e : HostEvent) (s : State) : Host.Outcome State Fault Refusal :=
  match e with
  | .write offset width v => hostWrite offset width v s
  | .read offset width => hostRead offset width s
  | .reset => .next s.resetBlock
  | .resetDuring c => resetDuringCommand c s
  | .attachSource script beyond => .next (attachSource script beyond s)
  | .attachSink script beyond => .next (attachSink script beyond s)

end Sys2Proof.Machine
end

