-- ==== Sys2Proof/Machine/Step.lean ====
section
/-! DEFINITION. One step: the next pending event of host or platform. The block has no program counter and
fetches nothing (10_state.md R21): the next instruction is the word of the next CMD write. -/

namespace Sys2Proof.Machine

/-- Take the next event off the list and do what it does. With none pending the block does nothing
(10_state.md R21; assumption 10). -/
def step (s : State) : Host.Outcome State Fault Refusal :=
  match s.host with
  | [] => .next s
  | e :: rest => hostEvent e { s with host := rest }

/-- `s` with a CMD write of the word `w` (of `nbits` bits) as the host's next access. -/
def State.withFetchWord (s : State) (nbits w : Nat) : State :=
  { s with host := .write 0x00 64 (BitVec.ofNat 64 (w % 2 ^ nbits)) :: s.host }

end Sys2Proof.Machine
end

