-- ==== Sys2Proof/Safety.lean ====
section
/-! DEFINITION. What counts as a sound state (10_state.md R25, R29, R30, R34, 40_command_cycle.md R96), and the
terms the claims are stated in: what the streams are about to answer, bytes and bits as numbers, and the exact
rational values of the spec (00_scope.md R14, R15, 44_variable_width.md R175, R180, R181, R184). -/

namespace Sys2Proof.Machine

/-! ### The invariant between commands -/

/-- W.ACC < 2^W.CNT (10_state.md R30); R.CNT and W.CNT lie in 0..7 by their types. -/
abbrev AccFits (s : State) : Prop := s.w.acc.toNat < 2 ^ s.w.cnt.toNat

/-- R.ERR is 0, 1, 2 or 3 and W.ERR is 0 or 2 (10_state.md R25, R29). -/
abbrev LatchesLegal (s : State) : Prop := s.r.err.toNat ≤ 3 ∧ (s.w.err = 0 ∨ s.w.err = 2)

/-- A unit with a latched error is byte-aligned, the Writer with nothing pending (40_command_cycle.md R96,
42_bit_stream.md R135). -/
abbrev LatchedAligned (s : State) : Prop :=
  (s.r.err ≠ 0 → s.r.cnt = 0) ∧ (s.w.err ≠ 0 → s.w.cnt = 0 ∧ s.w.acc = 0)

/-- STATUS is a pair of CODE and INFO that 60_exceptions.md R200 lists, with a DELTA of 0 to 9
(10_state.md R34, 40_command_cycle.md R94); its other bits are 0. -/
abbrev StatusLegal (s : State) : Prop := ∃ v : Verdict, ∃ d : Nat, d ≤ 9 ∧ s.status = statusWord v d

/-- What holds between commands, whatever happened before. -/
structure State.Inv (s : State) : Prop where
  accFits : AccFits s
  latchesLegal : LatchesLegal s
  latchedAligned : LatchedAligned s
  statusLegal : StatusLegal s

/-! ### What the streams are about to answer -/

/-- The next `n` answers of the source, where they are all bytes: the bytes and the source after them. -/
def Source.takeBytes : Nat → Source → Option (List Byte × Source)
  | 0, src => some ([], src)
  | n + 1, src =>
    match src.pull with
    | (.byte b, src') => (src'.takeBytes n).map fun p => (b :: p.1, p.2)
    | (.endOfData, _) => none
    | (.fail, _) => none

/-- The sink after it took all of the bytes, where it does. -/
def Sink.takes : List Byte → Sink → Option Sink
  | [], snk => some snk
  | b :: bs, snk =>
    match snk.push b with
    | (.ok, snk') => snk'.takes bs
    | (.fail, _) => none

/-- How a Reader command that has pulled `pulled` bytes ends on an answer that is no byte
(40_command_cycle.md R85, R93). -/
def stopVerdict (a : SrcAnswer) (pulled : Nat) : Verdict :=
  match a with
  | .byte _ => .ok
  | .endOfData => if pulled = 0 then .endOfStream else .truncated
  | .fail => .transport

/-! ### Bytes and bits as numbers -/

/-- The value of bytes, the least significant first (20_memory.md R43). -/
def leValue : List Byte → Nat
  | [] => 0
  | b :: bs => b.toNat + 256 * leValue bs

/-- The value of bytes, the most significant first: the bits of a bit stream in order (20_memory.md R44). -/
def beValue (bs : List Byte) : Nat :=
  bs.foldl (fun v b => 256 * v + b.toNat) 0

/-- The low `k` bytes of `v`, the least significant first (20_memory.md R43). -/
def leBytes : Nat → Nat → List Byte
  | 0, _ => []
  | k + 1, v => BitVec.ofNat 8 v :: leBytes k (v / 256)

/-- The low `k` bytes of `v`, the most significant first (20_memory.md R44). -/
def beBytes : Nat → Nat → List Byte
  | 0, _ => []
  | k + 1, v => BitVec.ofNat 8 (v / 256 ^ k) :: beBytes k v

/-- The last of the bytes just pulled, or what R.BYTE held before. -/
def lastByte (old : Byte) (bs : List Byte) : Byte :=
  bs.getLastD old

/-- How many bytes a Reader with `cnt` unread bits pulls to deliver `w` bits (40_command_cycle.md R85). -/
def bytesNeeded (w : Nat) (cnt : BitVec 3) : Nat :=
  (w - cnt.toNat + 7) / 8

/-- How many unread bits are left when those bytes are pulled and `w` bits delivered. -/
def bitsLeft (w : Nat) (cnt : BitVec 3) : Nat :=
  cnt.toNat + 8 * bytesNeeded w cnt - w

/-- The next `w` bits of the Reader's bit stream as a number: the unread bits of R.BYTE, then the bytes `bs`,
most significant first, without the bits left over (20_memory.md R44, 42_bit_stream.md R136). -/
def fieldValue (w : Nat) (r : Reader) (bs : List Byte) : Nat :=
  (r.byte.toNat % 2 ^ r.cnt.toNat * 256 ^ bytesNeeded w r.cnt + beValue bs) / 2 ^ bitsLeft w r.cnt

/-- The pending bits of the Writer followed by `w` bits of `v`, as a number. -/
def pendingThen (w v : Nat) (u : Writer) : Nat :=
  u.acc.toNat * 2 ^ w + v % 2 ^ w

/-- The bytes a Writer flushes when `w` bits of `v` are written (40_command_cycle.md R89, R90). -/
def flushedBy (w v : Nat) (u : Writer) : List Byte :=
  beBytes ((u.cnt.toNat + w) / 8) (pendingThen w v u / 2 ^ ((u.cnt.toNat + w) % 8))

/-- W.ACC after that: the bits not yet flushed. -/
def accAfter (w v : Nat) (u : Writer) : Byte :=
  BitVec.ofNat 8
    (if u.cnt.toNat + w < 8 then pendingThen w v u else pendingThen w v u % 2 ^ ((u.cnt.toNat + w) % 8))

/-- The byte an align flushes, if any (40_command_cycle.md R92). -/
def padding (u : Writer) : List Byte :=
  if u.cnt = 0 then [] else [BitVec.ofNat 8 (u.acc.toNat * 2 ^ (8 - u.cnt.toNat))]

/-- The bytes of an EncodedU32 (44_variable_width.md R172). -/
def varintBytes (v : Nat) : List Byte :=
  (List.range (varintSize v)).map fun i =>
    BitVec.ofNat 8 (v / 128 ^ i % 128 + if i + 1 < varintSize v then 128 else 0)

/-- The value of the bytes of an EncodedU32 (44_variable_width.md R171). -/
def varintValue : List Byte → Nat
  | [] => 0
  | b :: bs => b.toNat % 128 + 128 * varintValue bs

/-! ### Exact values -/

/-- `value(d)` of a finite binary64 datum (00_scope.md R15). -/
def f64Value (x : Word) : ℚ :=
  (if f64Sign x then -1 else 1) *
    (if f64Exp x = 0 then (f64Frac x : ℚ) * 2 ^ (-1074 : ℤ)
     else (2 ^ 52 + f64Frac x : ℚ) * 2 ^ ((f64Exp x : ℤ) - 1075))

/-- `value(d)` of a finite binary32 datum (00_scope.md R15). -/
def f32Value (x : BitVec 32) : ℚ :=
  (if f32Sign x then -1 else 1) *
    (if f32Exp x = 0 then (f32Frac x : ℚ) * 2 ^ (-149 : ℤ)
     else (2 ^ 23 + f32Frac x : ℚ) * 2 ^ ((f32Exp x : ℤ) - 150))

/-- `Half2Real(h)` of a finite Float16 word (44_variable_width.md R175). -/
def halfValue (h : Nat) : ℚ :=
  (if f16Sign h then -1 else 1) *
    (if f16Exp h = 0 then (f16Frac h : ℚ) * 2 ^ (-24 : ℤ)
     else (1024 + f16Frac h : ℚ) * 2 ^ ((f16Exp h : ℤ) - 25))

/-- `trunc0(q)`: the integer part, rounded toward zero (00_scope.md R14). -/
def trunc0 (q : ℚ) : ℤ :=
  if 0 ≤ q then ⌊q⌋ else ⌈q⌉

/-- `RoundInt(t)` on a rational, as 44_variable_width.md R181 writes it. -/
def roundRat (ties : F16Ties) (t : ℚ) : ℤ :=
  let n := ⌊t⌋
  let f := t - n
  if f < 1 / 2 then n
  else if 1 / 2 < f then n + 1
  else
    match ties with
    | .away => n + 1
    | .even => if n % 2 = 0 then n else n + 1

/-- `Real2Half` on the magnitude `a` of a finite non-zero datum, as 44_variable_width.md R180 writes it. -/
def realToHalfMag (ties : F16Ties) (a : ℚ) : ℤ :=
  let e := Int.log 2 a
  let h :=
    if e < -14 then roundRat ties (a / 2 ^ (-24 : ℤ))
    else (e + 15) * 1024 + (roundRat ties (a / 2 ^ (e - 10)) - 1024)
  if 0x7C00 ≤ h then 0x7C00 else h

/-- A binary32 NaN: exponent all ones, fraction not 0 (00_scope.md R15). -/
abbrev IsNan32 (x : BitVec 32) : Prop := f32Exp x = 255 ∧ f32Frac x ≠ 0

/-- A Float16 NaN word (00_scope.md R9). -/
abbrev IsNan16 (h : BitVec 16) : Prop := f16Exp h.toNat = 31 ∧ f16Frac h.toNat ≠ 0

end Sys2Proof.Machine
end

