-- ==== Sys2Proof/Certificates/Slice0/Obligations.lean ====
section
/-! DEFINITION. The statements for the provers. Each formalises rules of spec/; the shapes several of them share
come first. "The source delivers bs" is `takeBytes`, "the sink takes bs" is `takes` (Sys2Proof/Safety.lean). -/

namespace Sys2Proof.Claims
open Sys2Proof.Machine

/-! ### Classes of commands (30_encoding.md R63, R65) -/

/-- UNIT = 0b01. -/
abbrev OnReader (i : Instr) : Prop := i.opc / 64 = 1

/-- UNIT = 0b10. -/
abbrev OnWriter (i : Instr) : Prop := i.opc / 64 = 2

/-- The size commands: UNIT = 0b00. -/
abbrev IsSize (i : Instr) : Prop := i.opc / 64 = 0

/-- The byte-level commands: OP 0x02 to 0x0F in the Reader or Writer. -/
abbrev ByteLevel (i : Instr) : Prop := i.opc / 64 ≠ 0 ∧ 2 ≤ i.opc % 64 ∧ i.opc % 64 ≤ 15

/-- The commands that read DIN: Writer value commands and size commands (R66). -/
abbrev ReadsDin (i : Instr) : Prop := (OnWriter i ∧ 2 ≤ i.opc % 64) ∨ IsSize i

/-- The value commands: those that write DOUT on OK. -/
abbrev WritesDout (i : Instr) : Prop := (OnReader i ∧ 2 ≤ i.opc % 64) ∨ IsSize i

/-- STATUS.CODE (10_state.md R34). -/
abbrev code (s : State) : Nat := bitField s.status 0 8

/-- STATUS.DELTA (10_state.md R34). -/
abbrev delta (s : State) : Nat := bitField s.status 8 8

/-- STATUS.INFO (10_state.md R34). -/
abbrev info (s : State) : Nat := bitField s.status 16 8

/-- `FitsS(v, n)` (00_scope.md R14). -/
abbrev FitsSigned (v : ℤ) (n : Nat) : Prop :=
  (n = 0 ∧ v = 0) ∨ (1 ≤ n ∧ -(2 : ℤ) ^ (n - 1) ≤ v ∧ v ≤ 2 ^ (n - 1) - 1)

/-! ### The states a command leaves -/

/-- A Reader value command that completed: it pulled `bs`, left `left` unread bits and put `x` in DOUT. Every
register not named keeps its value. -/
def readDone (s : State) (bs : List Byte) (left : Nat) (src : Source) (x : Word) : State :=
  { s with
    r := { byte := lastByte s.r.byte bs, cnt := BitVec.ofNat 3 left, total := s.r.total + BitVec.ofNat 64 bs.length,
           err := s.r.err }
    source := src
    dout := x
    doutV := true
    status := BitVec.ofNat 64 (256 * bs.length) }

/-- A Reader command that ended with the stream error `v` after pulling `bs` (40_command_cycle.md R83, R96). -/
def readStopped (s : State) (bs : List Byte) (src : Source) (v : Verdict) : State :=
  { s with
    r := { byte := lastByte s.r.byte bs, cnt := 0, total := s.r.total + BitVec.ofNat 64 bs.length,
           err := BitVec.ofNat 8 v.code }
    source := src
    doutV := false
    status := BitVec.ofNat 64 (v.code + 256 * bs.length + 65536 * v.info) }

/-- A Writer command that completed: the sink took `bs`, and `left` bits stay pending in `acc`. -/
def writeDone (s : State) (bs : List Byte) (acc : Byte) (left : Nat) (snk : Sink) : State :=
  { s with
    w := { acc := acc, cnt := BitVec.ofNat 3 left, total := s.w.total + BitVec.ofNat 64 bs.length, err := s.w.err }
    sink := snk
    status := BitVec.ofNat 64 (256 * bs.length) }

/-- A Writer command whose push the sink refused, after it took `bs`: IO_ERROR(1), latched, nothing pending. -/
def writeFailed (s : State) (bs : List Byte) (snk : Sink) : State :=
  { s with
    w := { acc := 0, cnt := 0, total := s.w.total + BitVec.ofNat 64 bs.length, err := 2 }
    sink := snk
    doutV := false
    status := BitVec.ofNat 64 (2 + 256 * bs.length + 65536) }

/-- A command that ended with the outcome CODE `c`, INFO `info` before it did anything. -/
def rejected (s : State) (c info : Nat) : State :=
  { s with doutV := false, status := BitVec.ofNat 64 (c + 65536 * info) }

/-- A size command that completed with the size `n`. -/
def sized (s : State) (n : Nat) : State :=
  { s with dout := BitVec.ofNat 64 n, doutV := true, status := 0 }

/-! ### The shapes of the command rules -/

/-- After `bs` the source answers with no byte. -/
abbrev StopsAfter (s : State) (bs : List Byte) (a : SrcAnswer) (src : Source) : Prop :=
  ∃ t, s.source.takeBytes bs.length = some (bs, t) ∧ t.pull = (a, src) ∧ ∀ b, a ≠ .byte b

/-- A byte-level read of `k` bytes: its word, what it does when the source delivers them, and the stream errors. -/
def ReadRule (i : Instr) (word : Word) (k : Nat) (format : Nat → Word) : Prop :=
  encode i = word ∧
    ∀ s : State, s.r.err = 0 →
      (∀ bs src, s.source.takeBytes k = some (bs, src) → s.r.total.toNat + k < 2 ^ 64 →
        exec i s = .next (readDone s bs 0 src (format (leValue bs)))) ∧
      (∀ bs a src, bs.length < k → StopsAfter s bs a src → s.r.total.toNat + bs.length < 2 ^ 64 →
        exec i s = .next (readStopped s bs src (stopVerdict a bs.length)))

/-- A byte-level write sends exactly `bs`, or the part the sink takes. -/
def Sends (i : Instr) (s : State) (bs : List Byte) : Prop :=
  (∀ snk, s.sink.takes bs = some snk → s.w.total.toNat + bs.length < 2 ^ 64 →
    exec i s = .next (writeDone s bs 0 0 snk)) ∧
  (∀ as b cs t snk, bs = as ++ b :: cs → s.sink.takes as = some t → t.push b = (.fail, snk) →
    s.w.total.toNat + as.length < 2 ^ 64 → exec i s = .next (writeFailed s as snk))

/-- A byte-level write of the low `k` bytes of DIN, after the padded pending bits. -/
def WriteRule (i : Instr) (word : Word) (k : Nat) : Prop :=
  encode i = word ∧
    ∀ s : State, s.w.err = 0 →
      (s.dinV = false → exec i s = .fault .dinUnwritten) ∧
      (s.dinV = true → Sends i s (padding s.w ++ leBytes k s.din.toNat))

/-- A width read: the word, the width check, the next `w` bits of the stream, and the stream errors. -/
def FieldReadRule (mk : Nat → Instr) (opc : Nat) (format : Nat → Nat → Word) : Prop :=
  ∀ w : Nat, (w < 64 → encode (mk w) = BitVec.ofNat 64 (w * 256 + opc)) ∧
    ∀ s : State, s.r.err = 0 →
      (32 < w → exec (mk w) s = .next (rejected s 4 1)) ∧
      (w ≤ 32 →
        (∀ bs src, s.source.takeBytes (bytesNeeded w s.r.cnt) = some (bs, src) →
          s.r.total.toNat + bs.length < 2 ^ 64 →
          exec (mk w) s = .next (readDone s bs (bitsLeft w s.r.cnt) src (format w (fieldValue w s.r bs)))) ∧
        (∀ bs a src, bs.length < bytesNeeded w s.r.cnt → StopsAfter s bs a src →
          s.r.total.toNat + bs.length < 2 ^ 64 →
          exec (mk w) s = .next (readStopped s bs src (stopVerdict a bs.length))))

/-- A width write appends exactly the `w` bits `v`, or the part the sink takes. -/
def SendsField (i : Instr) (s : State) (w v : Nat) : Prop :=
  (∀ snk, s.sink.takes (flushedBy w v s.w) = some snk → s.w.total.toNat + (flushedBy w v s.w).length < 2 ^ 64 →
    exec i s =
      .next (writeDone s (flushedBy w v s.w) (accAfter w v s.w) ((s.w.cnt.toNat + w) % 8) snk)) ∧
  (∀ as b cs t snk, flushedBy w v s.w = as ++ b :: cs → s.sink.takes as = some t → t.push b = (.fail, snk) →
    s.w.total.toNat + as.length < 2 ^ 64 → exec i s = .next (writeFailed s as snk))

/-- A width write: the word, DIN, and the checks in their order; `check` gives the INFO of a value that is
rejected, `bits` what is written otherwise. -/
def FieldWriteRule (mk : Nat → Instr) (opc : Nat) (rejects : Nat → Word → Nat → Prop) (bits : Nat → Word → Nat) :
    Prop :=
  ∀ w : Nat, (w < 64 → encode (mk w) = BitVec.ofNat 64 (w * 256 + opc)) ∧
    ∀ s : State, s.w.err = 0 →
      (s.dinV = false → exec (mk w) s = .fault .dinUnwritten) ∧
      (s.dinV = true →
        (32 < w → exec (mk w) s = .next (rejected s 4 1)) ∧
        (w ≤ 32 →
          (∀ info, rejects w s.din info → exec (mk w) s = .next (rejected s 4 info)) ∧
          ((∀ info, ¬ rejects w s.din info) → SendsField (mk w) s w (bits w s.din))))

/-- A size command: its word, DIN, the checks, and the size. -/
def SizeRule (i : Instr) (word : Word) (rejects : Word → Nat → Prop) (isSize : Word → Nat → Prop) : Prop :=
  encode i = word ∧
    ∀ s : State,
      (s.dinV = false → exec i s = .fault .dinUnwritten) ∧
      (s.dinV = true →
        (∀ info, rejects s.din info → exec i s = .next (rejected s 4 info)) ∧
        ((∀ info, ¬ rejects s.din info) → ∃ n, isSize s.din n ∧ exec i s = .next (sized s n)))

/-- A command that moves `n` bytes on the stream of the counter `total`: CounterOverflow where they do not fit the
counter, else a next state whose counter has grown by `n` (00_scope.md R6). -/
def CountsOrFaults (i : Instr) (s : State) (total : State → Word) (n : Nat) : Prop :=
  (2 ^ 64 ≤ (total s).toNat + n → exec i s = .fault .counterOverflow) ∧
    ((total s).toNat + n < 2 ^ 64 → ∃ t, exec i s = .next t ∧ (total t).toNat = (total s).toNat + n)

/-- `s` with both byte counters at 0. -/
def uncounted (s : State) : State :=
  { s with r := { s.r with total := 0 }, w := { s.w with total := 0 } }

/-- The value check of FB fields and of Fixed and Fixed8 (43_packed_numeric.md R148, 44_variable_width.md R186,
R188): INFO 3 for a datum that is not finite, INFO 2 for one whose truncated value does not fit `n` bits. -/
def fixedRejects (k n : Nat) (x : Word) (info : Nat) : Prop :=
  (f64Finite x = false ∧ info = 3) ∨
    (f64Finite x = true ∧ ¬ FitsSigned (trunc0 (f64Value x * 2 ^ k)) n ∧ info = 2)

/-- A fixed-point write with `k` fraction bits on `n` bytes. -/
def FixedWriteRule (i : Instr) (word : Word) (k n : Nat) : Prop :=
  encode i = word ∧
    ∀ s : State, s.w.err = 0 →
      (s.dinV = false → exec i s = .fault .dinUnwritten) ∧
      (s.dinV = true →
        (∀ info, fixedRejects k (8 * n) s.din info → exec i s = .next (rejected s 4 info)) ∧
        ((∀ info, ¬ fixedRejects k (8 * n) s.din info) →
          Sends i s
            (padding s.w ++ leBytes n (trunc0 (f64Value s.din * 2 ^ k) % 2 ^ (8 * n)).toNat)))

end Sys2Proof.Claims

open Sys2Proof Sys2Proof.Machine Sys2Proof.Claims

/-! ### Reset and the invariant -/

/-- 10_state.md R39: the reset value of every register that has one; the views follow. -/
def Obligations.ResetGivesTheStatedValues : Prop :=
  State.reset.r = { byte := 0, cnt := 0, total := 0, err := 0 } ∧
  State.reset.w = { acc := 0, cnt := 0, total := 0, err := 0 } ∧
  State.reset.dinV = false ∧ State.reset.doutV = false ∧ State.reset.status = 0 ∧
  State.reset.rstate = 0 ∧ State.reset.wstate = 0

/-- 10_state.md R39: a reset gives every register of the block its reset value, and it does not reset the byte source
or the byte sink. DIN and DOUT are left open, as the rule leaves them. -/
def Obligations.ResetEventSetsTheBlockOnly : Prop :=
  ∀ (s : State) (rest : List HostEvent), s.host = .reset :: rest →
    ∃ t, step s = .next t ∧ t.rstate = 0 ∧ t.wstate = 0 ∧
      t = { s with
        host := rest
        r := { byte := 0, cnt := 0, total := 0, err := 0 }
        w := { acc := 0, cnt := 0, total := 0, err := 0 }
        din := t.din, dinV := false, dout := t.dout, doutV := false, status := 0 }

/-- The invariant holds after reset. -/
def Obligations.InvariantHoldsAtReset : Prop := State.reset.Inv

/-- Every step keeps the invariant: W.ACC holds no more than W.CNT bits, the latches and STATUS hold only listed
values, DELTA is at most 9, and a latched unit is byte-aligned (10_state.md R30, R34, 40_command_cycle.md R94, R96). -/
def Obligations.EveryStepKeepsTheInvariant : Prop :=
  ∀ s t : State, s.Inv → step s = .next t → t.Inv

/-! ### Encoding -/

/-- Every well-formed command decodes from its word (30_encoding.md R60 to R64). -/
def Obligations.DecodeOfEncode : Prop :=
  ∀ i : Instr, i.wf = true → decode (encode i) = .ok i

/-- A word that decodes is the word of the command it decodes to: no two words give one command and no bit is
ignored (30_encoding.md R70). -/
def Obligations.EncodeOfDecode : Prop :=
  ∀ (c : Word) (i : Instr), decode c = .ok i → i.wf = true ∧ encode i = c

/-- 30_encoding.md R68: exactly the words the rule lists are illegal, and a CMD write of one leaves
ILLEGAL_COMMAND in STATUS, DOUT.V = 0 and everything else as it was. -/
def Obligations.IllegalWordsAreExactlyTheListed : Prop :=
  ∀ (c : Word) (s : State) (rest : List HostEvent), s.host = .write 0x00 64 c :: rest →
    ((bitField c 14 50 ≠ 0 ∨ bitField c 6 2 = 3 ∨
        (bitField c 6 2 = 0 ∧ bitField c 0 6 ∉ [0x0C, 0x10, 0x11, 0x12]) ∨ 0x12 < bitField c 0 6 ∨
        (bitField c 8 6 ≠ 0 ∧ (bitField c 6 2 = 0 ∨ bitField c 0 6 < 0x10))) ↔
      ¬ ∃ i, decode c = .ok i) ∧
    ((¬ ∃ i, decode c = .ok i) → step s = .next (rejected { s with host := rest } 5 0))

/-- Words written out from the table of 30_encoding.md R64, one or more of each unit. -/
def Obligations.WordsOfTheTableDecode : Prop :=
  decode 0x40 = .ok .rdInit ∧ decode 0x81 = .ok .wrAlign ∧ decode 0x47 = .ok .rdS32 ∧ decode 0x88 = .ok .wrU64 ∧
  decode 0x2050 = .ok (.rdUb 32) ∧ decode 0x3F51 = .ok (.rdSb 63) ∧ decode 0x1292 = .ok (.wrFb 18) ∧
  decode 0x0C = .ok .szVu32 ∧ decode 0x12 = .ok .szFb ∧ decode 0x8D = .ok .wrF16 ∧ decode 0x4F = .ok .rdFx8

/-! ### The step and the host registers -/

/-- 10_state.md R35, 40_command_cycle.md R80: a CMD write of a word that decodes runs that command; the step
adds only that the access is taken off the pending ones. -/
def Obligations.StepRunsTheDecodedCommand : Prop :=
  ∀ (c : Word) (i : Instr) (s : State) (rest : List HostEvent),
    s.host = .write 0x00 64 c :: rest → decode c = .ok i → step s = exec i { s with host := rest }

/-- 10_state.md R32: a host write to DIN sets it and DIN.V and changes nothing else. -/
def Obligations.DinWriteSetsDin : Prop :=
  ∀ (v : Word) (s : State) (rest : List HostEvent), s.host = .write 0x08 64 v :: rest →
    step s = .next { s with host := rest, din := v, dinV := true }

/-- What each host read delivers, and that it changes no register (10_state.md R33, R34, R36, R37, R38). The
value of DIN while DIN.V = 0 is not the spec's (assumption 23), so DIN is read here with DIN.V = 1. -/
def Obligations.HostReadsDeliverTheRegisters : Prop :=
  ∀ (s : State) (rest : List HostEvent) (offset : Nat), s.host = .read offset 64 :: rest →
    let delivers (x : Word) := step s = .next { s with host := rest, readback := s.readback ++ [x] }
    (offset = 0x08 → s.dinV = true → delivers s.din) ∧
    (offset = 0x10 → s.doutV = true → delivers s.dout) ∧
    (offset = 0x10 → s.doutV = false → step s = .fault .doutInvalid) ∧
    (offset = 0x18 → delivers s.status) ∧
    (offset = 0x20 →
      delivers (BitVec.ofNat 64 (s.r.byte.toNat + 256 * s.r.cnt.toNat + 65536 * s.r.err.toNat))) ∧
    (offset = 0x28 →
      delivers (BitVec.ofNat 64 (s.w.acc.toNat + 256 * s.w.cnt.toNat + 65536 * s.w.err.toNat))) ∧
    (offset = 0x30 → delivers s.r.total) ∧
    (offset = 0x38 → delivers s.w.total)

/-- 10_state.md R38, 60_exceptions.md R207: an access at any other offset or narrower than 64 bits, a write to a
read-only register and a read of CMD are host faults. That an access wider than 64 bits is one too is the model's
choice (assumption 12): R207 lists the narrower ones, and R38 says only "at full width".
So is the answer BadAccess where an access meets a second host fault as well, such as a narrow read of DOUT while
DOUT.V = 0 (assumption 28). -/
def Obligations.OtherAccessesAreBad : Prop :=
  ∀ (s : State) (rest : List HostEvent) (offset width : Nat),
    (∀ v, s.host = .write offset width v :: rest → ¬ (width = 64 ∧ (offset = 0x00 ∨ offset = 0x08)) →
      step s = .fault .badAccess) ∧
    (s.host = .read offset width :: rest →
      ¬ (width = 64 ∧ offset ∈ [0x08, 0x10, 0x18, 0x20, 0x28, 0x30, 0x38]) → step s = .fault .badAccess)

/-- A reset during a command leaves the reset state and some first part of the command's stream transfers
(70_reset_and_hazards.md R230; that it is a first part is the model's reading, assumption 16). -/
def Obligations.ResetDuringCommandKeepsFirstTransfers : Prop :=
  ∀ (c : Word) (s t : State) (rest : List HostEvent), s.host = .resetDuring c :: rest →
    commandWrite c { s with host := rest } = .next t →
    ∃ u, step s = .next u ∧ u.r = State.reset.r ∧ u.w = State.reset.w ∧ u.dinV = false ∧ u.doutV = false ∧
      u.status = 0 ∧ u.host = rest ∧ u.readback = s.readback ∧
      (∃ bs, u.source.pulled = s.source.pulled ++ bs ∧ bs <+: t.source.pulled.drop s.source.pulled.length) ∧
      (∃ bs, u.sink.taken = s.sink.taken ++ bs ∧ bs <+: t.sink.taken.drop s.sink.taken.length)

/-- 70_reset_and_hazards.md R233: the block does not know when the platform attaches a new stream; no register
changes. -/
def Obligations.AttachingAStreamLeavesTheBlock : Prop :=
  ∀ (s : State) (rest : List HostEvent),
    (∀ script beyond, s.host = .attachSource script beyond :: rest →
      step s = .next { s with host := rest, source := { s.source with script := script, beyond := beyond } }) ∧
    (∀ script beyond, s.host = .attachSink script beyond :: rest →
      step s = .next { s with host := rest, sink := { s.sink with script := script, beyond := beyond } })

/-! ### The command cycle, over all commands -/

/-- 40_command_cycle.md R84: while a unit's latch is set every command of the unit but INIT is refused with
STREAM_BROKEN and no other effect; only the unit's INIT (the words 0x40 and 0x80) and reset clear a latch. -/
def Obligations.LatchedUnitRefusesAllButInit : Prop :=
  (∀ (i : Instr) (s : State),
    (OnReader i → i ≠ .rdInit → s.r.err ≠ 0 → exec i s = .next (rejected s 6 0)) ∧
    (OnWriter i → i ≠ .wrInit → s.w.err ≠ 0 → exec i s = .next (rejected s 6 0))) ∧
  ∀ (s t : State) (e : HostEvent) (rest : List HostEvent), s.host = e :: rest → step s = .next t →
    (s.r.err ≠ 0 → t.r.err = s.r.err ∨ e = .write 0x00 64 0x40 ∨ e = .reset ∨ ∃ c, e = .resetDuring c) ∧
    (s.w.err ≠ 0 → t.w.err = s.w.err ∨ e = .write 0x00 64 0x80 ∨ e = .reset ∨ ∃ c, e = .resetDuring c)

/-- 40_command_cycle.md R83: a Reader command that ends with code 1, 2 or 3 sets R.ERR to it, a Writer command
that ends with code 2 sets W.ERR; no other outcome sets a latch, and a size command never does. -/
def Obligations.StreamErrorsLatch : Prop :=
  (∀ (i : Instr) (s t : State), exec i s = .next t →
    (OnReader i → code t ∈ [1, 2, 3] → t.r.err.toNat = code t ∧ t.w.err = s.w.err) ∧
    (OnWriter i → code t ∈ [1, 2, 3] → code t = 2 ∧ t.w.err = 2 ∧ t.r.err = s.r.err) ∧
    (i ≠ .rdInit → i ≠ .wrInit → code t ∉ [1, 2, 3] → t.r.err = s.r.err ∧ t.w.err = s.w.err) ∧
    (IsSize i → t.r.err = s.r.err ∧ t.w.err = s.w.err)) ∧
  ∀ (c : Word) (s t : State), (¬ ∃ i, decode c = .ok i) → commandWrite c s = .next t →
    t.r.err = s.r.err ∧ t.w.err = s.w.err

/-- 60_exceptions.md R200: the outcomes and the commands each is raised by. -/
def Obligations.CodesComeFromTheListedCommands : Prop :=
  ∀ (c : Word) (s t : State), commandWrite c s = .next t →
    (code t, info t) ∈ [(0, 0), (1, 0), (2, 1), (2, 2), (3, 0), (4, 1), (4, 2), (4, 3), (5, 0), (6, 0)] ∧
    (code t = 5 ↔ ¬ ∃ i, decode c = .ok i) ∧
    ∀ i, decode c = .ok i →
      (code t = 1 → OnReader i ∧ 2 ≤ i.opc % 64) ∧
      (code t = 2 → (OnReader i ∧ 2 ≤ i.opc % 64) ∨ (OnWriter i ∧ i ≠ .wrInit ∧ info t = 1)) ∧
      (code t = 3 → i = .rdVu32) ∧
      (code t = 4 → i.takesWidth = true ∨ i ∈ [Instr.wrVu32, .wrFx32, .wrFx8] ∨ IsSize i) ∧
      (code t = 6 → (OnReader i ∧ i ≠ .rdInit ∧ s.r.err ≠ 0) ∨ (OnWriter i ∧ i ≠ .wrInit ∧ s.w.err ≠ 0))

/-- 40_command_cycle.md R81, 20_memory.md R51: INVALID_FIELD_RANGE, ILLEGAL_COMMAND and STREAM_BROKEN come before any
transfer and before the implicit align: nothing changes but STATUS and DOUT.V, and DELTA is 0. -/
def Obligations.RejectedCommandsChangeNothing : Prop :=
  ∀ (c : Word) (s t : State), commandWrite c s = .next t → 4 ≤ code t →
    t = { s with doutV := false, status := t.status } ∧ delta t = 0

/-- 40_command_cycle.md R93, 60_exceptions.md R201, R202, R203: END_OF_STREAM pulled nothing, TRUNCATED pulled at
least one byte, MALFORMED_VARINT pulled five. -/
def Obligations.EndOfStreamPulledNothing : Prop :=
  ∀ (i : Instr) (s t : State), OnReader i → exec i s = .next t →
    (code t = 1 → delta t = 0 ∧ t.source.pulled = s.source.pulled) ∧
    (code t = 2 → info t = 2 → 1 ≤ delta t) ∧
    (code t = 3 → delta t = 5)

/-- 40_command_cycle.md R82, with the place R81 gives it: after the latch, before every operand check. -/
def Obligations.UnwrittenDinIsAHostFault : Prop :=
  ∀ (i : Instr) (s : State), ReadsDin i → s.dinV = false → (OnWriter i → s.w.err = 0) →
    exec i s = .fault .dinUnwritten

/-- Every command ends in a next state, with whatever answers the streams give, when its operand is there and the
counters are not within 9 of their end (40_command_cycle.md R80, R94; 60_exceptions.md R207). This is a claim of
termination, and it assumes a transport that answers, as 93_implementation_defined.md U15 asks: a transport that never
answers is not represented in the model (assumption 14). -/
def Obligations.CommandsComplete : Prop :=
  ∀ (i : Instr) (s : State), (ReadsDin i → s.dinV = true) → s.r.total.toNat + 9 < 2 ^ 64 →
    s.w.total.toNat + 9 < 2 ^ 64 → ∃ t, exec i s = .next t

/-- 00_scope.md R6, 60_exceptions.md R207: a command that would count past 2^64 - 1 is the host fault
CounterOverflow, and one that just fits completes: for the byte-level reads of whole bytes, the width reads and RD.VU32
on R.TOTAL, for the byte-level writes, the padded byte counted, and WR.ALIGN on W.TOTAL. That the whole command stops
is the model's reading (assumption 8). -/
def Obligations.CounterOverflowIsAHostFault : Prop :=
  (∀ p ∈ [(Instr.rdU8, 1), (.rdS8, 1), (.rdU16, 2), (.rdS16, 2), (.rdU32, 4), (.rdS32, 4), (.rdU64, 8), (.rdS64, 8),
      (.rdF32, 4), (.rdF64, 8), (.rdF16, 2), (.rdFx32, 4), (.rdFx8, 2)],
    ∀ (s : State) (bs : List Byte) (src : Source), s.r.err = 0 → s.source.takeBytes p.2 = some (bs, src) →
      CountsOrFaults p.1 s (·.r.total) p.2) ∧
  (∀ mk ∈ [Instr.rdUb, .rdSb, .rdFb], ∀ (w : Nat) (s : State) (bs : List Byte) (src : Source), w ≤ 32 → s.r.err = 0 →
      s.source.takeBytes (bytesNeeded w s.r.cnt) = some (bs, src) →
      CountsOrFaults (mk w) s (·.r.total) (bytesNeeded w s.r.cnt)) ∧
  (∀ (s : State) (as : List Byte) (b : Byte) (src : Source), s.r.err = 0 → (∀ a ∈ as, 128 ≤ a.toNat) →
      as.length ≤ 4 → (b.toNat < 128 ∨ as.length = 4) →
      s.source.takeBytes (as.length + 1) = some (as ++ [b], src) →
      CountsOrFaults .rdVu32 s (·.r.total) (as.length + 1)) ∧
  (∀ p ∈ [(Instr.wrU8, 1), (.wrS8, 1), (.wrU16, 2), (.wrS16, 2), (.wrU32, 4), (.wrS32, 4), (.wrU64, 8), (.wrS64, 8),
      (.wrF32, 4), (.wrF64, 8)],
    ∀ (s : State) (snk : Sink), s.w.err = 0 → s.dinV = true →
      s.sink.takes (padding s.w ++ leBytes p.2 s.din.toNat) = some snk →
      CountsOrFaults p.1 s (·.w.total) ((padding s.w).length + p.2)) ∧
  ∀ (s : State) (snk : Sink), s.w.err = 0 → s.sink.takes (padding s.w) = some snk →
    CountsOrFaults .wrAlign s (·.w.total) (padding s.w).length

/-- 10_state.md R33, 40_command_cycle.md R80: what a command does to DOUT and DOUT.V. -/
def Obligations.DoutFollowsTheOutcome : Prop :=
  ∀ (i : Instr) (s t : State), exec i s = .next t →
    (code t = 0 → WritesDout i → t.doutV = true) ∧
    (code t = 0 → ¬ WritesDout i → t.doutV = s.doutV ∧ t.dout = s.dout) ∧
    (code t ≠ 0 → t.doutV = false ∧ t.dout = s.dout)

/-- 20_memory.md R55, R54: a Reader command reads and writes nothing of the Writer, a Writer command nothing of
the Reader. Two states that agree on one unit's half answer alike on it, whatever the other half holds. -/
def Obligations.ReaderAndWriterAreIndependent : Prop :=
  ∀ (i : Instr) (s t s' t' : State), exec i s = .next t → exec i s' = .next t' →
    (OnReader i → t.w = s.w ∧ t.sink = s.sink ∧ t.nanEnc = s.nanEnc ∧
      (s'.r = s.r → s'.source = s.source → s'.nanDec = s.nanDec →
        t'.r = t.r ∧ t'.source = t.source ∧ t'.status = t.status ∧ t'.nanDec = t.nanDec ∧
          (code t = 0 → WritesDout i → t'.dout = t.dout))) ∧
    (OnWriter i → t.r = s.r ∧ t.source = s.source ∧ t.nanDec = s.nanDec ∧
      (s'.w = s.w → s'.sink = s.sink → s'.nanEnc = s.nanEnc → s'.din = s.din →
        t'.w = t.w ∧ t'.sink = t.sink ∧ t'.status = t.status ∧ t'.nanEnc = t.nanEnc))

/-- 40_command_cycle.md R95: a size command reads only DIN and writes only DOUT, DOUT.V and STATUS. -/
def Obligations.SizeCommandsTouchNoUnit : Prop :=
  ∀ (i : Instr) (s t : State), IsSize i → exec i s = .next t →
    t = { s with dout := t.dout, doutV := t.doutV, status := t.status } ∧
    ∀ s' : State, s'.din = s.din → s'.dinV = s.dinV →
      ∃ t', exec i s' = .next t' ∧ t'.status = t.status ∧ t'.doutV = t.doutV ∧
        (code t = 0 → t'.dout = t.dout)

/-- No command writes DIN, DIN.V, the host's pending accesses or what it has read (10_state.md R32,
70_reset_and_hazards.md R236). -/
def Obligations.CommandsNeverWriteDin : Prop :=
  ∀ (i : Instr) (s t : State), exec i s = .next t →
    t.din = s.din ∧ t.dinV = s.dinV ∧ t.host = s.host ∧ t.readback = s.readback ∧ t.cuts = s.cuts

/-- 20_memory.md R59, R54, 40_command_cycle.md R94: the counters and DELTA are exactly the bytes the streams
moved during the command, on success and on failure alike. -/
def Obligations.CountersAreExact : Prop :=
  ∀ (i : Instr) (s t : State), exec i s = .next t →
    ∃ bs ws : List Byte, t.source.pulled = s.source.pulled ++ bs ∧ t.sink.taken = s.sink.taken ++ ws ∧
      delta t = bs.length + ws.length ∧ bs.length + ws.length ≤ 9 ∧
      t.r.total.toNat = (if i = .rdInit then 0 else s.r.total.toNat + bs.length) ∧
      t.w.total.toNat = (if i = .wrInit then 0 else s.w.total.toNat + ws.length)

/-- 42_bit_stream.md R135: the mode transitions of a unit without a latched error, and that a stream error leaves
the unit byte-aligned and latched. -/
def Obligations.ModeTransitions : Prop :=
  ∀ (i : Instr) (s t : State), exec i s = .next t →
    (code t = 0 → (i = .rdInit ∨ i = .rdAlign ∨ (OnReader i ∧ ByteLevel i)) → t.r.cnt = 0) ∧
    (code t = 0 → (i = .wrInit ∨ i = .wrAlign ∨ (OnWriter i ∧ ByteLevel i)) → t.w.cnt = 0) ∧
    (code t = 0 → OnReader i → i.takesWidth = true →
      (t.r.cnt.toNat : ℤ) = ((s.r.cnt.toNat : ℤ) - i.wField) % 8) ∧
    (code t = 0 → OnWriter i → i.takesWidth = true → t.w.cnt.toNat = (s.w.cnt.toNat + i.wField) % 8) ∧
    (code t ∈ [1, 2, 3] → OnReader i → t.r.cnt = 0 ∧ t.r.err ≠ 0) ∧
    (code t ∈ [1, 2, 3] → OnWriter i → t.w.cnt = 0 ∧ t.w.err ≠ 0)

/-! ### Control commands -/

/-- 42_bit_stream.md R130, R131: INIT executes in every state and sets the unit to its start state and STATUS to 0;
the other unit, DIN, DOUT and both streams keep what they had. The clause STATUS = 0 is the model's choice between
these rules and 70_reset_and_hazards.md R231, "without touching … STATUS" (assumption 26). -/
def Obligations.InitStartsAUnit : Prop :=
  encode .rdInit = 0x40 ∧ encode .wrInit = 0x80 ∧
  ∀ s : State,
    exec .rdInit s = .next { s with r := { byte := 0, cnt := 0, total := 0, err := 0 }, status := 0 } ∧
    exec .wrInit s = .next { s with w := { acc := 0, cnt := 0, total := 0, err := 0 }, status := 0 }

/-- 42_bit_stream.md R132, R133: ALIGN of an unlatched unit. The Reader's unread bits are dropped and nothing is
pulled; the Writer's pending bits are padded with zeros and flushed. -/
def Obligations.AlignEndsThePartialByte : Prop :=
  encode .rdAlign = 0x41 ∧ encode .wrAlign = 0x81 ∧
  (∀ s : State, s.r.err = 0 →
    exec .rdAlign s = .next { s with r := { s.r with cnt := 0 }, status := 0 }) ∧
  (∀ s : State, s.r.err ≠ 0 → exec .rdAlign s = .next (rejected s 6 0)) ∧
  (∀ s : State, s.w.err = 0 →
    (s.w.cnt = 0 → exec .wrAlign s = .next { s with status := 0 }) ∧
    (∀ b, s.w.cnt ≠ 0 → b = BitVec.ofNat 8 (s.w.acc.toNat * 2 ^ (8 - s.w.cnt.toNat)) →
      (∀ snk, s.sink.push b = (.ok, snk) → s.w.total.toNat + 1 < 2 ^ 64 →
        exec .wrAlign s = .next (writeDone s [b] 0 0 snk)) ∧
      (∀ snk, s.sink.push b = (.fail, snk) → exec .wrAlign s = .next (writeFailed s [] snk)))) ∧
  (∀ s : State, s.w.err ≠ 0 → exec .wrAlign s = .next (rejected s 6 0))

/-- 42_bit_stream.md R134: a second ALIGN directly after a successful one changes no state and has DELTA 0, and the
align of a unit that is byte-aligned does nothing. -/
def Obligations.AlignIsIdempotent : Prop :=
  (∀ s t : State, exec .rdAlign s = .next t → code t = 0 → exec .rdAlign t = .next { t with status := 0 }) ∧
  (∀ s t : State, exec .wrAlign s = .next t → code t = 0 → exec .wrAlign t = .next { t with status := 0 }) ∧
  (∀ c : RdCtx, c.unit.cnt = 0 → alignR c = c) ∧
  (∀ c : WrCtx, c.unit.cnt = 0 → alignW c = .done () c)

/-- 42_bit_stream.md R136(a): one bit b and then ALIGN is exactly one output byte, b·0x80. -/
def Obligations.OneBitThenAlignIsOneByte : Prop :=
  ∀ (s : State) (b : Bool) (snk : Sink), s.w = { acc := 0, cnt := 0, total := s.w.total, err := 0 } →
    s.dinV = true → s.din = (if b then 1 else 0) → s.w.total.toNat + 1 < 2 ^ 64 →
    s.sink.push (if b then 0x80 else 0x00) = (.ok, snk) →
    ∃ t u, exec (.wrUb 1) s = .next t ∧ t.sink = s.sink ∧ t.status = 0 ∧
      exec .wrAlign t = .next u ∧ u.sink = snk ∧ u.sink.taken = s.sink.taken ++ [if b then 0x80 else 0x00] ∧
      u.status = 0x100

/-! ### Byte-stream commands -/

/-- 41_byte_stream.md R100, R102, R104, R106. -/
def Obligations.UnsignedReads : Prop :=
  ReadRule .rdU8 0x42 1 (fun v => BitVec.ofNat 64 v) ∧ ReadRule .rdU16 0x44 2 (fun v => BitVec.ofNat 64 v) ∧
  ReadRule .rdU32 0x46 4 (fun v => BitVec.ofNat 64 v) ∧ ReadRule .rdU64 0x48 8 (fun v => BitVec.ofNat 64 v)

/-- 41_byte_stream.md R101, R103, R105, R107. -/
def Obligations.SignedReads : Prop :=
  ReadRule .rdS8 0x43 1 (fun v => (BitVec.ofNat 8 v).signExtend 64) ∧
  ReadRule .rdS16 0x45 2 (fun v => (BitVec.ofNat 16 v).signExtend 64) ∧
  ReadRule .rdS32 0x47 4 (fun v => (BitVec.ofNat 32 v).signExtend 64) ∧
  ReadRule .rdS64 0x49 8 (fun v => (BitVec.ofNat 64 v).signExtend 64)

/-- 41_byte_stream.md R108, R109: the pattern is moved unchanged. -/
def Obligations.FloatReads : Prop :=
  ReadRule .rdF32 0x4A 4 (fun v => (BitVec.ofNat 32 v).setWidth 64) ∧
  ReadRule .rdF64 0x4B 8 (fun v => BitVec.ofNat 64 v)

/-- 41_byte_stream.md R110 to R117. -/
def Obligations.IntegerWrites : Prop :=
  WriteRule .wrU8 0x82 1 ∧ WriteRule .wrS8 0x83 1 ∧ WriteRule .wrU16 0x84 2 ∧ WriteRule .wrS16 0x85 2 ∧
  WriteRule .wrU32 0x86 4 ∧ WriteRule .wrS32 0x87 4 ∧ WriteRule .wrU64 0x88 8 ∧ WriteRule .wrS64 0x89 8

/-- 41_byte_stream.md R118, R119: the pattern is moved unchanged. -/
def Obligations.FloatWrites : Prop :=
  WriteRule .wrF32 0x8A 4 ∧ WriteRule .wrF64 0x8B 8

/-- 41_byte_stream.md R120: for each fixed-width type, what WR.T writes is what RD.T on a Reader at a byte boundary
reads back, zero- or sign-extended from the low bits of DIN, and it consumes exactly the bytes written. -/
def Obligations.ByteRoundTrip : Prop :=
  ∀ p ∈ [(Instr.wrU8, Instr.rdU8, 1, false), (.wrS8, .rdS8, 1, true), (.wrU16, .rdU16, 2, false),
      (.wrS16, .rdS16, 2, true), (.wrU32, .rdU32, 4, false), (.wrS32, .rdS32, 4, true), (.wrU64, .rdU64, 8, false),
      (.wrS64, .rdS64, 8, true), (.wrF32, .rdF32, 4, false), (.wrF64, .rdF64, 8, false)],
    ∀ (s t u : State) (src : Source), s.w.cnt = 0 → exec p.1 s = .next t → code t = 0 →
      u.r.err = 0 → u.r.cnt = 0 → u.r.total.toNat + p.2.2.1 < 2 ^ 64 →
      u.source.takeBytes p.2.2.1 = some (t.sink.taken.drop s.sink.taken.length, src) →
      ∃ v, exec p.2.1 u = .next v ∧ code v = 0 ∧ delta v = p.2.2.1 ∧ v.source = src ∧
        v.dout = (if p.2.2.2 then BitVec.ofInt 64 ((s.din.setWidth (8 * p.2.2.1)).toInt)
          else BitVec.ofNat 64 (s.din.toNat % 2 ^ (8 * p.2.2.1)))

/-! ### Packed fields -/

/-- 43_packed_numeric.md R141, R144, R147: W bits from the current position, zero-extended, sign-extended, or as
16.16 in binary64, which is exact and never -0. -/
def Obligations.FieldReads : Prop :=
  FieldReadRule .rdUb 0x50 (fun _ v => BitVec.ofNat 64 v) ∧
  FieldReadRule .rdSb 0x51 (fun w v => BitVec.ofInt 64 (BitVec.ofNat w v).toInt) ∧
  FieldReadRule .rdFb 0x52 (fun w v => bits64 (BitVec.ofNat w v).toInt 16) ∧
  ∀ (w v : Nat), w ≤ 32 →
    f64Finite (bits64 (BitVec.ofNat w v).toInt 16) = true ∧
    f64Value (bits64 (BitVec.ofNat w v).toInt 16) = (BitVec.ofNat w v).toInt / 65536 ∧
    ((BitVec.ofNat w v).toInt = 0 → bits64 (BitVec.ofNat w v).toInt 16 = 0)

/-- 42_bit_stream.md R136(b): a width read that starts at R.CNT = c < W delivers the c pending bits, then the
leading W - c bits of the next bytes. -/
def Obligations.FieldSpansBytes : Prop :=
  ∀ (w : Nat) (s : State) (bs : List Byte) (src : Source), w ≤ 32 → s.r.cnt.toNat < w → s.r.err = 0 →
    s.source.takeBytes ((w - s.r.cnt.toNat + 7) / 8) = some (bs, src) → s.r.total.toNat + bs.length < 2 ^ 64 →
    ∃ t, exec (.rdUb w) s = .next t ∧
      t.dout.toNat = s.r.byte.toNat % 2 ^ s.r.cnt.toNat * 2 ^ (w - s.r.cnt.toNat) +
        beValue bs / 2 ^ (8 * bs.length - (w - s.r.cnt.toNat))

/-- 43_packed_numeric.md R142, R145, R148: the checks in their order, then exactly W bits, never truncated to fit. -/
def Obligations.FieldWrites : Prop :=
  FieldWriteRule .wrUb 0x90 (fun w x info => 2 ^ w ≤ x.toNat ∧ info = 2) (fun _ x => x.toNat) ∧
  FieldWriteRule .wrSb 0x91 (fun w x info => ¬ FitsSigned x.toInt w ∧ info = 2)
    (fun w x => (x.toInt % 2 ^ w).toNat) ∧
  FieldWriteRule .wrFb 0x92 (fun w x info => fixedRejects 16 w x info)
    (fun w x => (trunc0 (f64Value x * 2 ^ 16) % 2 ^ w).toNat)

/-- 43_packed_numeric.md R143, R146, R149, 44_variable_width.md R173: the size is the least that holds the value. -/
def Obligations.SizeCommands : Prop :=
  SizeRule .szUb 0x10 (fun x info => 2 ^ 32 ≤ x.toNat ∧ info = 2)
    (fun x n => IsLeast (fun m => 1 ≤ m ∧ x.toNat < 2 ^ m) n) ∧
  SizeRule .szSb 0x11 (fun x info => ¬ FitsSigned x.toInt 32 ∧ info = 2)
    (fun x n => IsLeast (fun m => 1 ≤ m ∧ FitsSigned x.toInt m) n) ∧
  SizeRule .szFb 0x12 (fixedRejects 16 32)
    (fun x n => IsLeast (fun m => 1 ≤ m ∧ FitsSigned (trunc0 (f64Value x * 2 ^ 16)) m) n) ∧
  SizeRule .szVu32 0x0C (fun x info => 2 ^ 32 ≤ x.toNat ∧ info = 2)
    (fun x n => IsLeast (fun m => 1 ≤ m ∧ x.toNat < 128 ^ m) n)

/-- 43_packed_numeric.md R151: the size a size command accepts a value with is the smallest width among 1 to 32 at
which the matching write command accepts it. -/
def Obligations.SizesAreMinimal : Prop :=
  ∀ p ∈ [(Instr.szUb, Instr.wrUb), (.szSb, .wrSb), (.szFb, .wrFb)],
    ∀ s t : State, exec p.1 s = .next t → code t = 0 → s.w.err = 0 →
      1 ≤ t.dout.toNat ∧ t.dout.toNat ≤ 32 ∧
      ∀ w, 1 ≤ w → w ≤ 32 → (exec (p.2 w) s = .next (rejected s 4 2) ↔ w < t.dout.toNat)

/-- 43_packed_numeric.md R150: a field written at any bit position, flushed, and read back from the same position
of those bytes is the value written (FB: truncated to 16.16, and unchanged exactly when it is a multiple of 2^-16);
each pair moves exactly W bits. -/
def Obligations.FieldRoundTrip : Prop :=
  ∀ (w : Nat) (s t u a : State) (src : Source), AccFits s → w ≤ 32 →
    a.r.err = 0 → a.r.cnt = 0 → a.r.total.toNat + 9 < 2 ^ 64 →
    (exec (.wrUb w) s = .next t ∨ exec (.wrSb w) s = .next t ∨ exec (.wrFb w) s = .next t) → code t = 0 →
    exec .wrAlign t = .next u → code u = 0 →
    a.source.takeBytes ((s.w.cnt.toNat + w + 7) / 8) = some (u.sink.taken.drop s.sink.taken.length, src) →
    t.w.cnt.toNat = (s.w.cnt.toNat + w) % 8 ∧
    ∃ b, exec (.rdUb s.w.cnt.toNat) a = .next b ∧ code b = 0 ∧ b.dout.toNat = s.w.acc.toNat ∧
      (exec (.wrUb w) s = .next t → ∃ d, exec (.rdUb w) b = .next d ∧ code d = 0 ∧ d.dout = s.din ∧
        d.source = src ∧ d.r.cnt.toNat = (8 - (s.w.cnt.toNat + w) % 8) % 8) ∧
      (exec (.wrSb w) s = .next t → ∃ d, exec (.rdSb w) b = .next d ∧ code d = 0 ∧ d.dout = s.din ∧
        d.source = src ∧ d.r.cnt.toNat = (8 - (s.w.cnt.toNat + w) % 8) % 8) ∧
      (exec (.wrFb w) s = .next t → ∃ d, exec (.rdFb w) b = .next d ∧ code d = 0 ∧
        d.dout = bits64 (trunc0 (f64Value s.din * 2 ^ 16)) 16 ∧
        d.source = src ∧ d.r.cnt.toNat = (8 - (s.w.cnt.toNat + w) % 8) % 8 ∧
        f64Value d.dout = trunc0 (f64Value s.din * 2 ^ 16) / 65536 ∧
        (f64Value d.dout = f64Value s.din ↔ ∃ z : ℤ, f64Value s.din * 2 ^ 16 = z))

/-! ### EncodedU32 -/

/-- 44_variable_width.md R171: bytes with the continuation bit and then one without it, at most five, the fifth at
most 15; the malformed fifth byte; the stream errors. -/
def Obligations.VarintRead : Prop :=
  encode .rdVu32 = 0x4C ∧
  ∀ s : State, s.r.err = 0 →
    ∀ as : List Byte, (∀ a ∈ as, 128 ≤ a.toNat) → as.length ≤ 4 →
      (∀ b src, b.toNat < 128 → (as.length = 4 → b.toNat ≤ 15) →
        s.source.takeBytes (as.length + 1) = some (as ++ [b], src) → s.r.total.toNat + (as.length + 1) < 2 ^ 64 →
        exec .rdVu32 s = .next (readDone s (as ++ [b]) 0 src (BitVec.ofNat 64 (varintValue (as ++ [b]))))) ∧
      (∀ b src, as.length = 4 → 15 < b.toNat →
        s.source.takeBytes (as.length + 1) = some (as ++ [b], src) → s.r.total.toNat + (as.length + 1) < 2 ^ 64 →
        exec .rdVu32 s = .next (readStopped s (as ++ [b]) src .malformedVarint)) ∧
      (∀ a src, StopsAfter s as a src → s.r.total.toNat + as.length < 2 ^ 64 →
        exec .rdVu32 s = .next (readStopped s as src (stopVerdict a as.length)))

/-- 44_variable_width.md R172: the check, then the minimal encoding after the padded pending bits. -/
def Obligations.VarintWrite : Prop :=
  encode .wrVu32 = 0x8C ∧
  ∀ s : State, s.w.err = 0 →
    (s.dinV = false → exec .wrVu32 s = .fault .dinUnwritten) ∧
    (s.dinV = true → 2 ^ 32 ≤ s.din.toNat → exec .wrVu32 s = .next (rejected s 4 2)) ∧
    (s.dinV = true → s.din.toNat < 2 ^ 32 → Sends .wrVu32 s (padding s.w ++ varintBytes s.din.toNat))

/-- 44_variable_width.md R189: what WR.VU32 writes at a byte boundary is VarintSize(v) bytes and RD.VU32 reads v back
with the same DELTA; RD.VU32 rejects exactly the byte strings whose fifth byte is reached and is greater than 15. -/
def Obligations.VarintRoundTrip : Prop :=
  (∀ (s t u : State) (src : Source) (n : Nat), s.w.cnt = 0 → exec .wrVu32 s = .next t → code t = 0 →
    IsLeast (fun m => 1 ≤ m ∧ s.din.toNat < 128 ^ m) n →
    (t.sink.taken.drop s.sink.taken.length).length = n ∧ delta t = n ∧
    (u.r.err = 0 → u.r.total.toNat + 9 < 2 ^ 64 →
      u.source.takeBytes n = some (t.sink.taken.drop s.sink.taken.length, src) →
      ∃ v, exec .rdVu32 u = .next v ∧ code v = 0 ∧ v.dout = s.din ∧ delta v = delta t ∧ v.source = src)) ∧
  (∀ u v : State, u.r.err = 0 → exec .rdVu32 u = .next v →
    (code v = 3 ↔ ∃ (as : List Byte) (b : Byte) (src : Source), as.length = 4 ∧ (∀ a ∈ as, 128 ≤ a.toNat) ∧
      15 < b.toNat ∧ u.source.takeBytes 5 = some (as ++ [b], src)))

/-! ### Float16 -/

/-- 44_variable_width.md R176 with R175: every Float16 word that is no NaN becomes the binary32 pattern of exactly its
value, the sign of zero and the infinities included; a NaN becomes some binary32 NaN; the stream errors. -/
def Obligations.HalfRead : Prop :=
  encode .rdF16 = 0x4D ∧
  ∀ s : State, s.r.err = 0 →
    (∀ bs src, s.source.takeBytes 2 = some (bs, src) → s.r.total.toNat + 2 < 2 ^ 64 →
      ∃ x : BitVec 32, ∃ n : Nat,
        exec .rdF16 s = .next { readDone s bs 0 src (x.setWidth 64) with nanDec := n } ∧
        (f16Exp (leValue bs) ≠ 31 → f32Exp x ≠ 255 ∧ f32Value x = halfValue (leValue bs) ∧
          f32Sign x = f16Sign (leValue bs)) ∧
        (f16Exp (leValue bs) = 31 → f16Frac (leValue bs) = 0 →
          x = if f16Sign (leValue bs) then 0xFF800000 else 0x7F800000) ∧
        (f16Exp (leValue bs) = 31 → f16Frac (leValue bs) ≠ 0 → IsNan32 x)) ∧
    (∀ bs a src, bs.length < 2 → StopsAfter s bs a src → s.r.total.toNat + bs.length < 2 ^ 64 →
      exec .rdF16 s = .next (readStopped s bs src (stopVerdict a bs.length)))

/-- 44_variable_width.md R180, R181: the encoder's magnitude is the one rounding the rules give, on the exact value,
under either tie rule. -/
def Obligations.HalfEncodingIsOneRounding : Prop :=
  ∀ (ties : F16Ties) (x : BitVec 32), f32Exp x ≠ 255 → f32Mag x ≠ 0 →
    (real2HalfMag ties (f32Mag x) : ℤ) = realToHalfMag ties |f32Value x| ∧
    real2Half ties x = (if f32Sign x then 0x8000 else 0) + real2HalfMag ties (f32Mag x)

/-- 44_variable_width.md R182 with R180: WR.F16 sends the encoded word after the padded pending bits: the signed zero
of a zero, the signed infinity of an infinity, the rounded word otherwise, and some NaN word for a NaN. -/
def Obligations.HalfWrite : Prop :=
  encode .wrF16 = 0x8D ∧
  ∀ s : State, s.w.err = 0 →
    (s.dinV = false → exec .wrF16 s = .fault .dinUnwritten) ∧
    (s.dinV = true → ∀ x : BitVec 32, x = BitVec.ofNat 32 s.din.toNat →
      (f32Exp x ≠ 255 → f32Mag x = 0 →
        Sends .wrF16 s (padding s.w ++ leBytes 2 (if f32Sign x then 0x8000 else 0))) ∧
      (f32Exp x ≠ 255 → f32Mag x ≠ 0 →
        Sends .wrF16 s (padding s.w ++ leBytes 2 (real2Half Config.f16Ties x))) ∧
      (f32Exp x = 255 → f32Frac x = 0 →
        Sends .wrF16 s (padding s.w ++ leBytes 2 (if f32Sign x then 0xFC00 else 0x7C00))) ∧
      (IsNan32 x → ∃ h : BitVec 16, IsNan16 h ∧
        (∀ snk, s.sink.takes (padding s.w ++ leBytes 2 h.toNat) = some snk →
          s.w.total.toNat + (padding s.w).length + 2 < 2 ^ 64 →
          ∃ n, exec .wrF16 s =
            .next { writeDone s (padding s.w ++ leBytes 2 h.toNat) 0 0 snk with nanEnc := n }) ∧
        (∀ as b cs t snk, padding s.w ++ leBytes 2 h.toNat = as ++ b :: cs → s.sink.takes as = some t →
          t.push b = (.fail, snk) → s.w.total.toNat + as.length < 2 ^ 64 →
          ∃ n, exec .wrF16 s = .next { writeFailed s as snk with nanEnc := n })))

/-- 44_variable_width.md R190(a): every Float16 word that is no NaN comes back from its binary32 value, under either
tie rule. -/
def Obligations.HalfRoundTrip : Prop :=
  ∀ (ties : F16Ties) (h : BitVec 16), ¬ IsNan16 h →
    real2Half ties (BitVec.ofNat 32 (half2Bits32 h.toNat)) = h.toNat

/-! ### Fixed and Fixed8 -/

/-- 44_variable_width.md R185, R187: the wire integer over 2^16 or 2^8, exact in binary64, zero being +0.0. -/
def Obligations.FixedReads : Prop :=
  ReadRule .rdFx32 0x4E 4 (fun v => bits64 (BitVec.ofNat 32 v).toInt 16) ∧
  ReadRule .rdFx8 0x4F 2 (fun v => bits64 (BitVec.ofNat 16 v).toInt 8) ∧
  ∀ (r : ℤ) (k : Nat), -(2 : ℤ) ^ 31 ≤ r → r < 2 ^ 31 → (k = 16 ∨ k = 8) →
    f64Finite (bits64 r k) = true ∧ f64Value (bits64 r k) = r / 2 ^ k ∧ (r = 0 → bits64 r k = 0)

/-- 44_variable_width.md R186, R188 with R184: finiteness, then the range of the truncated value, then its bytes. -/
def Obligations.FixedWrites : Prop :=
  FixedWriteRule .wrFx32 0x8E 16 4 ∧ FixedWriteRule .wrFx8 0x8F 8 2

/-- 44_variable_width.md R190(b): a finite value in range comes back truncated toward zero, exactly when it is a
multiple of 2^-16 (Fixed) or 2^-8 (Fixed8). -/
def Obligations.FixedRoundTrip : Prop :=
  ∀ p ∈ [(Instr.wrFx32, Instr.rdFx32, 16, 4), (.wrFx8, .rdFx8, 8, 2)],
    ∀ (s t u : State) (src : Source), s.w.cnt = 0 → exec p.1 s = .next t → code t = 0 →
      u.r.err = 0 → u.r.total.toNat + p.2.2.2 < 2 ^ 64 →
      u.source.takeBytes p.2.2.2 = some (t.sink.taken.drop s.sink.taken.length, src) →
      ∃ v, exec p.2.1 u = .next v ∧ code v = 0 ∧ v.source = src ∧
        f64Value v.dout = trunc0 (f64Value s.din * 2 ^ p.2.2.1) / 2 ^ p.2.2.1 ∧
        ((∃ z : ℤ, f64Value s.din * 2 ^ p.2.2.1 = z) → f64Value v.dout = f64Value s.din)

/-! ### Draws -/

/-- 00_scope.md R9, R10, R19: no draw is used twice. Each pull, offer, NaN and cut uses the draw at its count and moves
the count past it, and no step turns a count back. A pull or an offer uses the draw where nothing settled stands before
it, and a command reaches its stream by pulls and offers alone. A command cut off by reset counts all that the whole
command would have drawn (assumption 27). The counts and the draws they index are the model's own form of the spec's
draws (assumptions 3, 4, 6, 7, 16). -/
def Obligations.DrawsAreNeverReused : Prop :=
  (∀ s t : State, step s = .next t →
    s.nanEnc ≤ t.nanEnc ∧ s.nanDec ≤ t.nanDec ∧ s.cuts ≤ t.cuts ∧ s.source.asked ≤ t.source.asked ∧
      s.sink.offered ≤ t.sink.offered) ∧
  (∀ src : Source, src.pull.2.asked = src.asked + 1 ∧
    (src.script = [] → src.beyond = none → src.pull.1 = Config.srcAnswer src.asked)) ∧
  (∀ (snk : Sink) (b : Byte), (snk.push b).2.offered = snk.offered + 1 ∧
    (snk.script = [] → snk.beyond = none → (snk.push b).1 = Config.sinkAnswer snk.offered)) ∧
  (∀ (i : Instr) (s t : State), exec i s = .next t →
    (∃ k, t.source = sourceAfter k s.source ∧ t.source.asked = s.source.asked + k) ∧
    ∃ k bs, t.sink = sinkAfter k bs s.sink ∧ t.sink.offered = s.sink.offered + k) ∧
  (∀ s t : State, exec .wrF16 s = .next t → IsNan32 (BitVec.ofNat 32 s.din.toNat) →
    (∃ bs, t.sink.taken = s.sink.taken ++ bs ∧
      bs <+: padding s.w ++ leBytes 2 (f16NanOf (Config.f16NanEnc s.nanEnc)) ∧
      (code t = 0 → bs = padding s.w ++ leBytes 2 (f16NanOf (Config.f16NanEnc s.nanEnc)))) ∧
    (t.sink.taken ≠ s.sink.taken → t.nanEnc = s.nanEnc + 1)) ∧
  (∀ s t : State, exec .rdF16 s = .next t → code t = 0 → IsNan32 (BitVec.ofNat 32 t.dout.toNat) →
    t.dout = BitVec.ofNat 64 (f32NanOf (Config.f16NanDec s.nanDec)) ∧ t.nanDec = s.nanDec + 1) ∧
  ∀ (c : Word) (s t : State) (rest : List HostEvent), s.host = .resetDuring c :: rest →
    commandWrite c { s with host := rest } = .next t →
    ∃ u, step s = .next u ∧ u.nanEnc = t.nanEnc ∧ u.nanDec = t.nanDec ∧ u.cuts = s.cuts + 1 ∧
      u.source = sourceAfter (min (Config.resetCut s.cuts) (t.source.asked - s.source.asked)) s.source ∧
      u.sink = sinkAfter (min (Config.resetCut s.cuts) (t.sink.offered - s.sink.offered))
        (t.sink.taken.drop s.sink.taken.length) s.sink

/-! ### The counters of every command -/

/-- 00_scope.md R6, 60_exceptions.md R207: for every command, `t` being what it does where both counters stand at 0: it
is CounterOverflow exactly where the bytes it moves do not fit its unit's counter, and else it does the same with those
bytes added to the counter (INIT clears its own). That the whole command stops is the model's reading (assumption 8). -/
def Obligations.EveryCommandCountsOrFaults : Prop :=
  ∀ (i : Instr) (s t : State), exec i (uncounted s) = .next t →
    (2 ^ 64 ≤ s.r.total.toNat + t.r.total.toNat ∨ 2 ^ 64 ≤ s.w.total.toNat + t.w.total.toNat →
      exec i s = .fault .counterOverflow) ∧
    (s.r.total.toNat + t.r.total.toNat < 2 ^ 64 → s.w.total.toNat + t.w.total.toNat < 2 ^ 64 →
      exec i s = .next { t with
        r := { t.r with total := if i = .rdInit then 0 else s.r.total + t.r.total }
        w := { t.w with total := if i = .wrInit then 0 else s.w.total + t.w.total } })

/-! ### INIT beside reset -/

/-- 70_reset_and_hazards.md R231: the body of INIT does to its unit what reset does, and touches nothing else: not DIN,
DOUT, STATUS, their validity bits, the other unit or a stream. The command then ends as every command does: Finish(OK, 0)
writes STATUS and nothing more (40_command_cycle.md R80). Reading R231 of the body, and STATUS as Finish's, is the
model's choice (assumption 26). -/
def Obligations.InitDoesToItsUnitWhatResetDoes : Prop :=
  ∀ (s : State) (rest : List HostEvent), s.host = .reset :: rest →
    ∃ t, step s = .next t ∧
      s.initReader = { s with r := t.r } ∧ exec .rdInit s = .next { s.initReader with status := 0 } ∧
      s.initWriter = { s with w := t.w } ∧ exec .wrInit s = .next { s.initWriter with status := 0 } ∧
      t.dinV = false ∧ t.doutV = false ∧ t.status = 0 ∧ t.source = s.source ∧ t.sink = s.sink
end

