-- ==== Sys2Proof/Laws/State.lean ====
section
/-! SUPPORT. One lemma per field per update of State, true by rfl, so that no later proof unfolds a record update. -/

namespace Sys2Proof.Machine

@[simp] theorem State.finish_r (s : State) (v : Verdict) (d : Nat) : (s.finish v d).r = s.r := rfl
@[simp] theorem State.finish_w (s : State) (v : Verdict) (d : Nat) : (s.finish v d).w = s.w := rfl
@[simp] theorem State.finish_din (s : State) (v : Verdict) (d : Nat) : (s.finish v d).din = s.din := rfl
@[simp] theorem State.finish_dinV (s : State) (v : Verdict) (d : Nat) : (s.finish v d).dinV = s.dinV := rfl
@[simp] theorem State.finish_dout (s : State) (v : Verdict) (d : Nat) : (s.finish v d).dout = s.dout := rfl
@[simp] theorem State.finish_doutV (s : State) (v : Verdict) (d : Nat) : (s.finish v d).doutV = (match v with | .ok => s.doutV | _ => false) := rfl
@[simp] theorem State.finish_status (s : State) (v : Verdict) (d : Nat) : (s.finish v d).status = statusWord v d := rfl
@[simp] theorem State.finish_source (s : State) (v : Verdict) (d : Nat) : (s.finish v d).source = s.source := rfl
@[simp] theorem State.finish_sink (s : State) (v : Verdict) (d : Nat) : (s.finish v d).sink = s.sink := rfl
@[simp] theorem State.finish_host (s : State) (v : Verdict) (d : Nat) : (s.finish v d).host = s.host := rfl
@[simp] theorem State.finish_readback (s : State) (v : Verdict) (d : Nat) : (s.finish v d).readback = s.readback := rfl
@[simp] theorem State.finish_nanEnc (s : State) (v : Verdict) (d : Nat) : (s.finish v d).nanEnc = s.nanEnc := rfl
@[simp] theorem State.finish_nanDec (s : State) (v : Verdict) (d : Nat) : (s.finish v d).nanDec = s.nanDec := rfl
@[simp] theorem State.finish_cuts (s : State) (v : Verdict) (d : Nat) : (s.finish v d).cuts = s.cuts := rfl

@[simp] theorem State.setDout_r (s : State) (x : Word) : (s.setDout x).r = s.r := rfl
@[simp] theorem State.setDout_w (s : State) (x : Word) : (s.setDout x).w = s.w := rfl
@[simp] theorem State.setDout_din (s : State) (x : Word) : (s.setDout x).din = s.din := rfl
@[simp] theorem State.setDout_dinV (s : State) (x : Word) : (s.setDout x).dinV = s.dinV := rfl
@[simp] theorem State.setDout_dout (s : State) (x : Word) : (s.setDout x).dout = x := rfl
@[simp] theorem State.setDout_doutV (s : State) (x : Word) : (s.setDout x).doutV = true := rfl
@[simp] theorem State.setDout_status (s : State) (x : Word) : (s.setDout x).status = s.status := rfl
@[simp] theorem State.setDout_source (s : State) (x : Word) : (s.setDout x).source = s.source := rfl
@[simp] theorem State.setDout_sink (s : State) (x : Word) : (s.setDout x).sink = s.sink := rfl
@[simp] theorem State.setDout_host (s : State) (x : Word) : (s.setDout x).host = s.host := rfl
@[simp] theorem State.setDout_readback (s : State) (x : Word) : (s.setDout x).readback = s.readback := rfl
@[simp] theorem State.setDout_nanEnc (s : State) (x : Word) : (s.setDout x).nanEnc = s.nanEnc := rfl
@[simp] theorem State.setDout_nanDec (s : State) (x : Word) : (s.setDout x).nanDec = s.nanDec := rfl
@[simp] theorem State.setDout_cuts (s : State) (x : Word) : (s.setDout x).cuts = s.cuts := rfl

@[simp] theorem State.initReader_r (s : State) : (s.initReader).r = Reader.start := rfl
@[simp] theorem State.initReader_w (s : State) : (s.initReader).w = s.w := rfl
@[simp] theorem State.initReader_din (s : State) : (s.initReader).din = s.din := rfl
@[simp] theorem State.initReader_dinV (s : State) : (s.initReader).dinV = s.dinV := rfl
@[simp] theorem State.initReader_dout (s : State) : (s.initReader).dout = s.dout := rfl
@[simp] theorem State.initReader_doutV (s : State) : (s.initReader).doutV = s.doutV := rfl
@[simp] theorem State.initReader_status (s : State) : (s.initReader).status = s.status := rfl
@[simp] theorem State.initReader_source (s : State) : (s.initReader).source = s.source := rfl
@[simp] theorem State.initReader_sink (s : State) : (s.initReader).sink = s.sink := rfl
@[simp] theorem State.initReader_host (s : State) : (s.initReader).host = s.host := rfl
@[simp] theorem State.initReader_readback (s : State) : (s.initReader).readback = s.readback := rfl
@[simp] theorem State.initReader_nanEnc (s : State) : (s.initReader).nanEnc = s.nanEnc := rfl
@[simp] theorem State.initReader_nanDec (s : State) : (s.initReader).nanDec = s.nanDec := rfl
@[simp] theorem State.initReader_cuts (s : State) : (s.initReader).cuts = s.cuts := rfl

@[simp] theorem State.initWriter_r (s : State) : (s.initWriter).r = s.r := rfl
@[simp] theorem State.initWriter_w (s : State) : (s.initWriter).w = Writer.start := rfl
@[simp] theorem State.initWriter_din (s : State) : (s.initWriter).din = s.din := rfl
@[simp] theorem State.initWriter_dinV (s : State) : (s.initWriter).dinV = s.dinV := rfl
@[simp] theorem State.initWriter_dout (s : State) : (s.initWriter).dout = s.dout := rfl
@[simp] theorem State.initWriter_doutV (s : State) : (s.initWriter).doutV = s.doutV := rfl
@[simp] theorem State.initWriter_status (s : State) : (s.initWriter).status = s.status := rfl
@[simp] theorem State.initWriter_source (s : State) : (s.initWriter).source = s.source := rfl
@[simp] theorem State.initWriter_sink (s : State) : (s.initWriter).sink = s.sink := rfl
@[simp] theorem State.initWriter_host (s : State) : (s.initWriter).host = s.host := rfl
@[simp] theorem State.initWriter_readback (s : State) : (s.initWriter).readback = s.readback := rfl
@[simp] theorem State.initWriter_nanEnc (s : State) : (s.initWriter).nanEnc = s.nanEnc := rfl
@[simp] theorem State.initWriter_nanDec (s : State) : (s.initWriter).nanDec = s.nanDec := rfl
@[simp] theorem State.initWriter_cuts (s : State) : (s.initWriter).cuts = s.cuts := rfl

@[simp] theorem State.resetBlock_r (s : State) : (s.resetBlock).r = Reader.start := rfl
@[simp] theorem State.resetBlock_w (s : State) : (s.resetBlock).w = Writer.start := rfl
@[simp] theorem State.resetBlock_din (s : State) : (s.resetBlock).din = 0 := rfl
@[simp] theorem State.resetBlock_dinV (s : State) : (s.resetBlock).dinV = false := rfl
@[simp] theorem State.resetBlock_dout (s : State) : (s.resetBlock).dout = 0 := rfl
@[simp] theorem State.resetBlock_doutV (s : State) : (s.resetBlock).doutV = false := rfl
@[simp] theorem State.resetBlock_status (s : State) : (s.resetBlock).status = 0 := rfl
@[simp] theorem State.resetBlock_source (s : State) : (s.resetBlock).source = s.source := rfl
@[simp] theorem State.resetBlock_sink (s : State) : (s.resetBlock).sink = s.sink := rfl
@[simp] theorem State.resetBlock_host (s : State) : (s.resetBlock).host = s.host := rfl
@[simp] theorem State.resetBlock_readback (s : State) : (s.resetBlock).readback = s.readback := rfl
@[simp] theorem State.resetBlock_nanEnc (s : State) : (s.resetBlock).nanEnc = s.nanEnc := rfl
@[simp] theorem State.resetBlock_nanDec (s : State) : (s.resetBlock).nanDec = s.nanDec := rfl
@[simp] theorem State.resetBlock_cuts (s : State) : (s.resetBlock).cuts = s.cuts := rfl

@[simp] theorem State.finish_ok_doutV (s : State) (d : Nat) : (s.finish .ok d).doutV = s.doutV := rfl

theorem State.finish_fail_doutV (s : State) {v : Verdict} (d : Nat) (h : v ≠ .ok) :
    (s.finish v d).doutV = false := by
  cases v <;> simp_all [State.finish]

@[simp] theorem State.rdStart_unit (s : State) : s.rdStart.unit = s.r := rfl
@[simp] theorem State.rdStart_source (s : State) : s.rdStart.source = s.source := rfl
@[simp] theorem State.rdStart_nanDraws (s : State) : s.rdStart.nanDraws = s.nanDec := rfl
@[simp] theorem State.rdStart_delta (s : State) : s.rdStart.delta = 0 := rfl
@[simp] theorem State.wrStart_unit (s : State) : s.wrStart.unit = s.w := rfl
@[simp] theorem State.wrStart_sink (s : State) : s.wrStart.sink = s.sink := rfl
@[simp] theorem State.wrStart_nanDraws (s : State) : s.wrStart.nanDraws = s.nanEnc := rfl
@[simp] theorem State.wrStart_delta (s : State) : s.wrStart.delta = 0 := rfl

@[simp] theorem alignR_unit (c : RdCtx) : (alignR c).unit = { c.unit with cnt := 0 } := rfl
@[simp] theorem alignR_source (c : RdCtx) : (alignR c).source = c.source := rfl
@[simp] theorem alignR_nanDraws (c : RdCtx) : (alignR c).nanDraws = c.nanDraws := rfl
@[simp] theorem alignR_delta (c : RdCtx) : (alignR c).delta = c.delta := rfl

@[simp] theorem Res.ctx_done {σ α : Type} (a : α) (c : σ) : (Res.done a c).ctx = c := rfl
@[simp] theorem Res.ctx_raised {σ α : Type} (v : Verdict) (c : σ) : (Res.raised v c : Res σ α).ctx = c := rfl
@[simp] theorem Res.andThen_done {σ α β : Type} (a : α) (c : σ) (f : α → σ → Res σ β) :
    (Res.done a c).andThen f = f a c := rfl
@[simp] theorem Res.andThen_raised {σ α β : Type} (v : Verdict) (c : σ) (f : α → σ → Res σ β) :
    (Res.raised v c).andThen f = .raised v c := rfl
@[simp] theorem Res.map_done {σ α β : Type} (f : α → β) (a : α) (c : σ) :
    (Res.done a c).map f = .done (f a) c := rfl
@[simp] theorem Res.map_raised {σ α β : Type} (f : α → β) (v : Verdict) (c : σ) :
    (Res.raised v c : Res σ α).map f = .raised v c := rfl
@[simp] theorem Res.ctx_map {σ α β : Type} (f : α → β) (x : Res σ α) : (x.map f).ctx = x.ctx := by
  cases x <;> rfl

@[simp] theorem firstFailure_none (b : Option Verdict) : firstFailure none b = b := rfl
@[simp] theorem firstFailure_some (v : Verdict) (b : Option Verdict) : firstFailure (some v) b = some v := rfl

end Sys2Proof.Machine
end

