-- ==== Sys2Proof/Laws/Streams.lean ====
section
/-! SUPPORT. What the streams and the Reader's primitives can do, said once: the counters follow the answers
(20_memory.md R59), and each primitive in terms of the bytes the source is about to deliver. -/

namespace Sys2Proof.Machine

/-! ### The source -/

theorem Source.takeBytes_succ (n : Nat) (src : Source) :
    src.takeBytes (n + 1) =
      match src.pull with
      | (.byte b, src') => (src'.takeBytes n).map fun p => (b :: p.1, p.2)
      | (.endOfData, _) => none
      | (.fail, _) => none := rfl

theorem Source.takeBytes_length {n : Nat} {src src' : Source} {bs : List Byte}
    (h : src.takeBytes n = some (bs, src')) : bs.length = n := by
  induction n generalizing src bs with
  | zero => simp [Source.takeBytes] at h; simp [h]
  | succ n ih =>
    rw [takeBytes_succ] at h
    split at h
    · simp only [Option.map_eq_some_iff, Prod.exists, Prod.mk.injEq] at h
      obtain ⟨as, t, ht, rfl, rfl⟩ := h
      simp [ih ht]
    all_goals simp at h

/-- Taking `n + 1` bytes is taking `n` and then one more. -/
theorem Source.takeBytes_snoc {n : Nat} {src src' : Source} {bs : List Byte} :
    src.takeBytes (n + 1) = some (bs, src') ↔
      ∃ as t b, src.takeBytes n = some (as, t) ∧ t.pull = (.byte b, src') ∧ bs = as ++ [b] := by
  induction n generalizing src bs with
  | zero =>
    rw [takeBytes_succ]
    constructor
    · intro h
      split at h
      · rename_i b t ht
        simp [Source.takeBytes] at h
        exact ⟨[], src, b, rfl, by rw [ht, h.2], by simp [← h.1]⟩
      all_goals simp at h
    · rintro ⟨as, t, b, h1, h2, rfl⟩
      simp [Source.takeBytes] at h1
      obtain ⟨rfl, rfl⟩ := h1
      simp [h2, Source.takeBytes]
  | succ n ih =>
    rw [takeBytes_succ]
    constructor
    · intro h
      split at h
      · rename_i a t ht
        simp only [Option.map_eq_some_iff, Prod.exists, Prod.mk.injEq] at h
        obtain ⟨cs, u, hcs, rfl, rfl⟩ := h
        obtain ⟨as, t', b, h1, h2, rfl⟩ := ih.1 hcs
        exact ⟨a :: as, t', b, by rw [takeBytes_succ, ht]; simp [h1], h2, rfl⟩
      all_goals simp at h
    · rintro ⟨as, t, b, h1, h2, rfl⟩
      rw [takeBytes_succ] at h1
      split at h1
      · rename_i a u hu
        simp only [Option.map_eq_some_iff, Prod.exists, Prod.mk.injEq] at h1
        obtain ⟨cs, v, hcs, rfl, rfl⟩ := h1
        simp [ih.2 ⟨cs, v, b, hcs, h2, rfl⟩]
      all_goals simp at h1

/-- Either the source delivers `n` bytes, or it stops after fewer. -/
theorem Source.takeBytes_or_stops (n : Nat) (src : Source) :
    (∃ bs src', src.takeBytes n = some (bs, src')) ∨
      ∃ j, j < n ∧ ∃ bs t a t', src.takeBytes j = some (bs, t) ∧ t.pull = (a, t') ∧ ∀ b, a ≠ .byte b := by
  induction n with
  | zero => exact .inl ⟨[], src, rfl⟩
  | succ n ih =>
    rcases ih with ⟨bs, t, h⟩ | ⟨j, hj, rest⟩
    · rcases ht : t.pull with ⟨a, t'⟩
      cases a with
      | byte b => exact .inl ⟨bs ++ [b], t', takeBytes_snoc.2 ⟨bs, t, b, h, ht, rfl⟩⟩
      | endOfData => exact .inr ⟨n, by omega, bs, t, _, t', h, ht, by simp⟩
      | fail => exact .inr ⟨n, by omega, bs, t, _, t', h, ht, by simp⟩
    · exact .inr ⟨j, by omega, rest⟩

/-- The source records exactly what it delivers. -/
theorem Source.takeBytes_pulled {n : Nat} {src src' : Source} {bs : List Byte}
    (h : src.takeBytes n = some (bs, src')) : src'.pulled = src.pulled ++ bs := by
  induction n generalizing bs src' with
  | zero => simp [Source.takeBytes] at h; simp [← h.1, ← h.2]
  | succ n ih =>
    obtain ⟨as, t, b, h1, h2, rfl⟩ := takeBytes_snoc.1 h
    have h3 := ih h1
    simp only [Source.pull, Prod.mk.injEq] at h2
    obtain ⟨h4, rfl⟩ := h2
    simp [h4, h3, deliveredBy]

theorem Source.pull_stop_pulled {src src' : Source} {a : SrcAnswer}
    (h : src.pull = (a, src')) (ha : ∀ b, a ≠ .byte b) : src'.pulled = src.pulled := by
  simp only [Source.pull, Prod.mk.injEq] at h
  obtain ⟨h1, rfl⟩ := h
  simp only [h1]
  cases a <;> simp_all [deliveredBy]

/-! ### Numbers -/

@[simp] theorem beValue_nil : beValue [] = 0 := rfl

@[simp] theorem beValue_snoc (bs : List Byte) (b : Byte) : beValue (bs ++ [b]) = 256 * beValue bs + b.toNat := by
  simp [beValue]

@[simp] theorem lastByte_nil (old : Byte) : lastByte old [] = old := rfl

@[simp] theorem lastByte_snoc (old : Byte) (bs : List Byte) (b : Byte) : lastByte old (bs ++ [b]) = b := by
  simp [lastByte]

theorem lastByte_append (old : Byte) (as bs : List Byte) :
    lastByte (lastByte old as) bs = lastByte old (as ++ bs) := by
  rcases List.eq_nil_or_concat bs with rfl | ⟨cs, b, rfl⟩
  · simp
  · rw [List.concat_eq_append, lastByte_snoc, ← List.append_assoc, lastByte_snoc]

@[simp] theorem lastByte_singleton (old b : Byte) : lastByte old [b] = b := rfl

theorem leValue_snoc (bs : List Byte) (b : Byte) :
    leValue (bs ++ [b]) = leValue bs + b.toNat * 2 ^ (8 * bs.length) := by
  induction bs with
  | nil => simp [leValue]
  | cons a bs ih =>
    simp only [List.cons_append, leValue, ih, List.length_cons]
    rw [show 8 * (bs.length + 1) = 8 * bs.length + 8 by ring, pow_add]
    ring

/-! ### The Reader's primitives -/

/-- A context in which the Reader has pulled `bs` and has `left` unread bits. -/
def RdCtx.pulling (c : RdCtx) (bs : List Byte) (left : Nat) (src : Source) : RdCtx :=
  { c with
    unit := { c.unit with
              byte := lastByte c.unit.byte bs
              cnt := BitVec.ofNat 3 left
              total := c.unit.total + BitVec.ofNat 64 bs.length }
    source := src
    delta := c.delta + bs.length }

theorem bytesNeeded_succ (w : Nat) (cnt : BitVec 3) :
    bytesNeeded (w + 1) cnt = if bitsLeft w cnt = 0 then bytesNeeded w cnt + 1 else bytesNeeded w cnt := by
  have := cnt.isLt
  by_cases h : bitsLeft w cnt = 0
  · rw [if_pos h]
    simp only [bitsLeft, bytesNeeded] at *
    omega
  · rw [if_neg h]
    simp only [bitsLeft, bytesNeeded] at *
    omega

theorem bitsLeft_succ (w : Nat) (cnt : BitVec 3) :
    bitsLeft (w + 1) cnt = if bitsLeft w cnt = 0 then 7 else bitsLeft w cnt - 1 := by
  have := cnt.isLt
  by_cases h : bitsLeft w cnt = 0
  · rw [if_pos h]
    simp only [bitsLeft, bytesNeeded] at *
    omega
  · rw [if_neg h]
    simp only [bitsLeft, bytesNeeded] at *
    omega

theorem bitsLeft_lt (w : Nat) (cnt : BitVec 3) : bitsLeft w cnt < 8 := by
  have := cnt.isLt
  simp only [bitsLeft, bytesNeeded]
  omega

theorem ofNat3_eq_zero {n : Nat} (h : n < 8) : (BitVec.ofNat 3 n = 0) ↔ n = 0 := by
  interval_cases n <;> simp

theorem getLsbD_toNat (b : Byte) (i : Nat) : (b.getLsbD i).toNat = b.toNat / 2 ^ i % 2 := by
  rw [BitVec.getLsbD, Nat.testBit_eq_decide_div_mod_eq]
  have : b.toNat / 2 ^ i % 2 < 2 := Nat.mod_lt _ (by decide)
  by_cases h : b.toNat / 2 ^ i % 2 = 1
  · simp [h]
  · have : b.toNat / 2 ^ i % 2 = 0 := by omega
    simp [this]

/-- `ReadBit` on a pulled byte. -/
theorem readBit_pull {c : RdCtx} {b : Byte} {src : Source} (h0 : c.unit.cnt = 0)
    (hp : c.source.pull = (.byte b, src)) :
    readBit c = .done (b.getLsbD 7) (c.pulling [b] 7 src) := by
  simp only [readBit, h0, if_true, hp]
  rfl

/-- `ReadBit` on an answer that is no byte. -/
theorem readBit_stop {c : RdCtx} {a : SrcAnswer} {src : Source} (h0 : c.unit.cnt = 0)
    (hp : c.source.pull = (a, src)) (ha : ∀ b, a ≠ .byte b) :
    readBit c = .raised (stopVerdict a c.delta) { c with source := src } := by
  cases a with
  | byte b => exact absurd rfl (ha b)
  | endOfData => simp [readBit, h0, hp, stopVerdict]
  | fail => simp [readBit, h0, hp, stopVerdict]

/-- `ReadBit` on a pending bit. -/
theorem readBit_pending {c : RdCtx} (h0 : c.unit.cnt ≠ 0) :
    readBit c = .done (c.unit.byte.getLsbD (c.unit.cnt - 1).toNat)
      { c with unit := { c.unit with cnt := c.unit.cnt - 1 } } := by
  rw [readBit, if_neg h0]

/-- `fieldValue` grows by one bit: the next bit of the stream. -/
theorem fieldValue_succ_pull {w : Nat} {r : Reader} {bs : List Byte} {b : Byte}
    (h0 : bitsLeft w r.cnt = 0) :
    fieldValue (w + 1) r (bs ++ [b]) = 2 * fieldValue w r bs + b.toNat / 2 ^ 7 % 2 := by
  have hb := b.isLt
  simp only [fieldValue, bytesNeeded_succ, bitsLeft_succ, h0, if_true, beValue_snoc, pow_zero, Nat.div_one, pow_succ]
  rw [show r.byte.toNat % 2 ^ r.cnt.toNat * (256 ^ bytesNeeded w r.cnt * 256) =
    256 * (r.byte.toNat % 2 ^ r.cnt.toNat * 256 ^ bytesNeeded w r.cnt) by ring]
  generalize r.byte.toNat % 2 ^ r.cnt.toNat * 256 ^ bytesNeeded w r.cnt = x
  omega

theorem lastByte_beValue (old : Byte) (bs : List Byte) (h : bs ≠ []) :
    (lastByte old bs).toNat = beValue bs % 256 := by
  rcases List.eq_nil_or_concat bs with rfl | ⟨as, b, rfl⟩
  · exact absurd rfl h
  · have := b.isLt
    simp
    omega

/-- The next bit of the stream, when some bits of R.BYTE are unread. -/
theorem fieldValue_succ_pending {w : Nat} {r : Reader} {bs : List Byte} (hl : bs.length = bytesNeeded w r.cnt)
    (h0 : bitsLeft w r.cnt ≠ 0) :
    fieldValue (w + 1) r bs =
      2 * fieldValue w r bs + (lastByte r.byte bs).toNat / 2 ^ (bitsLeft w r.cnt - 1) % 2 := by
  simp only [fieldValue, bytesNeeded_succ, bitsLeft_succ, if_neg h0]
  obtain ⟨l, hlft⟩ : ∃ l, bitsLeft w r.cnt = l + 1 := ⟨bitsLeft w r.cnt - 1, by omega⟩
  have hl8 := bitsLeft_lt w r.cnt
  rw [hlft] at hl8 ⊢
  simp only [Nat.add_sub_cancel]
  have key : ∀ x y : Nat, x % 2 ^ (l + 1) = y % 2 ^ (l + 1) → x / 2 ^ l = 2 * (x / 2 ^ (l + 1)) + y / 2 ^ l % 2 := by
    intro x y hxy
    have hx : x / 2 ^ l % 2 = y / 2 ^ l % 2 := by
      have h1 : x % 2 ^ (l + 1) / 2 ^ l = x / 2 ^ l % 2 := by
        rw [pow_succ, Nat.mod_mul_right_div_self]
      have h2 : y % 2 ^ (l + 1) / 2 ^ l = y / 2 ^ l % 2 := by
        rw [pow_succ, Nat.mod_mul_right_div_self]
      rw [← h1, ← h2, hxy]
    rw [← hx, pow_succ, ← Nat.div_div_eq_div_mul]
    omega
  apply key
  have hdvd : ∀ m : Nat, m ≤ 8 → ∃ q, 256 = 2 ^ m * q := fun m hm => ⟨2 ^ (8 - m), by
    rw [← pow_add, show m + (8 - m) = 8 by omega]; norm_num⟩
  obtain ⟨q, hq⟩ := hdvd (l + 1) (by omega)
  rcases Nat.eq_zero_or_pos bs.length with hz | hpos
  · have hb : bs = [] := List.length_eq_zero_iff.1 hz
    subst hb
    have hn : bytesNeeded w r.cnt = 0 := by simpa using hl.symm
    have hle : l + 1 ≤ r.cnt.toNat := by
      have : bitsLeft w r.cnt = r.cnt.toNat - w := by simp [bitsLeft, hn]
      omega
    simp only [hn, pow_zero, Nat.mul_one, beValue_nil, Nat.add_zero, lastByte_nil]
    exact Nat.mod_mod_of_dvd _ (pow_dvd_pow 2 hle)
  · have hne : bs ≠ [] := by rintro rfl; simp at hpos
    rw [lastByte_beValue _ _ hne]
    obtain ⟨n, hn⟩ : ∃ n, bytesNeeded w r.cnt = n + 1 := ⟨bytesNeeded w r.cnt - 1, by omega⟩
    rw [hn, pow_succ]
    generalize r.byte.toNat % 2 ^ r.cnt.toNat = p
    have h256 : (2 ^ (l + 1) : Nat) ∣ 256 := ⟨q, hq⟩
    rw [Nat.mod_mod_of_dvd _ h256]
    have : (2 ^ (l + 1) : Nat) ∣ p * (256 ^ n * 256) := Dvd.dvd.mul_left (Dvd.dvd.mul_left h256 _) _
    rw [Nat.add_mod, Nat.mod_eq_zero_of_dvd this, Nat.zero_add, Nat.mod_mod]

/-- `ReadBits(w)` when the source delivers the bytes it needs: the next `w` bits of the stream, most significant
first (40_command_cycle.md R86, 20_memory.md R44). -/
theorem readBits_done {w : Nat} {c : RdCtx} {bs : List Byte} {src : Source}
    (h : c.source.takeBytes (bytesNeeded w c.unit.cnt) = some (bs, src)) :
    readBits w c = .done (fieldValue w c.unit bs) (c.pulling bs (bitsLeft w c.unit.cnt) src) := by
  induction w generalizing bs src with
  | zero =>
    have hc := c.unit.cnt.isLt
    have hn : bytesNeeded 0 c.unit.cnt = 0 := by simp only [bytesNeeded]; omega
    have hb : bitsLeft 0 c.unit.cnt = c.unit.cnt.toNat := by simp [bitsLeft, hn]
    rw [hn] at h
    simp only [Source.takeBytes, Option.some.injEq, Prod.mk.injEq] at h
    obtain ⟨rfl, rfl⟩ := h
    have hz : c.unit.byte.toNat % 2 ^ c.unit.cnt.toNat / 2 ^ c.unit.cnt.toNat = 0 :=
      Nat.div_eq_of_lt (Nat.mod_lt _ (by positivity))
    simp [readBits, fieldValue, hb, hn, RdCtx.pulling, hz]
  | succ w ih =>
    have hlt := bitsLeft_lt w c.unit.cnt
    by_cases h0 : bitsLeft w c.unit.cnt = 0
    · rw [bytesNeeded_succ, if_pos h0] at h
      obtain ⟨as, t, b, h1, h2, rfl⟩ := Source.takeBytes_snoc.1 h
      rw [readBits, ih h1, Res.andThen_done, readBit_pull (by simp [RdCtx.pulling, h0]) h2, Res.map_done,
        fieldValue_succ_pull h0, getLsbD_toNat, bitsLeft_succ, if_pos h0]
      congr 1
      simp [RdCtx.pulling, BitVec.ofNat_add, add_assoc]
    · rw [bytesNeeded_succ, if_neg h0] at h
      rw [readBits, ih h, Res.andThen_done,
        readBit_pending (by simpa [RdCtx.pulling] using fun hz => h0 ((ofNat3_eq_zero hlt).1 hz)), Res.map_done,
        fieldValue_succ_pending (Source.takeBytes_length h) h0, getLsbD_toNat, bitsLeft_succ, if_neg h0]
      have hs : BitVec.ofNat 3 (bitsLeft w c.unit.cnt) - 1 = BitVec.ofNat 3 (bitsLeft w c.unit.cnt - 1) := by
        generalize bitsLeft w c.unit.cnt = x at *
        interval_cases x <;> simp_all
      have hm : (bitsLeft w c.unit.cnt - 1) % 8 = bitsLeft w c.unit.cnt - 1 := Nat.mod_eq_of_lt (by omega)
      simp only [RdCtx.pulling, hs, BitVec.toNat_ofNat]
      norm_num [hm]

/-- `ReadBits(w)` when the source stops after `j` of the bytes it needs (40_command_cycle.md R85, R93, R96). -/
theorem readBits_stop {w j : Nat} {c : RdCtx} {bs : List Byte} {t src : Source} {a : SrcAnswer}
    (hj : j < bytesNeeded w c.unit.cnt) (h : c.source.takeBytes j = some (bs, t)) (hp : t.pull = (a, src))
    (ha : ∀ b, a ≠ .byte b) :
    readBits w c = .raised (stopVerdict a (c.delta + j)) (c.pulling bs 0 src) := by
  induction w with
  | zero =>
    have := c.unit.cnt.isLt
    simp only [bytesNeeded] at hj
    omega
  | succ w ih =>
    rw [readBits]
    by_cases hlt : j < bytesNeeded w c.unit.cnt
    · rw [ih hlt]; rfl
    · rw [bytesNeeded_succ] at hj
      have h0 : bitsLeft w c.unit.cnt = 0 := by
        by_contra h0
        rw [if_neg h0] at hj
        exact hlt hj
      rw [if_pos h0] at hj
      obtain rfl : j = bytesNeeded w c.unit.cnt := by omega
      have hl := Source.takeBytes_length h
      rw [readBits_done h, Res.andThen_done, readBit_stop (by simp [RdCtx.pulling, h0]) hp ha, Res.map_raised, h0]
      simp [RdCtx.pulling, hl]

end Sys2Proof.Machine
end

