-- ==== Sys2Proof/Laws/Reader.lean ====
section
/-! SUPPORT. The Reader's byte-level procedures in terms of the bytes the source is about to deliver: whole bytes
(40_command_cycle.md R87) and the EncodedU32 loop (44_variable_width.md R171). -/

namespace Sys2Proof.Machine

theorem RdCtx.pulling_nil {c : RdCtx} (h0 : c.unit.cnt = 0) : c.pulling [] 0 c.source = c := by
  rcases c with ⟨⟨b, k, t, e⟩, s, n, d⟩
  simp only at h0
  subst h0
  simp [RdCtx.pulling]

theorem RdCtx.pulling_pulling (c : RdCtx) (as bs : List Byte) (l l' : Nat) (t u : Source) :
    (c.pulling as l t).pulling bs l' u = c.pulling (as ++ bs) l' u := by
  simp [RdCtx.pulling, lastByte_append, BitVec.ofNat_add, add_assoc]

@[simp] theorem RdCtx.pulling_cnt (c : RdCtx) (as : List Byte) (l : Nat) (t : Source) :
    (c.pulling as l t).unit.cnt = BitVec.ofNat 3 l := rfl
@[simp] theorem RdCtx.pulling_source (c : RdCtx) (as : List Byte) (l : Nat) (t : Source) :
    (c.pulling as l t).source = t := rfl
@[simp] theorem RdCtx.pulling_delta (c : RdCtx) (as : List Byte) (l : Nat) (t : Source) :
    (c.pulling as l t).delta = c.delta + as.length := rfl
@[simp] theorem RdCtx.pulling_nanDraws (c : RdCtx) (as : List Byte) (l : Nat) (t : Source) :
    (c.pulling as l t).nanDraws = c.nanDraws := rfl
@[simp] theorem RdCtx.pulling_err (c : RdCtx) (as : List Byte) (l : Nat) (t : Source) :
    (c.pulling as l t).unit.err = c.unit.err := rfl

/-- One whole byte: `ReadBits(8)` at a byte boundary. -/
theorem readBits8_done {c : RdCtx} {b : Byte} {src : Source} (h0 : c.unit.cnt = 0)
    (hp : c.source.pull = (.byte b, src)) : readBits 8 c = .done b.toNat (c.pulling [b] 0 src) := by
  have hn : bytesNeeded 8 c.unit.cnt = 1 := by simp [bytesNeeded, h0]
  have ht : c.source.takeBytes (bytesNeeded 8 c.unit.cnt) = some ([b], src) := by
    simp [hn, Source.takeBytes, hp]
  rw [readBits_done ht]
  have hl : bitsLeft 8 c.unit.cnt = 0 := by rw [bitsLeft, hn, h0]; rfl
  congr 1
  · rw [fieldValue, hn, hl, h0]
    simp [beValue, Nat.mod_one]
  · rw [hl]

theorem readBits8_stop {c : RdCtx} {a : SrcAnswer} {src : Source} (h0 : c.unit.cnt = 0)
    (hp : c.source.pull = (a, src)) (ha : ∀ b, a ≠ .byte b) :
    readBits 8 c = .raised (stopVerdict a c.delta) (c.pulling [] 0 src) := by
  have hn : bytesNeeded 8 c.unit.cnt = 1 := by simp [bytesNeeded, h0]
  simpa using readBits_stop (j := 0) (by rw [hn]; decide) rfl hp ha

/-- `ReadBytesLE(k)` when the source delivers `k` bytes. -/
theorem readBytesLE_done {k : Nat} {c : RdCtx} {bs : List Byte} {src : Source} (h0 : c.unit.cnt = 0)
    (h : c.source.takeBytes k = some (bs, src)) :
    readBytesLE k c = .done (leValue bs) (c.pulling bs 0 src) := by
  induction k generalizing bs src with
  | zero =>
    simp only [Source.takeBytes, Option.some.injEq, Prod.mk.injEq] at h
    obtain ⟨rfl, rfl⟩ := h
    rw [RdCtx.pulling_nil h0]
    rfl
  | succ k ih =>
    obtain ⟨as, t, b, h1, h2, rfl⟩ := Source.takeBytes_snoc.1 h
    rw [readBytesLE, ih h1, Res.andThen_done, readBits8_done rfl h2, Res.map_done, leValue_snoc,
      Source.takeBytes_length h1, RdCtx.pulling_pulling]

/-- `ReadBytesLE(k)` when the source stops after `j` bytes. -/
theorem readBytesLE_stop {k j : Nat} {c : RdCtx} {bs : List Byte} {t src : Source} {a : SrcAnswer}
    (h0 : c.unit.cnt = 0) (hj : j < k) (h : c.source.takeBytes j = some (bs, t)) (hp : t.pull = (a, src))
    (ha : ∀ b, a ≠ .byte b) :
    readBytesLE k c = .raised (stopVerdict a (c.delta + j)) (c.pulling bs 0 src) := by
  induction k with
  | zero => omega
  | succ k ih =>
    rw [readBytesLE]
    by_cases hlt : j < k
    · rw [ih hlt]; rfl
    · obtain rfl : j = k := by omega
      rw [readBytesLE_done h0 h, Res.andThen_done, readBits8_stop rfl hp ha, Res.map_raised,
        RdCtx.pulling_pulling, RdCtx.pulling_delta, List.append_nil, Source.takeBytes_length h]

/-! ### The EncodedU32 loop -/

/-- `takeBytes` of a list that starts with `b`. -/
theorem Source.takeBytes_cons {n : Nat} {src src' : Source} {b : Byte} {bs : List Byte} :
    src.takeBytes (n + 1) = some (b :: bs, src') ↔
      ∃ t, src.pull = (.byte b, t) ∧ t.takeBytes n = some (bs, src') := by
  rw [takeBytes_succ]
  rcases hp : src.pull with ⟨a, t⟩
  cases a with
  | byte a =>
    simp only [Option.map_eq_some_iff, Prod.exists, Prod.mk.injEq, List.cons.injEq, SrcAnswer.byte.injEq]
    constructor
    · rintro ⟨cs, u, h1, ⟨rfl, rfl⟩, rfl⟩
      exact ⟨t, ⟨rfl, rfl⟩, h1⟩
    · rintro ⟨t', ⟨rfl, rfl⟩, h1⟩
      exact ⟨bs, src', h1, ⟨rfl, rfl⟩, rfl⟩
  | endOfData => simp
  | fail => simp

/-- A byte with the continuation bit, before the 5th, continues the loop. -/
theorem readVarint_continue {left i v : Nat} {c : RdCtx} {b : Byte} {t : Source} (h0 : c.unit.cnt = 0)
    (hp : c.source.pull = (.byte b, t)) (hb : 128 ≤ b.toNat) (hi : i < 4) :
    readVarint (left + 1) i v c =
      readVarint left (i + 1) (v + b.toNat % 128 * 2 ^ (7 * i)) (c.pulling [b] 0 t) := by
  rw [readVarint, readBits8_done h0 hp, Res.andThen_done, if_neg (by omega), if_neg (by omega)]

/-- The loop when the bytes end in one without the continuation bit. -/
theorem readVarint_done {left i v : Nat} {c : RdCtx} {as : List Byte} {b : Byte} {src : Source}
    (h0 : c.unit.cnt = 0) (hl : as.length < left) (hi : i + as.length ≤ 4)
    (has : ∀ a ∈ as, 128 ≤ a.toNat) (hb : b.toNat < 128) (h5 : i + as.length = 4 → b.toNat ≤ 15)
    (h : c.source.takeBytes (as.length + 1) = some (as ++ [b], src)) :
    readVarint left i v c =
      .done (v + varintValue (as ++ [b]) * 2 ^ (7 * i)) (c.pulling (as ++ [b]) 0 src) := by
  induction as generalizing left i v c with
  | nil =>
    obtain ⟨m, rfl⟩ : ∃ m, left = m + 1 := ⟨left - 1, by simp at hl; omega⟩
    obtain ⟨t, hp, ht⟩ := Source.takeBytes_cons.1 h
    simp only [List.length_nil, Source.takeBytes, Option.some.injEq, Prod.mk.injEq] at ht
    obtain ⟨-, rfl⟩ := ht
    replace h5 : i = 4 → b.toNat ≤ 15 := h5
    rw [readVarint, readBits8_done h0 hp, Res.andThen_done, if_neg (by rintro ⟨rfl, h⟩; omega), if_pos hb]
    simp [varintValue]
  | cons a as ih =>
    obtain ⟨m, rfl⟩ : ∃ m, left = m + 1 := ⟨left - 1, by simp at hl; omega⟩
    simp only [List.length_cons] at hl hi h5
    obtain ⟨t, hp, ht⟩ := Source.takeBytes_cons.1 h
    rw [readVarint_continue h0 hp (has a (by simp)) (by omega),
      ih rfl (by omega) (by omega) (fun x hx => has x (by simp [hx])) (fun h => h5 (by omega)) ht,
      RdCtx.pulling_pulling]
    congr 1
    simp only [List.cons_append, varintValue]
    rw [show 7 * (i + 1) = 7 * i + 7 by ring, pow_add]
    ring

/-- The loop when the source stops after bytes that all continue. -/
theorem readVarint_stop {left i v : Nat} {c : RdCtx} {as : List Byte} {t src : Source} {a : SrcAnswer}
    (h0 : c.unit.cnt = 0) (hl : as.length < left) (hi : i + as.length ≤ 4)
    (has : ∀ a ∈ as, 128 ≤ a.toNat) (h : c.source.takeBytes as.length = some (as, t)) (hp : t.pull = (a, src))
    (ha : ∀ b, a ≠ .byte b) :
    readVarint left i v c = .raised (stopVerdict a (c.delta + as.length)) (c.pulling as 0 src) := by
  induction as generalizing left i v c with
  | nil =>
    obtain ⟨m, rfl⟩ : ∃ m, left = m + 1 := ⟨left - 1, by simp at hl; omega⟩
    simp only [List.length_nil, Source.takeBytes, Option.some.injEq, Prod.mk.injEq] at h
    obtain ⟨-, rfl⟩ := h
    rw [readVarint, readBits8_stop h0 hp ha]
    simp
  | cons b as ih =>
    obtain ⟨m, rfl⟩ : ∃ m, left = m + 1 := ⟨left - 1, by simp at hl; omega⟩
    simp only [List.length_cons] at hl hi h
    obtain ⟨u, hq, ht⟩ := Source.takeBytes_cons.1 h
    rw [readVarint_continue h0 hq (has b (by simp)) (by omega),
      ih rfl (by omega) (by omega) (fun x hx => has x (by simp [hx])) ht, RdCtx.pulling_pulling]
    simp [add_assoc, add_comm]

/-- The loop when four bytes continue and the fifth is greater than 15. -/
theorem readVarint_malformed {left i v : Nat} {c : RdCtx} {as : List Byte} {b : Byte} {src : Source}
    (h0 : c.unit.cnt = 0) (hl : as.length < left) (hi : i + as.length = 4)
    (has : ∀ a ∈ as, 128 ≤ a.toNat) (hb : 15 < b.toNat)
    (h : c.source.takeBytes (as.length + 1) = some (as ++ [b], src)) :
    readVarint left i v c = .raised .malformedVarint (c.pulling (as ++ [b]) 0 src) := by
  induction as generalizing left i v c with
  | nil =>
    obtain ⟨m, rfl⟩ : ∃ m, left = m + 1 := ⟨left - 1, by simp at hl; omega⟩
    obtain ⟨t, hp, ht⟩ := Source.takeBytes_cons.1 h
    simp only [List.length_nil, Source.takeBytes, Option.some.injEq, Prod.mk.injEq] at ht
    obtain ⟨-, rfl⟩ := ht
    replace hi : i = 4 := hi
    rw [readVarint, readBits8_done h0 hp, Res.andThen_done, if_pos ⟨hi, hb⟩]
    rfl
  | cons a as ih =>
    obtain ⟨m, rfl⟩ : ∃ m, left = m + 1 := ⟨left - 1, by simp at hl; omega⟩
    simp only [List.length_cons] at hl hi
    obtain ⟨t, hp, ht⟩ := Source.takeBytes_cons.1 h
    rw [readVarint_continue h0 hp (has a (by simp)) (by omega),
      ih rfl (by omega) (by omega) (fun x hx => has x (by simp [hx])) ht, RdCtx.pulling_pulling]
    rfl

end Sys2Proof.Machine
end

