-- ==== Sys2Proof/Laws/Writer.lean ====
section
/-! SUPPORT. What the sink and the Writer's primitives can do, said once: the bytes that are flushed, and what the
unit keeps (40_command_cycle.md R89 to R92, R96). -/

namespace Sys2Proof.Machine

/-! ### The sink -/

theorem Sink.takes_append {as bs : List Byte} {snk snk' : Sink} :
    snk.takes (as ++ bs) = some snk' ↔ ∃ t, snk.takes as = some t ∧ t.takes bs = some snk' := by
  induction as generalizing snk with
  | nil => simp [Sink.takes]
  | cons a as ih =>
    simp only [List.cons_append, Sink.takes]
    split
    · exact ih
    · simp

/-- Either the sink takes all the bytes, or it refuses one of them. -/
theorem Sink.takes_or_refuses (bs : List Byte) (snk : Sink) :
    (∃ t, snk.takes bs = some t) ∨
      ∃ as b cs t t', bs = as ++ b :: cs ∧ snk.takes as = some t ∧ t.push b = (.fail, t') := by
  induction bs generalizing snk with
  | nil => exact .inl ⟨snk, rfl⟩
  | cons b bs ih =>
    rcases hp : snk.push b with ⟨a, t⟩
    cases a with
    | ok =>
      rcases ih t with ⟨u, hu⟩ | ⟨as, x, cs, u, u', rfl, h1, h2⟩
      · exact .inl ⟨u, by simp [Sink.takes, hp, hu]⟩
      · exact .inr ⟨b :: as, x, cs, u, u', rfl, by simp [Sink.takes, hp, h1], h2⟩
    | fail => exact .inr ⟨[], b, bs, snk, t, rfl, rfl, hp⟩

/-- The sink records exactly what it took. -/
theorem Sink.takes_taken {bs : List Byte} {snk snk' : Sink} (h : snk.takes bs = some snk') :
    snk'.taken = snk.taken ++ bs := by
  induction bs generalizing snk with
  | nil => simp [Sink.takes] at h; simp [h]
  | cons b bs ih =>
    simp only [Sink.takes] at h
    split at h
    · rename_i t hp
      rw [ih h]
      simp only [Sink.push, Prod.mk.injEq] at hp
      obtain ⟨h1, rfl⟩ := hp
      simp [h1]
    · simp at h

theorem Sink.push_fail_taken {b : Byte} {snk snk' : Sink} (h : snk.push b = (.fail, snk')) :
    snk'.taken = snk.taken := by
  simp only [Sink.push, Prod.mk.injEq] at h
  obtain ⟨h1, rfl⟩ := h
  simp [h1]

theorem Sink.push_offered {b : Byte} {a : SinkAnswer} {snk snk' : Sink} (h : snk.push b = (a, snk')) :
    snk.offered ≤ snk'.offered := by
  simp only [Sink.push, Prod.mk.injEq] at h
  rw [← h.2]
  exact Nat.le_succ _

theorem Sink.takes_offered {bs : List Byte} {snk snk' : Sink} (h : snk.takes bs = some snk') :
    snk.offered ≤ snk'.offered := by
  induction bs generalizing snk with
  | nil => cases h; exact le_rfl
  | cons b bs ih =>
    simp only [Sink.takes] at h
    split at h
    · rename_i t hp
      exact (Sink.push_offered hp).trans (ih h)
    · cases h

/-! ### The Writer's primitives -/

/-- A context in which the sink took `bs` and the Writer keeps `acc` with `left` pending bits. -/
def WrCtx.flushing (c : WrCtx) (bs : List Byte) (acc : Byte) (left : Nat) (snk : Sink) : WrCtx :=
  { c with
    unit := { c.unit with
              acc := acc
              cnt := BitVec.ofNat 3 left
              total := c.unit.total + BitVec.ofNat 64 bs.length }
    sink := snk
    delta := c.delta + bs.length }

@[simp] theorem WrCtx.flushing_unit (c : WrCtx) (bs : List Byte) (acc : Byte) (l : Nat) (t : Sink) :
    (c.flushing bs acc l t).unit =
      { c.unit with acc := acc, cnt := BitVec.ofNat 3 l, total := c.unit.total + BitVec.ofNat 64 bs.length } := rfl
@[simp] theorem WrCtx.flushing_sink (c : WrCtx) (bs : List Byte) (acc : Byte) (l : Nat) (t : Sink) :
    (c.flushing bs acc l t).sink = t := rfl
@[simp] theorem WrCtx.flushing_delta (c : WrCtx) (bs : List Byte) (acc : Byte) (l : Nat) (t : Sink) :
    (c.flushing bs acc l t).delta = c.delta + bs.length := rfl
@[simp] theorem WrCtx.flushing_nanDraws (c : WrCtx) (bs : List Byte) (acc : Byte) (l : Nat) (t : Sink) :
    (c.flushing bs acc l t).nanDraws = c.nanDraws := rfl

theorem WrCtx.flushing_flushing (c : WrCtx) (as bs : List Byte) (x y : Byte) (l m : Nat) (t u : Sink) :
    (c.flushing as x l t).flushing bs y m u = c.flushing (as ++ bs) y m u := by
  simp [WrCtx.flushing, BitVec.ofNat_add, add_assoc]

theorem WrCtx.flushing_nil {c : WrCtx} : c.flushing [] c.unit.acc c.unit.cnt.toNat c.sink = c := by
  rcases c with ⟨⟨a, k, t, e⟩, s, n, d⟩
  simp [WrCtx.flushing]

theorem pushByte_ok {x : Byte} {c : WrCtx} {snk : Sink} (h : c.sink.push x = (.ok, snk)) :
    pushByte x c = .done () (c.flushing [x] c.unit.acc c.unit.cnt.toNat snk) := by
  simp [pushByte, h, WrCtx.flushing]

theorem pushByte_fail {x : Byte} {c : WrCtx} {snk : Sink} (h : c.sink.push x = (.fail, snk)) :
    pushByte x c = .raised .transport (c.flushing [] c.unit.acc c.unit.cnt.toNat snk) := by
  simp [pushByte, h, WrCtx.flushing]

/-- The unit after one more bit that does not fill the byte. -/
theorem writeBit_pending {b : Bool} {c : WrCtx} (h : c.unit.cnt ≠ 7) :
    writeBit b c =
      .done () { c with unit := { c.unit with
                                  acc := BitVec.ofNat 8 (2 * c.unit.acc.toNat + b.toNat)
                                  cnt := c.unit.cnt + 1 } } := by
  rw [writeBit, if_neg h]

theorem writeBit_full_ok {b : Bool} {c : WrCtx} {snk : Sink} (h : c.unit.cnt = 7)
    (hp : c.sink.push (BitVec.ofNat 8 (2 * c.unit.acc.toNat + b.toNat)) = (.ok, snk)) :
    writeBit b c =
      .done () (c.flushing [BitVec.ofNat 8 (2 * c.unit.acc.toNat + b.toNat)] 0 0 snk) := by
  rw [writeBit, if_pos h]
  exact pushByte_ok (c := { c with unit := { c.unit with acc := 0, cnt := 0 } }) hp

theorem writeBit_full_fail {b : Bool} {c : WrCtx} {snk : Sink} (h : c.unit.cnt = 7)
    (hp : c.sink.push (BitVec.ofNat 8 (2 * c.unit.acc.toNat + b.toNat)) = (.fail, snk)) :
    writeBit b c = .raised .transport (c.flushing [] 0 0 snk) := by
  rw [writeBit, if_pos h]
  exact pushByte_fail (c := { c with unit := { c.unit with acc := 0, cnt := 0 } }) hp

theorem beBytes_mod (n v m : Nat) : beBytes n (v + m * 256 ^ n) = beBytes n v := by
  induction n generalizing m with
  | zero => rfl
  | succ n ih =>
    simp only [beBytes]
    have h : v + m * 256 ^ (n + 1) = v + (256 * m) * 256 ^ n := by ring
    rw [h, ih (256 * m), Nat.add_mul_div_right _ _ (by positivity)]
    congr 1
    apply BitVec.eq_of_toNat_eq
    simp

/-- What is flushed and kept depends on the accumulator's low 8 bits only. -/
theorem flush_congr {k n p m : Nat} (hk : k ≤ 7) :
    beBytes ((k + n) / 8) ((p + m * 2 ^ (8 + n)) / 2 ^ ((k + n) % 8)) =
        beBytes ((k + n) / 8) (p / 2 ^ ((k + n) % 8)) ∧
      BitVec.ofNat 8 (if k + n < 8 then p + m * 2 ^ (8 + n) else (p + m * 2 ^ (8 + n)) % 2 ^ ((k + n) % 8)) =
        BitVec.ofNat 8 (if k + n < 8 then p else p % 2 ^ ((k + n) % 8)) := by
  have hL : (k + n) % 8 < 8 := Nat.mod_lt _ (by decide)
  have hd := Nat.div_add_mod (k + n) 8
  by_cases hs : k + n < 8
  · rw [if_pos hs, if_pos hs, Nat.div_eq_of_lt hs]
    refine ⟨rfl, ?_⟩
    apply BitVec.eq_of_toNat_eq
    simp [pow_add, ← mul_assoc, Nat.add_mod, Nat.mul_mod]
  · rw [if_neg hs, if_neg hs]
    have hsplit : 2 ^ (8 + n) = 256 ^ ((k + n) / 8) * 2 ^ (8 + n - (k + n) % 8 - 8 * ((k + n) / 8)) * 2 ^ ((k + n) % 8) := by
      rw [show (256 : Nat) = 2 ^ 8 by norm_num, ← pow_mul, ← pow_add, ← pow_add]
      congr 1
      omega
    rw [hsplit]
    refine ⟨?_, ?_⟩
    · rw [← mul_assoc, Nat.add_mul_div_right _ _ (by positivity), ← beBytes_mod ((k + n) / 8) (p / _)
        (m * 2 ^ (8 + n - (k + n) % 8 - 8 * ((k + n) / 8)))]
      congr 1
      ring
    · rw [← mul_assoc, Nat.add_mul_mod_self_right]

theorem toNat_testBit (v n : Nat) : (v.testBit n).toNat = v / 2 ^ n % 2 := by
  rw [Nat.testBit_eq_decide_div_mod_eq]
  have : v / 2 ^ n % 2 < 2 := Nat.mod_lt _ (by decide)
  by_cases h : v / 2 ^ n % 2 = 1
  · simp [h]
  · have : v / 2 ^ n % 2 = 0 := by omega
    simp [this]

/-- The pending bits and `n + 1` bits of `v` are the pending bits with bit `n`, then `n` bits. -/
theorem pendingThen_succ (n v : Nat) (u : Writer) :
    pendingThen (n + 1) v u = (2 * u.acc.toNat + (v.testBit n).toNat) * 2 ^ n + v % 2 ^ n := by
  have h : v % 2 ^ (n + 1) = v % 2 ^ n + 2 ^ n * (v / 2 ^ n % 2) := Nat.mod_pow_succ
  rw [pendingThen, h, toNat_testBit, pow_succ]
  ring

theorem flushedBy_succ_pending {n v : Nat} {u : Writer} (h : u.cnt ≠ 7) :
    let u' : Writer :=
      { u with acc := BitVec.ofNat 8 (2 * u.acc.toNat + (v.testBit n).toNat), cnt := u.cnt + 1 }
    flushedBy (n + 1) v u = flushedBy n v u' ∧ accAfter (n + 1) v u = accAfter n v u' ∧
      u'.cnt.toNat = u.cnt.toNat + 1 := by
  intro u'
  have hlt := u.cnt.isLt
  have hk : u.cnt.toNat ≤ 6 := by
    have : u.cnt.toNat ≠ 7 := fun h7 => h (BitVec.eq_of_toNat_eq h7)
    omega
  have hc : u'.cnt.toNat = u.cnt.toNat + 1 := by
    simp only [u', BitVec.toNat_add]
    change (u.cnt.toNat + 1) % 8 = _
    omega
  have ha : u'.acc.toNat = (2 * u.acc.toNat + (v.testBit n).toNat) % 256 := by simp [u']
  have hp : pendingThen (n + 1) v u =
      pendingThen n v u' + (2 * u.acc.toNat + (v.testBit n).toNat) / 256 * 2 ^ (8 + n) := by
    rw [pendingThen_succ, pendingThen, ha, pow_add]
    have := Nat.div_add_mod (2 * u.acc.toNat + (v.testBit n).toNat) 256
    generalize (2 * u.acc.toNat + (v.testBit n).toNat) = x at *
    conv_lhs => rw [← this]
    ring
  have hkn : u.cnt.toNat + (n + 1) = u.cnt.toNat + 1 + n := by omega
  have key := flush_congr (k := u.cnt.toNat + 1) (n := n) (p := pendingThen n v u')
    (m := (2 * u.acc.toNat + (v.testBit n).toNat) / 256) (by omega)
  refine ⟨?_, ?_, hc⟩
  · rw [flushedBy, flushedBy, hp, hc, hkn]
    exact key.1
  · rw [accAfter, accAfter, hp, hc, hkn]
    exact key.2

theorem flushedBy_succ_full {n v : Nat} {u : Writer} (h : u.cnt = 7) :
    let u' : Writer := { u with acc := 0, cnt := 0 }
    flushedBy (n + 1) v u =
        BitVec.ofNat 8 (2 * u.acc.toNat + (v.testBit n).toNat) :: flushedBy n v u' ∧
      accAfter (n + 1) v u = accAfter n v u' := by
  intro u'
  have hc : u.cnt.toNat = 7 := by rw [h]; rfl
  have hc' : u'.cnt.toNat = 0 := rfl
  have hp' : pendingThen n v u' = v % 2 ^ n := by simp [pendingThen, u']
  have hp := pendingThen_succ n v u
  generalize (2 * u.acc.toNat + (v.testBit n).toNat) = x at *
  have hN : (u.cnt.toNat + (n + 1)) / 8 = n / 8 + 1 := by omega
  have hL : (u.cnt.toNat + (n + 1)) % 8 = n % 8 := by omega
  have h2n : 2 ^ n = 256 ^ (n / 8) * 2 ^ (n % 8) := by
    rw [show (256 : Nat) = 2 ^ 8 by norm_num, ← pow_mul, ← pow_add, Nat.div_add_mod]
  have hdiv : (x * 2 ^ n + v % 2 ^ n) / 2 ^ (n % 8) = v % 2 ^ n / 2 ^ (n % 8) + x * 256 ^ (n / 8) := by
    rw [Nat.add_comm]
    conv_lhs => rw [show x * 2 ^ n = x * 256 ^ (n / 8) * 2 ^ (n % 8) by rw [h2n]; ring]
    rw [Nat.add_mul_div_right _ _ (by positivity)]
  refine ⟨?_, ?_⟩
  · rw [flushedBy, flushedBy, hp, hp', hN, hL, hc', Nat.zero_add, beBytes, hdiv, beBytes_mod]
    congr 2
    rw [Nat.add_mul_div_right _ _ (by positivity), Nat.div_div_eq_div_mul, Nat.mul_comm (2 ^ (n % 8)), ← h2n,
      Nat.div_eq_of_lt (Nat.mod_lt _ (by positivity)), Nat.zero_add]
  · rw [accAfter, accAfter, hp, hp', hL, hc', Nat.zero_add, if_neg (by omega)]
    have : (x * 2 ^ n + v % 2 ^ n) % 2 ^ (n % 8) = v % 2 ^ n % 2 ^ (n % 8) := by
      rw [Nat.add_comm]
      conv_lhs => rw [show x * 2 ^ n = x * 256 ^ (n / 8) * 2 ^ (n % 8) by rw [h2n]; ring]
      rw [Nat.add_mul_mod_self_right]
    rw [this]
    by_cases h8 : n < 8
    · rw [if_pos h8, Nat.mod_eq_of_lt h8, Nat.mod_mod]
    · rw [if_neg h8]

/-- `WriteBits(n, v)` when the sink takes every byte it flushes (40_command_cycle.md R89, R90). -/
theorem writeBits_done {n v : Nat} {c : WrCtx} {snk : Sink}
    (h : c.sink.takes (flushedBy n v c.unit) = some snk) :
    writeBits n v c =
      .done () (c.flushing (flushedBy n v c.unit) (accAfter n v c.unit) ((c.unit.cnt.toNat + n) % 8) snk) := by
  induction n generalizing c with
  | zero =>
    have hk := c.unit.cnt.isLt
    have ha := c.unit.acc.isLt
    have hf : flushedBy 0 v c.unit = [] := by
      simp [flushedBy, beBytes, Nat.div_eq_of_lt (show c.unit.cnt.toNat < 8 from hk)]
    have hx : accAfter 0 v c.unit = c.unit.acc := by
      simp [accAfter, pendingThen, show c.unit.cnt.toNat < 8 from hk, Nat.mod_one]
    rw [hf] at h ⊢
    simp only [Sink.takes, Option.some.injEq] at h
    rw [hx, ← h, Nat.add_zero, Nat.mod_eq_of_lt hk, WrCtx.flushing_nil]
    rfl
  | succ n ih =>
    rw [writeBits]
    by_cases h7 : c.unit.cnt = 7
    · obtain ⟨hf, ha⟩ := flushedBy_succ_full (n := n) (v := v) h7
      rw [hf] at h ⊢
      rw [ha]
      simp only [Sink.takes] at h
      split at h
      · rename_i t hp
        have hc : c.unit.cnt.toNat = 7 := by rw [h7]; rfl
        rw [writeBit_full_ok h7 hp, Res.andThen_done]
        refine (ih (c := c.flushing _ 0 0 t) h).trans ?_
        rw [WrCtx.flushing_flushing, hc, show (7 + (n + 1)) % 8 = n % 8 by omega]
        simp [flushedBy, accAfter, pendingThen]
      · simp at h
    · obtain ⟨hf, ha, hc⟩ := flushedBy_succ_pending (n := n) (v := v) h7
      rw [hf] at h ⊢
      rw [ha, writeBit_pending h7, Res.andThen_done]
      refine (ih (c := { c with unit := _ }) h).trans ?_
      rw [hc, show c.unit.cnt.toNat + 1 + n = c.unit.cnt.toNat + (n + 1) by omega]
      rfl

/-- `WriteBits(n, v)` when the sink refuses one of the bytes it flushes (40_command_cycle.md R89, R96). -/
theorem writeBits_fail {n v : Nat} {c : WrCtx} {as cs : List Byte} {b : Byte} {t t' : Sink}
    (hf : flushedBy n v c.unit = as ++ b :: cs) (h : c.sink.takes as = some t) (hp : t.push b = (.fail, t')) :
    writeBits n v c = .raised .transport (c.flushing as 0 0 t') := by
  induction n generalizing c as with
  | zero =>
    have hk := c.unit.cnt.isLt
    simp [flushedBy, beBytes, Nat.div_eq_of_lt (show c.unit.cnt.toNat < 8 from hk)] at hf
  | succ n ih =>
    rw [writeBits]
    by_cases h7 : c.unit.cnt = 7
    · rw [(flushedBy_succ_full (n := n) (v := v) h7).1] at hf
      cases as with
      | nil =>
        simp only [Sink.takes, Option.some.injEq] at h
        simp only [List.nil_append, List.cons.injEq] at hf
        rw [← h, ← hf.1] at hp
        rw [writeBit_full_fail h7 hp]
        rfl
      | cons a as =>
        simp only [List.cons_append, List.cons.injEq] at hf
        simp only [Sink.takes] at h
        split at h
        · rename_i u hu
          rw [← hf.1] at hu
          rw [writeBit_full_ok h7 hu, Res.andThen_done]
          refine (ih (c := c.flushing _ 0 0 u) hf.2 h).trans ?_
          rw [WrCtx.flushing_flushing, hf.1]
          rfl
        · simp at h
    · rw [(flushedBy_succ_pending (n := n) (v := v) h7).1] at hf
      rw [writeBit_pending h7, Res.andThen_done]
      exact ih (c := { c with unit := _ }) hf h

/-! ### Whole bytes -/

/-- At a byte boundary eight bits are one byte, whatever the accumulator held. -/
theorem flushedBy_byte {v : Nat} {u : Writer} (h0 : u.cnt = 0) :
    flushedBy 8 v u = [BitVec.ofNat 8 v] ∧ accAfter 8 v u = 0 := by
  have hc : u.cnt.toNat = 0 := by rw [h0]; rfl
  constructor
  · simp only [flushedBy, hc, beBytes, pendingThen]
    simp only [Nat.zero_add, Nat.mod_self, pow_zero, Nat.div_one]
    congr 1
    apply BitVec.eq_of_toNat_eq
    simp only [BitVec.toNat_ofNat]
    omega
  · simp [accAfter, hc, Nat.mod_one]

theorem writeByte_done {v : Nat} {c : WrCtx} {snk : Sink} (h0 : c.unit.cnt = 0)
    (hp : c.sink.push (BitVec.ofNat 8 v) = (.ok, snk)) :
    writeBits 8 v c = .done () (c.flushing [BitVec.ofNat 8 v] 0 0 snk) := by
  obtain ⟨hf, ha⟩ := flushedBy_byte (v := v) h0
  have hc : c.unit.cnt.toNat = 0 := by rw [h0]; rfl
  have := writeBits_done (n := 8) (v := v) (c := c) (snk := snk) (by rw [hf]; simp [Sink.takes, hp])
  rw [this, hf, ha, hc]

theorem writeByte_fail {v : Nat} {c : WrCtx} {snk : Sink} (h0 : c.unit.cnt = 0)
    (hp : c.sink.push (BitVec.ofNat 8 v) = (.fail, snk)) :
    writeBits 8 v c = .raised .transport (c.flushing [] 0 0 snk) :=
  writeBits_fail (as := []) (cs := []) (by rw [(flushedBy_byte h0).1]; rfl) rfl hp

theorem leBytes_snoc (k v : Nat) : leBytes (k + 1) v = leBytes k v ++ [BitVec.ofNat 8 (v / 2 ^ (8 * k) % 256)] := by
  induction k generalizing v with
  | zero =>
    simp only [leBytes, List.nil_append, Nat.mul_zero, pow_zero, Nat.div_one]
    congr 1
    apply BitVec.eq_of_toNat_eq
    simp
  | succ k ih =>
    rw [leBytes, ih (v / 256), leBytes, List.cons_append, Nat.div_div_eq_div_mul,
      show 256 * 2 ^ (8 * k) = 2 ^ (8 * (k + 1)) by rw [show 8 * (k + 1) = 8 + 8 * k by ring, pow_add]; norm_num]

@[simp] theorem leBytes_length (k v : Nat) : (leBytes k v).length = k := by
  induction k generalizing v with
  | zero => rfl
  | succ k ih => simp [leBytes, ih]

/-- `WriteBytesLE(k, v)` when the sink takes the bytes. -/
theorem writeBytesLE_done {k v : Nat} {c : WrCtx} {snk : Sink} (h0 : c.unit.cnt = 0)
    (h : c.sink.takes (leBytes k v) = some snk) (hk : k ≠ 0) :
    writeBytesLE k v c = .done () (c.flushing (leBytes k v) 0 0 snk) := by
  obtain ⟨k, rfl⟩ := Nat.exists_eq_succ_of_ne_zero hk
  clear hk
  induction k generalizing snk with
  | zero =>
    simp only [leBytes, Sink.takes] at h
    split at h
    · rename_i t hp
      simp only [Option.some.injEq] at h
      subst h
      have : BitVec.ofNat 8 (v / 2 ^ (8 * 0) % 256) = BitVec.ofNat 8 v := by
        apply BitVec.eq_of_toNat_eq; simp
      rw [writeBytesLE, writeBytesLE, Res.andThen_done, writeByte_done h0 (by rw [this]; exact hp), this]
      rfl
    · simp at h
  | succ k ih =>
    rw [Nat.succ_eq_add_one, leBytes_snoc] at h ⊢
    obtain ⟨t, h1, h2⟩ := Sink.takes_append.1 h
    simp only [Sink.takes] at h2
    split at h2
    · rename_i u hp
      simp only [Option.some.injEq] at h2
      subst h2
      rw [writeBytesLE, ih h1, Res.andThen_done, writeByte_done rfl hp, WrCtx.flushing_flushing]
    · simp at h2

/-- `WriteBytesLE(k, v)` when the sink refuses one of the bytes. -/
theorem writeBytesLE_fail {k v : Nat} {c : WrCtx} {as cs : List Byte} {b : Byte} {t t' : Sink}
    (h0 : c.unit.cnt = 0) (hf : leBytes k v = as ++ b :: cs) (h : c.sink.takes as = some t)
    (hp : t.push b = (.fail, t')) :
    writeBytesLE k v c = .raised .transport (c.flushing as 0 0 t') := by
  induction k generalizing cs with
  | zero => simp [leBytes] at hf
  | succ k ih =>
    rw [leBytes_snoc] at hf
    rw [writeBytesLE]
    rcases List.eq_nil_or_concat cs with rfl | ⟨ds, d, rfl⟩
    · rw [show as ++ [b] = as.concat b by simp, ← List.concat_eq_append, List.concat_inj] at hf
      obtain ⟨h1, h2⟩ := hf
      subst h1 h2
      cases k with
      | zero =>
        simp only [leBytes, Sink.takes, Option.some.injEq] at h
        subst h
        rw [writeBytesLE, Res.andThen_done]
        exact writeByte_fail h0 hp
      | succ k =>
        rw [writeBytesLE_done h0 h (by simp), Res.andThen_done,
          writeByte_fail (c := c.flushing _ 0 0 t) rfl hp, WrCtx.flushing_flushing, List.append_nil]
    · rw [show as ++ b :: ds.concat d = (as ++ b :: ds).concat d by simp, ← List.concat_eq_append,
        List.concat_inj] at hf
      rw [ih hf.1]
      rfl

/-- `AlignW()` when the sink takes the padded byte, or nothing is pending. -/
theorem alignW_done {c : WrCtx} {snk : Sink} (h : c.sink.takes (padding c.unit) = some snk) :
    alignW c =
      .done () (c.flushing (padding c.unit) (if c.unit.cnt = 0 then c.unit.acc else 0) 0 snk) := by
  by_cases h0 : c.unit.cnt = 0
  · rw [padding, if_pos h0] at h
    simp only [Sink.takes, Option.some.injEq] at h
    have hc : c.unit.cnt.toNat = 0 := by rw [h0]; rfl
    rw [alignW, if_pos h0, padding, if_pos h0, if_pos h0, ← h, ← hc, WrCtx.flushing_nil]
  · rw [padding, if_neg h0] at h
    simp only [Sink.takes] at h
    split at h
    · rename_i t hp
      simp only [Option.some.injEq] at h
      subst h
      rw [alignW, if_neg h0, padding, if_neg h0, if_neg h0]
      exact pushByte_ok (c := { c with unit := { c.unit with acc := 0, cnt := 0 } }) hp
    · simp at h

/-- `AlignW()` when the sink refuses the padded byte. -/
theorem alignW_fail {c : WrCtx} {as cs : List Byte} {b : Byte} {t t' : Sink}
    (hf : padding c.unit = as ++ b :: cs) (h : c.sink.takes as = some t) (hp : t.push b = (.fail, t')) :
    alignW c = .raised .transport (c.flushing as 0 0 t') := by
  by_cases h0 : c.unit.cnt = 0
  · simp [padding, h0] at hf
  · rw [padding, if_neg h0] at hf
    cases as with
    | nil =>
      simp only [List.nil_append, List.cons.injEq] at hf
      simp only [Sink.takes, Option.some.injEq] at h
      subst h
      rw [alignW, if_neg h0]
      exact pushByte_fail (c := { c with unit := { c.unit with acc := 0, cnt := 0 } }) (by rw [hf.1]; exact hp)
    | cons a as => simp at hf

/-! ### The EncodedU32 loop -/

/-- The bytes `writeVarint left i v` writes. -/
def varintTail : (left i v : Nat) → List Byte
  | 0, i, v => [BitVec.ofNat 8 (v / 2 ^ (7 * i) % 128)]
  | left + 1, i, v => BitVec.ofNat 8 (v / 2 ^ (7 * i) % 128 + 128) :: varintTail left (i + 1) v

theorem varintBytes_eq (v : Nat) : varintBytes v = varintTail (varintSize v - 1) 0 v := by
  have h : varintSize v = 1 ∨ varintSize v = 2 ∨ varintSize v = 3 ∨ varintSize v = 4 ∨ varintSize v = 5 := by
    unfold varintSize
    split_ifs <;> simp
  rcases h with h | h | h | h | h <;>
    simp [varintBytes, h, varintTail, List.range_succ]

theorem writeVarint_done {left i v : Nat} {c : WrCtx} {snk : Sink} (h0 : c.unit.cnt = 0)
    (h : c.sink.takes (varintTail left i v) = some snk) :
    writeVarint left i v c = .done () (c.flushing (varintTail left i v) 0 0 snk) := by
  induction left generalizing i c with
  | zero =>
    simp only [varintTail, Sink.takes] at h
    split at h
    · rename_i t hp
      simp only [Option.some.injEq] at h
      subst h
      rw [writeVarint, writeByte_done h0 hp]
      rfl
    · simp at h
  | succ left ih =>
    simp only [varintTail, Sink.takes] at h
    split at h
    · rename_i t hp
      rw [writeVarint, writeByte_done h0 hp, Res.andThen_done, ih (c := c.flushing _ 0 0 t) rfl h,
        WrCtx.flushing_flushing]
      rfl
    · simp at h

theorem writeVarint_fail {left i v : Nat} {c : WrCtx} {as cs : List Byte} {b : Byte} {t t' : Sink}
    (h0 : c.unit.cnt = 0) (hf : varintTail left i v = as ++ b :: cs) (h : c.sink.takes as = some t)
    (hp : t.push b = (.fail, t')) :
    writeVarint left i v c = .raised .transport (c.flushing as 0 0 t') := by
  induction left generalizing i c as with
  | zero =>
    cases as with
    | nil =>
      simp only [varintTail, List.nil_append, List.cons.injEq] at hf
      simp only [Sink.takes, Option.some.injEq] at h
      subst h
      rw [writeVarint]
      exact writeByte_fail h0 (by rw [hf.1]; exact hp)
    | cons a as => simp [varintTail] at hf
  | succ left ih =>
    rw [writeVarint]
    cases as with
    | nil =>
      simp only [varintTail, List.nil_append, List.cons.injEq] at hf
      simp only [Sink.takes, Option.some.injEq] at h
      subst h
      rw [writeByte_fail h0 (by rw [hf.1]; exact hp)]
      rfl
    | cons a as =>
      simp only [varintTail, List.cons_append, List.cons.injEq] at hf
      simp only [Sink.takes] at h
      split at h
      · rename_i u hu
        rw [writeByte_done h0 (by rw [hf.1]; exact hu), Res.andThen_done,
          ih (c := c.flushing _ 0 0 u) rfl hf.2 h, WrCtx.flushing_flushing, hf.1]
        rfl
      · simp at h

end Sys2Proof.Machine
end

