-- ==== Sys2Proof/Laws/Cycle.lean ====
section
/-! SUPPORT. The command cycle (40_command_cycle.md R80, R81) said once: every way each of the three cycles can
end, and the whole-unit facts that follow for any body. -/

namespace Sys2Proof.Machine

/-! ### The counters -/

theorem counterRoom_of_lt {total : Word} {d : Nat} (h : total.toNat + d < 2 ^ 64) : counterRoom total d = true := by
  simp only [counterRoom, Bool.or_eq_true, decide_eq_true_eq]
  exact .inr h

theorem counterRoom_eq_false {total : Word} {d : Nat} (hd : d ≤ 9) (h : 2 ^ 64 ≤ total.toNat + d) :
    counterRoom total d = false := by
  simp only [counterRoom, Bool.or_eq_false_iff, decide_eq_false_iff_not]
  omega

theorem counterRoom_lt {total : Word} {d : Nat} (hd : d ≤ 9) (h : counterRoom total d = true) :
    total.toNat + d < 2 ^ 64 := by
  simp only [counterRoom, Bool.or_eq_true, decide_eq_true_eq] at h
  omega

/-! ### The Reader's cycle -/

theorem readerCycle_latched {check : Option Verdict} {aligns : Bool} {body : RdCtx → Res RdCtx (Option Word)}
    {s : State} (h : s.r.err ≠ 0) :
    readerCycle check aligns body s = .next (s.finish .streamBroken 0) := by
  unfold readerCycle
  rw [if_pos h]

theorem readerCycle_rejected {v : Verdict} {aligns : Bool} {body : RdCtx → Res RdCtx (Option Word)}
    {s : State} (h : s.r.err = 0) :
    readerCycle (some v) aligns body s = .next (s.finish v 0) := by
  unfold readerCycle
  rw [if_neg (by simp [h])]

/-- A Reader command that is not refused and not rejected runs its body. -/
theorem readerCycle_none {aligns : Bool} {body : RdCtx → Res RdCtx (Option Word)} {s : State} (h : s.r.err = 0) :
    readerCycle none aligns body s =
      if counterRoom s.r.total (body (if aligns then alignR s.rdStart else s.rdStart)).ctx.delta then
        .next (s.afterRead (body (if aligns then alignR s.rdStart else s.rdStart)))
      else .fault .counterOverflow := by
  unfold readerCycle
  rw [if_neg (by simp [h])]

theorem readerCycle_runs {aligns : Bool} {body : RdCtx → Res RdCtx (Option Word)} {s : State}
    {x : Res RdCtx (Option Word)} (h : s.r.err = 0)
    (hx : body (if aligns then alignR s.rdStart else s.rdStart) = x)
    (hroom : s.r.total.toNat + x.ctx.delta < 2 ^ 64) :
    readerCycle none aligns body s = .next (s.afterRead x) := by
  rw [readerCycle_none h, hx, if_pos (counterRoom_of_lt hroom)]

theorem readerCycle_overflows {aligns : Bool} {body : RdCtx → Res RdCtx (Option Word)} {s : State}
    {x : Res RdCtx (Option Word)} (h : s.r.err = 0)
    (hx : body (if aligns then alignR s.rdStart else s.rdStart) = x) (hd : x.ctx.delta ≤ 9)
    (hroom : 2 ^ 64 ≤ s.r.total.toNat + x.ctx.delta) :
    readerCycle none aligns body s = .fault .counterOverflow := by
  rw [readerCycle_none h, hx, if_neg (by simp [counterRoom_eq_false hd hroom])]

/-- Every next state of a Reader command: refused by the latch, rejected by the check, or the body ran. -/
theorem readerCycle_next {check : Option Verdict} {aligns : Bool} {body : RdCtx → Res RdCtx (Option Word)}
    {s t : State} (h : readerCycle check aligns body s = .next t) :
    (s.r.err ≠ 0 ∧ t = s.finish .streamBroken 0) ∨
      (s.r.err = 0 ∧ ∃ v, check = some v ∧ t = s.finish v 0) ∨
      (s.r.err = 0 ∧ check = none ∧
        counterRoom s.r.total (body (if aligns then alignR s.rdStart else s.rdStart)).ctx.delta = true ∧
        t = s.afterRead (body (if aligns then alignR s.rdStart else s.rdStart))) := by
  by_cases he : s.r.err = 0
  · cases check with
    | some v =>
      rw [readerCycle_rejected he] at h
      exact .inr (.inl ⟨he, v, rfl, (Host.Outcome.next.inj h).symm⟩)
    | none =>
      refine .inr (.inr ⟨he, rfl, ?_⟩)
      rw [readerCycle_none he] at h
      generalize body (if aligns then alignR s.rdStart else s.rdStart) = x at *
      split at h
      · rename_i hr
        exact ⟨hr, (Host.Outcome.next.inj h).symm⟩
      · simp at h
  · rw [readerCycle_latched he] at h
    exact .inl ⟨he, (Host.Outcome.next.inj h).symm⟩

/-- A Reader body leaves the Writer, DIN and everything outside the Reader's reach as it was. -/
theorem State.afterRead_frame (s : State) (x : Res RdCtx (Option Word)) :
    (s.afterRead x).w = s.w ∧ (s.afterRead x).din = s.din ∧ (s.afterRead x).dinV = s.dinV ∧
      (s.afterRead x).sink = s.sink ∧ (s.afterRead x).host = s.host ∧ (s.afterRead x).readback = s.readback ∧
      (s.afterRead x).nanEnc = s.nanEnc ∧ (s.afterRead x).cuts = s.cuts := by
  rcases x with ⟨_ | d, c⟩ | ⟨v, c⟩ <;> simp [State.afterRead]

/-! ### The Writer's cycle -/

/-- What a Writer command's aligned or plain body leaves. -/
def writerBody (aligns : Bool) (body : WrCtx → Res WrCtx Unit) (c : WrCtx) : Res WrCtx Unit :=
  if aligns then (alignW c).andThen fun _ c => body c else body c

theorem writerCycle_latched {readsDin : Bool} {check : Option Verdict} {aligns : Bool}
    {body : WrCtx → Res WrCtx Unit} {s : State} (h : s.w.err ≠ 0) :
    writerCycle readsDin check aligns body s = .next (s.finish .streamBroken 0) := by
  unfold writerCycle
  rw [if_pos h]

theorem writerCycle_dinUnwritten {check : Option Verdict} {aligns : Bool}
    {body : WrCtx → Res WrCtx Unit} {s : State} (h : s.w.err = 0) (hv : s.dinV = false) :
    writerCycle true check aligns body s = .fault .dinUnwritten := by
  unfold writerCycle
  rw [if_neg (by simp [h]), if_pos (by simp [hv])]

theorem writerCycle_rejected {readsDin : Bool} {v : Verdict} {aligns : Bool}
    {body : WrCtx → Res WrCtx Unit} {s : State} (h : s.w.err = 0) (hv : readsDin = true → s.dinV = true) :
    writerCycle readsDin (some v) aligns body s = .next (s.finish v 0) := by
  unfold writerCycle
  rw [if_neg (by simp [h]), if_neg (by cases readsDin <;> simp_all)]

/-- A Writer command that is not refused and not rejected runs its body. -/
theorem writerCycle_none {readsDin aligns : Bool} {body : WrCtx → Res WrCtx Unit} {s : State} (h : s.w.err = 0)
    (hv : readsDin = true → s.dinV = true) :
    writerCycle readsDin none aligns body s =
      if counterRoom s.w.total (writerBody aligns body s.wrStart).ctx.delta then
        .next (s.afterWrite (writerBody aligns body s.wrStart))
      else .fault .counterOverflow := by
  unfold writerCycle
  rw [if_neg (by simp [h]), if_neg (by cases readsDin <;> simp_all)]
  rfl

theorem writerCycle_runs {readsDin : Bool} {aligns : Bool} {body : WrCtx → Res WrCtx Unit} {s : State}
    {x : Res WrCtx Unit} (h : s.w.err = 0) (hv : readsDin = true → s.dinV = true)
    (hx : writerBody aligns body s.wrStart = x) (hroom : s.w.total.toNat + x.ctx.delta < 2 ^ 64) :
    writerCycle readsDin none aligns body s = .next (s.afterWrite x) := by
  rw [writerCycle_none h hv, hx, if_pos (counterRoom_of_lt hroom)]

theorem writerCycle_overflows {readsDin : Bool} {aligns : Bool} {body : WrCtx → Res WrCtx Unit} {s : State}
    {x : Res WrCtx Unit} (h : s.w.err = 0) (hv : readsDin = true → s.dinV = true)
    (hx : writerBody aligns body s.wrStart = x) (hd : x.ctx.delta ≤ 9)
    (hroom : 2 ^ 64 ≤ s.w.total.toNat + x.ctx.delta) :
    writerCycle readsDin none aligns body s = .fault .counterOverflow := by
  rw [writerCycle_none h hv, hx, if_neg (by simp [counterRoom_eq_false hd hroom])]

/-- Every next state of a Writer command. -/
theorem writerCycle_next {readsDin : Bool} {check : Option Verdict} {aligns : Bool}
    {body : WrCtx → Res WrCtx Unit} {s t : State} (h : writerCycle readsDin check aligns body s = .next t) :
    (s.w.err ≠ 0 ∧ t = s.finish .streamBroken 0) ∨
      (s.w.err = 0 ∧ (readsDin = true → s.dinV = true) ∧ ∃ v, check = some v ∧ t = s.finish v 0) ∨
      (s.w.err = 0 ∧ (readsDin = true → s.dinV = true) ∧ check = none ∧
        counterRoom s.w.total (writerBody aligns body s.wrStart).ctx.delta = true ∧
        t = s.afterWrite (writerBody aligns body s.wrStart)) := by
  by_cases he : s.w.err = 0
  · cases hd : readsDin && !s.dinV with
    | true =>
      simp only [Bool.and_eq_true, Bool.not_eq_true'] at hd
      obtain ⟨rfl, hv⟩ := hd
      rw [writerCycle_dinUnwritten he hv] at h
      simp at h
    | false =>
      have hv : readsDin = true → s.dinV = true := by
        rintro rfl
        simpa using hd
      cases check with
      | some v =>
        rw [writerCycle_rejected he hv] at h
        exact .inr (.inl ⟨he, hv, v, rfl, (Host.Outcome.next.inj h).symm⟩)
      | none =>
        refine .inr (.inr ⟨he, hv, rfl, ?_⟩)
        rw [writerCycle_none he hv] at h
        generalize writerBody aligns body s.wrStart = x at *
        split at h
        · rename_i hr
          exact ⟨hr, (Host.Outcome.next.inj h).symm⟩
        · simp at h
  · rw [writerCycle_latched he] at h
    exact .inl ⟨he, (Host.Outcome.next.inj h).symm⟩

/-- A Writer body leaves the Reader, DIN, DOUT and everything outside the Writer's reach as it was. -/
theorem State.afterWrite_frame (s : State) (x : Res WrCtx Unit) :
    (s.afterWrite x).r = s.r ∧ (s.afterWrite x).din = s.din ∧ (s.afterWrite x).dinV = s.dinV ∧
      (s.afterWrite x).dout = s.dout ∧ (s.afterWrite x).source = s.source ∧ (s.afterWrite x).host = s.host ∧
      (s.afterWrite x).readback = s.readback ∧ (s.afterWrite x).nanDec = s.nanDec ∧
      (s.afterWrite x).cuts = s.cuts := by
  rcases x with ⟨_, c⟩ | ⟨v, c⟩ <;> simp [State.afterWrite]

/-! ### The size commands' cycle -/

theorem sizeCycle_dinUnwritten {check : Option Verdict} {size : Nat} {s : State} (h : s.dinV = false) :
    sizeCycle check size s = .fault .dinUnwritten := by
  simp [sizeCycle, h]

theorem sizeCycle_rejected {v : Verdict} {size : Nat} {s : State} (h : s.dinV = true) :
    sizeCycle (some v) size s = .next (s.finish v 0) := by
  simp [sizeCycle, h]

theorem sizeCycle_runs {size : Nat} {s : State} (h : s.dinV = true) :
    sizeCycle none size s = .next ((s.setDout (zextWord size)).finish .ok 0) := by
  simp [sizeCycle, h]

/-- Every next state of a size command. -/
theorem sizeCycle_next {check : Option Verdict} {size : Nat} {s t : State} (h : sizeCycle check size s = .next t) :
    s.dinV = true ∧
      ((∃ v, check = some v ∧ t = s.finish v 0) ∨
        (check = none ∧ t = (s.setDout (zextWord size)).finish .ok 0)) := by
  cases hv : s.dinV with
  | false => rw [sizeCycle_dinUnwritten hv] at h; simp at h
  | true =>
    refine ⟨rfl, ?_⟩
    cases check with
    | some v => rw [sizeCycle_rejected hv] at h; exact .inl ⟨v, rfl, (Host.Outcome.next.inj h).symm⟩
    | none => rw [sizeCycle_runs hv] at h; exact .inr ⟨rfl, (Host.Outcome.next.inj h).symm⟩

end Sys2Proof.Machine
end

