-- ==== Sys2Proof/Laws/Counters.lean ====
section
/-! SUPPORT. No body of a command looks at the byte counters: where the counter starts higher by `n`, it ends higher
by `n`, and nothing else differs (10_state.md R24, R28; 40_command_cycle.md R85, R89, R92). -/

namespace Sys2Proof.Machine

/-- `c` with `n` more bytes on its counter. -/
def RdCtx.counted (n : Word) (c : RdCtx) : RdCtx :=
  { c with unit := { c.unit with total := n + c.unit.total } }

/-- `c` with `n` more bytes on its counter. -/
def WrCtx.counted (n : Word) (c : WrCtx) : WrCtx :=
  { c with unit := { c.unit with total := n + c.unit.total } }

/-- The same end of a body with another context. -/
def Res.mapCtx {σ α : Type} (g : σ → σ) : Res σ α → Res σ α
  | .done a c => .done a (g c)
  | .raised v c => .raised v (g c)

@[simp] theorem Res.mapCtx_ctx {σ α : Type} (g : σ → σ) (x : Res σ α) : (x.mapCtx g).ctx = g x.ctx := by
  cases x <;> rfl

/-- Running `f` and changing the context by `g` commute. -/
abbrev Commutes {σ α : Type} (g : σ → σ) (f : σ → Res σ α) : Prop := ∀ c, f (g c) = (f c).mapCtx g

theorem Commutes.andThen {σ α β : Type} {g : σ → σ} {f : σ → Res σ α} {h : α → σ → Res σ β} (hf : Commutes g f)
    (hh : ∀ a, Commutes g (h a)) : Commutes g (fun c => (f c).andThen h) := fun c => by
  change (f (g c)).andThen h = ((f c).andThen h).mapCtx g
  rw [hf c]
  cases f c with
  | done a d => exact hh a d
  | raised v d => rfl

theorem Commutes.map {σ α β : Type} {g : σ → σ} {f : σ → Res σ α} (hf : Commutes g f) (k : α → β) :
    Commutes g (fun c => (f c).map k) := fun c => by
  change (f (g c)).map k = ((f c).map k).mapCtx g
  rw [hf c]
  cases f c <;> rfl

/-! ### The Reader -/

theorem readBit_counted (n : Word) : Commutes (RdCtx.counted n) readBit := fun c => by
  simp only [readBit, show (c.counted n).unit.cnt = c.unit.cnt from rfl,
    show (c.counted n).source = c.source from rfl]
  by_cases h : c.unit.cnt = 0
  · rw [if_pos h, if_pos h]
    rcases c.source.pull with ⟨b | _ | _, src⟩
    · simp [Res.mapCtx, RdCtx.counted, BitVec.add_assoc]
    all_goals rfl
  · rw [if_neg h, if_neg h]
    rfl

theorem readBits_counted (n : Word) (w : Nat) : Commutes (RdCtx.counted n) (readBits w) := by
  induction w with
  | zero => exact fun _ => rfl
  | succ w ih => exact ih.andThen fun v => (readBit_counted n).map _

theorem readBytesLE_counted (n : Word) (k : Nat) : Commutes (RdCtx.counted n) (readBytesLE k) := by
  induction k with
  | zero => exact fun _ => rfl
  | succ k ih => exact ih.andThen fun v => (readBits_counted n 8).map _

theorem readVarint_counted (n : Word) (left i v : Nat) : Commutes (RdCtx.counted n) (readVarint left i v) := by
  induction left generalizing i v with
  | zero => exact fun _ => rfl
  | succ left ih =>
    refine (readBits_counted n 8).andThen fun b c => ?_
    split_ifs
    · rfl
    · rfl
    · exact ih _ _ c

theorem decodeHalf_counted (n : Word) (h : Nat) : Commutes (RdCtx.counted n) (decodeHalf h) := fun c => by
  rw [decodeHalf, decodeHalf]
  split_ifs <;> rfl

/-! ### The Writer -/

theorem pushByte_counted (n : Word) (x : Byte) : Commutes (WrCtx.counted n) (pushByte x) := fun c => by
  simp only [pushByte, show (c.counted n).sink = c.sink from rfl]
  rcases c.sink.push x with ⟨_ | _, snk⟩ <;> simp [Res.mapCtx, WrCtx.counted, BitVec.add_assoc]

theorem writeBit_counted (n : Word) (b : Bool) : Commutes (WrCtx.counted n) (writeBit b) := fun c => by
  simp only [writeBit, show (c.counted n).unit.cnt = c.unit.cnt from rfl,
    show (c.counted n).unit.acc = c.unit.acc from rfl]
  split_ifs
  · exact pushByte_counted n _ { c with unit := { c.unit with acc := 0, cnt := 0 } }
  · rfl

theorem writeBits_counted (n : Word) (w v : Nat) : Commutes (WrCtx.counted n) (writeBits w v) := by
  induction w with
  | zero => exact fun _ => rfl
  | succ w ih => exact (writeBit_counted n _).andThen fun _ => ih

theorem writeBytesLE_counted (n : Word) (k v : Nat) : Commutes (WrCtx.counted n) (writeBytesLE k v) := by
  induction k with
  | zero => exact fun _ => rfl
  | succ k ih => exact ih.andThen fun _ => writeBits_counted n 8 _

theorem alignW_counted (n : Word) : Commutes (WrCtx.counted n) alignW := fun c => by
  simp only [alignW, show (c.counted n).unit.cnt = c.unit.cnt from rfl,
    show (c.counted n).unit.acc = c.unit.acc from rfl]
  split_ifs
  · rfl
  · exact pushByte_counted n _ { c with unit := { c.unit with acc := 0, cnt := 0 } }

theorem writeVarint_counted (n : Word) (left i v : Nat) : Commutes (WrCtx.counted n) (writeVarint left i v) := by
  induction left generalizing i with
  | zero => exact writeBits_counted n 8 _
  | succ left ih => exact (writeBits_counted n 8 _).andThen fun _ => ih _

theorem encodeHalf_counted (n : Word) (x : BitVec 32) : Commutes (WrCtx.counted n) (encodeHalf x) := fun c => by
  rw [encodeHalf, encodeHalf]
  split_ifs
  · exact writeBytesLE_counted n 2 _ { c with nanDraws := c.nanDraws + 1 }
  · exact writeBytesLE_counted n 2 _ c

theorem writerBody_counted {n : Word} {body : WrCtx → Res WrCtx Unit} (h : Commutes (WrCtx.counted n) body)
    (aligns : Bool) : Commutes (WrCtx.counted n) (writerBody aligns body) := by
  cases aligns with
  | true => exact (alignW_counted n).andThen fun _ => h
  | false => exact h

end Sys2Proof.Machine
end

