-- ==== Sys2Proof/Laws/Numeric.lean ====
section
/-! SUPPORT. The integer arithmetic of Sys2Proof/Machine/Operands.lean against the exact rationals the spec writes
(00_scope.md R14, R15, 44_variable_width.md R184). -/

namespace Sys2Proof.Machine

/-! ### Exact values as a numerator over a power of two -/

theorem scaled_eq (n k : Nat) : (n : ℚ) * 2 ^ (-(k : ℤ)) = n / 2 ^ k := by
  rw [zpow_neg, zpow_natCast, div_eq_mul_inv]

theorem scaled_cast (m k j : Nat) : ((m * 2 ^ k : Nat) : ℚ) / ((2 ^ j : Nat) : ℚ) = m / 2 ^ j * 2 ^ k := by
  push_cast
  ring

theorem f64Value_eq (x : Word) :
    f64Value x = (if f64Sign x then -1 else 1) * ((f64Mag x : ℚ) / 2 ^ 1074) := by
  rw [f64Value, f64Mag]
  congr 1
  by_cases h : f64Exp x = 0
  · rw [if_pos h, if_pos h]
    exact scaled_eq _ 1074
  · rw [if_neg h, if_neg h]
    obtain ⟨e, he⟩ : ∃ e, f64Exp x = e + 1 := ⟨f64Exp x - 1, by omega⟩
    rw [he, show ((e + 1 : Nat) : ℤ) - 1075 = (e : ℤ) - (1074 : Nat) by push_cast; ring,
      zpow_sub₀ (by norm_num), zpow_natCast, zpow_natCast]
    push_cast
    ring

theorem f32Value_eq (x : BitVec 32) :
    f32Value x = (if f32Sign x then -1 else 1) * ((f32Mag x : ℚ) / 2 ^ 149) := by
  rw [f32Value, f32Mag]
  congr 1
  by_cases h : f32Exp x = 0
  · rw [if_pos h, if_pos h, zpow_neg, div_eq_mul_inv]
    norm_cast
  · rw [if_neg h, if_neg h]
    obtain ⟨e, he⟩ : ∃ e, f32Exp x = e + 1 := ⟨f32Exp x - 1, by omega⟩
    rw [he, show ((e + 1 : Nat) : ℤ) - 150 = (e : ℤ) - (149 : Nat) by push_cast; ring,
      zpow_sub₀ (by norm_num), zpow_natCast, zpow_natCast]
    push_cast
    ring

theorem halfValue_eq (h : Nat) :
    halfValue h = (if f16Sign h then -1 else 1) * ((f16Mag h : ℚ) / 2 ^ 24) := by
  rw [halfValue, f16Mag]
  congr 1
  by_cases hz : f16Exp h = 0
  · rw [if_pos hz, if_pos hz, zpow_neg, div_eq_mul_inv]
    norm_cast
  · rw [if_neg hz, if_neg hz]
    obtain ⟨e, he⟩ : ∃ e, f16Exp h = e + 1 := ⟨f16Exp h - 1, by omega⟩
    rw [he, show ((e + 1 : Nat) : ℤ) - 25 = (e : ℤ) - (24 : Nat) by push_cast; ring,
      zpow_sub₀ (by norm_num), zpow_natCast, zpow_natCast]
    push_cast
    ring

theorem floor_nat_div (n d : Nat) : ⌊(n : ℚ) / d⌋ = ((n / d : Nat) : ℤ) := by
  rw [← Int.natCast_floor_eq_floor (by positivity), Nat.floor_div_eq_div]

theorem trunc0_signed (neg : Bool) (n d : Nat) (hd : 0 < d) :
    trunc0 ((if neg then -1 else 1) * ((n : ℚ) / d)) = if neg then -((n / d : Nat) : ℤ) else ((n / d : Nat) : ℤ) := by
  have h0 : (0 : ℚ) ≤ (n : ℚ) / d := by positivity
  rw [trunc0]
  cases neg with
  | true =>
    simp only [if_true, neg_one_mul]
    split_ifs with h
    · have hz : (n : ℚ) / d = 0 := le_antisymm (by linarith) h0
      have hn : n = 0 := by
        rcases div_eq_zero_iff.1 hz with h | h
        · exact_mod_cast h
        · exact absurd (by exact_mod_cast h) hd.ne'
      simp [hn]
    · rw [Int.ceil_neg, floor_nat_div]
  | false =>
    simp only [Bool.false_eq_true, if_false, one_mul]
    rw [if_pos h0, floor_nat_div]

/-- FXRaw(x, k) is trunc0(value(x)·2^k) (44_variable_width.md R184). -/
theorem fxRaw_eq_trunc0 (x : Word) (k : Nat) : fxRaw x k = trunc0 (f64Value x * 2 ^ k) := by
  have h := trunc0_signed (f64Sign x) (f64Mag x * 2 ^ k) (2 ^ 1074) (Nat.two_pow_pos 1074)
  rw [f64Value_eq, fxRaw, ← h, mul_assoc, scaled_cast]

/-! ### Building a pattern -/

/-- The fields of an exact pattern: where `2^log2 mag` divides `mag·2^fb`, the fraction with its implicit one is the
magnitude shifted into place. -/
theorem ieeeBits_fields {fb eb bias k mag : Nat} {neg : Bool} (hm : mag ≠ 0)
    (hdvd : 2 ^ Nat.log2 mag ∣ mag * 2 ^ fb) :
    ∃ f, f < 2 ^ fb ∧ (2 ^ fb + f) * 2 ^ Nat.log2 mag = mag * 2 ^ fb ∧
      ieeeBits fb eb bias k neg mag =
        (if neg then 2 ^ (fb + eb) else 0) + (Nat.log2 mag + bias - k) * 2 ^ fb + f := by
  obtain ⟨q, hq⟩ := hdvd
  have hle : 2 ^ Nat.log2 mag ≤ mag := Nat.log2_self_le hm
  have hlt : mag < 2 ^ (Nat.log2 mag + 1) := Nat.lt_log2_self
  have hp : 0 < 2 ^ Nat.log2 mag := by positivity
  have hdiv : mag * 2 ^ fb / 2 ^ Nat.log2 mag = q := by rw [hq, Nat.mul_div_cancel_left _ hp]
  have hq1 : 2 ^ fb ≤ q := by
    by_contra h
    rw [not_le] at h
    have : 2 ^ Nat.log2 mag * q < 2 ^ Nat.log2 mag * 2 ^ fb := Nat.mul_lt_mul_of_pos_left h hp
    have : 2 ^ Nat.log2 mag * 2 ^ fb ≤ mag * 2 ^ fb := Nat.mul_le_mul_right _ hle
    omega
  have hq2 : q < 2 * 2 ^ fb := by
    by_contra h
    rw [not_lt] at h
    have h1 : 2 ^ Nat.log2 mag * (2 * 2 ^ fb) ≤ 2 ^ Nat.log2 mag * q := Nat.mul_le_mul_left _ h
    have h2 : mag * 2 ^ fb < 2 ^ (Nat.log2 mag + 1) * 2 ^ fb :=
      Nat.mul_lt_mul_of_pos_right hlt (by positivity)
    rw [pow_succ] at h2
    have : 2 ^ Nat.log2 mag * (2 * 2 ^ fb) = 2 ^ Nat.log2 mag * 2 * 2 ^ fb := by ring
    omega
  refine ⟨q - 2 ^ fb, by omega, ?_, ?_⟩
  · rw [Nat.add_sub_cancel' hq1, hq, Nat.mul_comm]
  · rw [ieeeBits, if_neg hm, hdiv]

theorem log2_le_of_lt {m n : Nat} (h : m < 2 ^ (n + 1)) : Nat.log2 m ≤ n := by
  by_cases hm : m = 0
  · simp [hm]
  · have := (Nat.log2_lt hm).2 h
    omega

/-- The three fields of a binary64 pattern built from them. -/
theorem f64_fields {neg : Bool} {e f : Nat} (he : e < 2 ^ 11) (hf : f < 2 ^ 52) :
    let x := BitVec.ofNat 64 ((if neg then 2 ^ (52 + 11) else 0) + e * 2 ^ 52 + f)
    f64Sign x = neg ∧ f64Exp x = e ∧ f64Frac x = f := by
  intro x
  have hx : x.toNat = (if neg then 2 ^ 63 else 0) + e * 2 ^ 52 + f := by
    simp only [x, BitVec.toNat_ofNat]
    cases neg <;> simp <;> omega
  refine ⟨?_, ?_, ?_⟩
  · rw [f64Sign, BitVec.getLsbD, Nat.testBit_eq_decide_div_mod_eq, hx]
    cases neg
    · simp only [Bool.false_eq_true, if_false, decide_eq_false_iff_not]; omega
    · simp only [if_true, decide_eq_true_eq]; omega
  · rw [f64Exp, hx]
    cases neg <;> simp <;> omega
  · rw [f64Frac, hx]
    cases neg <;> simp <;> omega

/-- The three fields of a binary32 pattern built from them. -/
theorem f32_fields {neg : Bool} {e f : Nat} (he : e < 2 ^ 8) (hf : f < 2 ^ 23) :
    let x := BitVec.ofNat 32 ((if neg then 2 ^ (23 + 8) else 0) + e * 2 ^ 23 + f)
    f32Sign x = neg ∧ f32Exp x = e ∧ f32Frac x = f := by
  intro x
  have hx : x.toNat = (if neg then 2 ^ 31 else 0) + e * 2 ^ 23 + f := by
    simp only [x, BitVec.toNat_ofNat]
    cases neg <;> simp <;> omega
  refine ⟨?_, ?_, ?_⟩
  · rw [f32Sign, BitVec.getLsbD, Nat.testBit_eq_decide_div_mod_eq, hx]
    cases neg
    · simp only [Bool.false_eq_true, if_false, decide_eq_false_iff_not]; omega
    · simp only [if_true, decide_eq_true_eq]; omega
  · rw [f32Exp, hx]
    cases neg <;> simp <;> omega
  · rw [f32Frac, hx]
    cases neg <;> simp <;> omega

/-- `bits64(r / 2^k)` holds exactly `r / 2^k`, for the integers and scales the commands use. -/
theorem bits64_exact {r : ℤ} {k : Nat} (hr : r.natAbs ≤ 2 ^ 31) (hk : k ≤ 16) :
    f64Finite (bits64 r k) = true ∧ f64Value (bits64 r k) = r / 2 ^ k := by
  by_cases h0 : r = 0
  · subst h0
    have : bits64 0 k = 0 := by simp [bits64, ieeeBits]
    rw [this]
    constructor
    · decide
    · simp [f64Value, f64Sign, f64Exp, f64Frac]
  · have hm : r.natAbs ≠ 0 := by omega
    have hlog : Nat.log2 r.natAbs ≤ 31 := log2_le_of_lt (lt_of_le_of_lt hr (by norm_num))
    obtain ⟨f, hf, hfr, hbits⟩ := ieeeBits_fields (fb := 52) (eb := 11) (bias := 1023) (k := k)
      (neg := decide (r < 0)) hm (Dvd.dvd.mul_left (pow_dvd_pow 2 (by omega)) _)
    have he : Nat.log2 r.natAbs + 1023 - k < 2 ^ 11 := by omega
    obtain ⟨hs, hex, hfrac⟩ := f64_fields (neg := decide (r < 0)) he hf
    rw [← hbits] at hs hex hfrac
    change f64Sign (bits64 r k) = _ at hs
    change f64Exp (bits64 r k) = _ at hex
    change f64Frac (bits64 r k) = _ at hfrac
    refine ⟨by simp only [f64Finite, hex, decide_eq_true_eq]; omega, ?_⟩
    rw [f64Value, hs, hex, hfrac, if_neg (show ¬ (Nat.log2 r.natAbs + 1023 - k = 0) by omega)]
    have hfq : ((2 : ℚ) ^ 52 + f) * 2 ^ Nat.log2 r.natAbs = r.natAbs * 2 ^ 52 := by exact_mod_cast hfr
    have hz : ((Nat.log2 r.natAbs + 1023 - k : Nat) : ℤ) - 1075 = (Nat.log2 r.natAbs : ℤ) - ((52 + k : Nat) : ℤ) := by
      omega
    rw [hz, zpow_sub₀ (by norm_num), zpow_natCast, zpow_natCast, pow_add]
    have habs : (if decide (r < 0) = true then (-1 : ℚ) else 1) * r.natAbs = r := by
      by_cases hneg : r < 0
      · simp only [hneg, decide_true, if_true]
        have : ((r.natAbs : ℤ) : ℚ) = ((-r : ℤ) : ℚ) := by congr 1; omega
        rw [← Int.cast_natCast, this]; push_cast; ring
      · simp only [hneg, decide_false, Bool.false_eq_true, if_false, one_mul]
        have : ((r.natAbs : ℤ) : ℚ) = ((r : ℤ) : ℚ) := by congr 1; omega
        rw [← Int.cast_natCast, this]
    have h52 : (2 : ℚ) ^ 52 ≠ 0 := by positivity
    have hkk : (2 : ℚ) ^ k ≠ 0 := by positivity
    calc _ = (if decide (r < 0) = true then (-1 : ℚ) else 1) *
          ((2 ^ 52 + f) * 2 ^ Nat.log2 r.natAbs) / (2 ^ 52 * 2 ^ k) := by ring
      _ = _ := by
        rw [hfq, ← mul_assoc, habs]
        field_simp

/-! ### NaN draws -/

/-- Every draw F16_NAN_DEC is a binary32 NaN (00_scope.md R10). -/
theorem f32NanOf_isNan (d : Bool × Fin 8388607) :
    IsNan32 (BitVec.ofNat 32 (zextWord (f32NanOf d)).toNat) := by
  obtain ⟨b, n, hn⟩ := d
  constructor <;> cases b <;>
    simp only [f32Exp, f32Frac, f32NanOf, zextWord, BitVec.toNat_ofNat] <;> norm_num <;> omega

/-- Every draw F16_NAN_ENC is a Float16 NaN word (00_scope.md R9). -/
theorem f16NanOf_isNan (d : Bool × Fin 1023) : f16NanOf d < 2 ^ 16 ∧ IsNan16 (BitVec.ofNat 16 (f16NanOf d)) := by
  obtain ⟨b, n, hn⟩ := d
  refine ⟨?_, ?_, ?_⟩ <;> cases b <;>
    simp only [f16Exp, f16Frac, f16NanOf, BitVec.toNat_ofNat] <;> norm_num <;> omega

end Sys2Proof.Machine
end

