-- ==== Sys2Proof/Laws/PerInstr.lean ====
section
/-! SUPPORT. What is said of every command, per constructor: family Encoding, the fields of its command word
(30_encoding.md R60). -/

namespace Sys2Proof.Laws.Encoding

/-- The command word of a well-formed command carries its opcode byte and its W field, and its reserved bits
are 0. -/
def Statement (i : Instr) : Prop :=
  i.wf = true →
    reservedOf (encode i) = 0 ∧ bitField (encode i) 0 8 = i.opc ∧ widthOf (encode i) = i.wField

/-- The one fact behind every constructor's lemma. -/
theorem fields_of_word {w opc : Nat} (hw : w < 64) (ho : opc < 256) :
    reservedOf (BitVec.ofNat 64 (w * 256 + opc)) = 0 ∧ bitField (BitVec.ofNat 64 (w * 256 + opc)) 0 8 = opc ∧
      widthOf (BitVec.ofNat 64 (w * 256 + opc)) = w := by
  simp only [reservedOf, widthOf, bitField, BitVec.toNat_ofNat]
  omega

theorem rdInit : Statement .rdInit := fun _ => by decide
theorem rdAlign : Statement .rdAlign := fun _ => by decide
theorem rdU8 : Statement .rdU8 := fun _ => by decide
theorem rdS8 : Statement .rdS8 := fun _ => by decide
theorem rdU16 : Statement .rdU16 := fun _ => by decide
theorem rdS16 : Statement .rdS16 := fun _ => by decide
theorem rdU32 : Statement .rdU32 := fun _ => by decide
theorem rdS32 : Statement .rdS32 := fun _ => by decide
theorem rdU64 : Statement .rdU64 := fun _ => by decide
theorem rdS64 : Statement .rdS64 := fun _ => by decide
theorem rdF32 : Statement .rdF32 := fun _ => by decide
theorem rdF64 : Statement .rdF64 := fun _ => by decide
theorem rdVu32 : Statement .rdVu32 := fun _ => by decide
theorem rdF16 : Statement .rdF16 := fun _ => by decide
theorem rdFx32 : Statement .rdFx32 := fun _ => by decide
theorem rdFx8 : Statement .rdFx8 := fun _ => by decide
theorem rdUb (w : Nat) : Statement (.rdUb w) := fun h =>
  fields_of_word (of_decide_eq_true h) (show Instr.opc (.rdUb w) < 256 by simp [Instr.opc])
theorem rdSb (w : Nat) : Statement (.rdSb w) := fun h =>
  fields_of_word (of_decide_eq_true h) (show Instr.opc (.rdSb w) < 256 by simp [Instr.opc])
theorem rdFb (w : Nat) : Statement (.rdFb w) := fun h =>
  fields_of_word (of_decide_eq_true h) (show Instr.opc (.rdFb w) < 256 by simp [Instr.opc])
theorem wrInit : Statement .wrInit := fun _ => by decide
theorem wrAlign : Statement .wrAlign := fun _ => by decide
theorem wrU8 : Statement .wrU8 := fun _ => by decide
theorem wrS8 : Statement .wrS8 := fun _ => by decide
theorem wrU16 : Statement .wrU16 := fun _ => by decide
theorem wrS16 : Statement .wrS16 := fun _ => by decide
theorem wrU32 : Statement .wrU32 := fun _ => by decide
theorem wrS32 : Statement .wrS32 := fun _ => by decide
theorem wrU64 : Statement .wrU64 := fun _ => by decide
theorem wrS64 : Statement .wrS64 := fun _ => by decide
theorem wrF32 : Statement .wrF32 := fun _ => by decide
theorem wrF64 : Statement .wrF64 := fun _ => by decide
theorem wrVu32 : Statement .wrVu32 := fun _ => by decide
theorem wrF16 : Statement .wrF16 := fun _ => by decide
theorem wrFx32 : Statement .wrFx32 := fun _ => by decide
theorem wrFx8 : Statement .wrFx8 := fun _ => by decide
theorem wrUb (w : Nat) : Statement (.wrUb w) := fun h =>
  fields_of_word (of_decide_eq_true h) (show Instr.opc (.wrUb w) < 256 by simp [Instr.opc])
theorem wrSb (w : Nat) : Statement (.wrSb w) := fun h =>
  fields_of_word (of_decide_eq_true h) (show Instr.opc (.wrSb w) < 256 by simp [Instr.opc])
theorem wrFb (w : Nat) : Statement (.wrFb w) := fun h =>
  fields_of_word (of_decide_eq_true h) (show Instr.opc (.wrFb w) < 256 by simp [Instr.opc])
theorem szVu32 : Statement .szVu32 := fun _ => by decide
theorem szUb : Statement .szUb := fun _ => by decide
theorem szSb : Statement .szSb := fun _ => by decide
theorem szFb : Statement .szFb := fun _ => by decide

end Sys2Proof.Laws.Encoding
end

