-- ==== Sys2Proof/Laws/Whole.lean ====
section
/-! SUPPORT. What holds of every command, said once: what a body moves on its stream (20_memory.md R59,
40_command_cycle.md R94, R96), and that every command but the two INITs is one of the three cycles. -/

namespace Sys2Proof.Machine

/-! ### What a Reader body moves -/

/-- `x` is a Reader body run from `c` that pulled at most `n` bytes, counted them all, gave back no draw (00_scope.md
R19), and, where it raised, raised a stream error with the unit byte-aligned. -/
structure RdMoves {α : Type} (n : Nat) (c : RdCtx) (x : Res RdCtx α) : Prop where
  moved : ∃ bs : List Byte, bs.length ≤ n ∧ x.ctx.source.pulled = c.source.pulled ++ bs ∧
    x.ctx.delta = c.delta + bs.length ∧ x.ctx.unit.total = c.unit.total + BitVec.ofNat 64 bs.length
  asked : ∃ k, x.ctx.source = sourceAfter k c.source ∧ x.ctx.source.asked = c.source.asked + k
  err : x.ctx.unit.err = c.unit.err
  raised : ∀ v c', x = .raised v c' → c'.unit.cnt = 0 ∧ v.latches = true
  draws : c.nanDraws ≤ x.ctx.nanDraws

theorem sourceAfter_add (j k : Nat) (src : Source) : sourceAfter (j + k) src = sourceAfter k (sourceAfter j src) := by
  induction j generalizing src with
  | zero => simp [sourceAfter]
  | succ j ih => rw [Nat.add_right_comm, sourceAfter, sourceAfter, ih]

theorem Source.takeBytes_sourceAfter {n : Nat} {src src' : Source} {bs : List Byte}
    (h : src.takeBytes n = some (bs, src')) : src' = sourceAfter n src ∧ src'.asked = src.asked + n := by
  induction n generalizing src bs with
  | zero => simp [Source.takeBytes] at h; simp [← h.2, sourceAfter]
  | succ n ih =>
    rw [takeBytes_succ] at h
    split at h
    · rename_i b t hp
      simp only [Option.map_eq_some_iff, Prod.exists, Prod.mk.injEq] at h
      obtain ⟨as, u, hu, rfl, rfl⟩ := h
      have ht : t = src.pull.2 := by rw [hp]
      have ha : t.asked = src.asked + 1 := by rw [ht]; rfl
      refine ⟨by rw [sourceAfter, ← ht]; exact (ih hu).1, by rw [(ih hu).2, ha]; omega⟩
    all_goals simp at h

theorem RdMoves.of_done {α : Type} {n k : Nat} {c : RdCtx} {a : α} {bs : List Byte} {left : Nat} {src : Source}
    (h : c.source.takeBytes k = some (bs, src)) (hk : k ≤ n) :
    RdMoves n c (Res.done a (c.pulling bs left src) : Res RdCtx α) := by
  obtain ⟨h1, h2⟩ := Source.takeBytes_sourceAfter h
  exact ⟨⟨bs, by rw [Source.takeBytes_length h]; exact hk, Source.takeBytes_pulled h, rfl, rfl⟩,
    ⟨k, h1, h2⟩, rfl, by simp, le_rfl⟩

theorem stopVerdict_latches {a : SrcAnswer} {d : Nat} (h : ∀ b, a ≠ .byte b) : (stopVerdict a d).latches = true := by
  cases a with
  | byte b => exact absurd rfl (h b)
  | endOfData => rw [stopVerdict]; split_ifs <;> rfl
  | fail => rfl

theorem RdMoves.of_stop {α : Type} {n j d : Nat} {c : RdCtx} {a : SrcAnswer} {bs : List Byte} {t src : Source}
    (h : c.source.takeBytes j = some (bs, t)) (hp : t.pull = (a, src)) (ha : ∀ b, a ≠ .byte b) (hj : j ≤ n) :
    RdMoves n c (Res.raised (stopVerdict a d) (c.pulling bs 0 src) : Res RdCtx α) := by
  obtain ⟨h1, h2⟩ := Source.takeBytes_sourceAfter h
  have hs : src = t.pull.2 := by rw [hp]
  refine ⟨⟨bs, by rw [Source.takeBytes_length h]; exact hj, ?_, rfl, rfl⟩,
    ⟨j + 1, ?_, ?_⟩, rfl, ?_, le_rfl⟩
  · rw [← Source.takeBytes_pulled h, ← Source.pull_stop_pulled hp ha]
    rfl
  · rw [sourceAfter_add, ← h1]
    exact hs
  · rw [← Nat.add_assoc, ← h2]
    change src.asked = _
    rw [hs]
    rfl
  · rintro v c' h
    cases h
    exact ⟨rfl, stopVerdict_latches ha⟩

theorem RdMoves.map {α β : Type} {n : Nat} {c : RdCtx} {x : Res RdCtx α} (f : α → β) (h : RdMoves n c x) :
    RdMoves n c (x.map f) := by
  rcases x with ⟨a, d⟩ | ⟨v, d⟩
  · exact ⟨h.moved, h.asked, h.err, by simp [Res.map], h.draws⟩
  · exact ⟨h.moved, h.asked, h.err, fun v' c' hx => h.raised v' c' (by cases hx; rfl), h.draws⟩

theorem RdMoves.andThen {α β : Type} {n m : Nat} {c : RdCtx} {x : Res RdCtx α} {f : α → RdCtx → Res RdCtx β}
    (h : RdMoves n c x) (hf : ∀ a d, x = .done a d → RdMoves m d (f a d)) : RdMoves (n + m) c (x.andThen f) := by
  rcases x with ⟨a, d⟩ | ⟨v, d⟩
  · obtain ⟨bs, h1, h2, h3, h4⟩ := h.moved
    obtain ⟨k, h5, h6⟩ := h.asked
    have hd := hf a d rfl
    obtain ⟨cs, g1, g2, g3, g4⟩ := hd.moved
    obtain ⟨l, g5, g6⟩ := hd.asked
    simp only [Res.ctx] at h2 h3 h4 h5 h6
    refine ⟨⟨bs ++ cs, by rw [List.length_append]; omega, ?_, ?_, ?_⟩, ⟨k + l, ?_, ?_⟩, hd.err.trans h.err, hd.raised,
      h.draws.trans hd.draws⟩
    · rw [Res.andThen, g2, h2, List.append_assoc]
    · rw [Res.andThen, g3, h3, List.length_append, Nat.add_assoc]
    · rw [Res.andThen, g4, h4, List.length_append, BitVec.ofNat_add, ← BitVec.add_assoc]
    · rw [Res.andThen, g5, h5, sourceAfter_add]
    · rw [Res.andThen, g6, h6, Nat.add_assoc]
  · obtain ⟨bs, h1, h2⟩ := h.moved
    exact ⟨⟨bs, by omega, h2⟩, h.asked, h.err, fun v' c' hx => h.raised v' c' (by cases hx; rfl), h.draws⟩

theorem RdMoves.mono {α : Type} {n m : Nat} {c : RdCtx} {x : Res RdCtx α} (h : RdMoves n c x) (hnm : n ≤ m) :
    RdMoves m c x := by
  obtain ⟨bs, h1, h2⟩ := h.moved
  exact ⟨⟨bs, by omega, h2⟩, h.asked, h.err, h.raised, h.draws⟩

/-- A body that touches neither source nor counters, whatever it draws. -/
theorem RdMoves.still {α : Type} {c d : RdCtx} {a : α} (hs : d.source = c.source) (hd : d.delta = c.delta)
    (ht : d.unit.total = c.unit.total) (he : d.unit.err = c.unit.err) (hn : c.nanDraws ≤ d.nanDraws) :
    RdMoves 0 c (Res.done a d : Res RdCtx α) :=
  ⟨⟨[], by simp, by simp [Res.ctx, hs], by simp [Res.ctx, hd], by simp [Res.ctx, ht]⟩,
    ⟨0, by simp [Res.ctx, hs, sourceAfter], by simp [Res.ctx, hs]⟩, he, by simp, hn⟩

theorem readBits_moves (w : Nat) (c : RdCtx) : RdMoves (bytesNeeded w c.unit.cnt) c (readBits w c) := by
  rcases Source.takeBytes_or_stops (bytesNeeded w c.unit.cnt) c.source with ⟨bs, src, h⟩ | ⟨j, hj, bs, t, a, src, h, hp, ha⟩
  · rw [readBits_done h]
    exact .of_done h le_rfl
  · rw [readBits_stop hj h hp ha]
    exact .of_stop h hp ha (by omega)

theorem readBytesLE_moves {k : Nat} {c : RdCtx} (h0 : c.unit.cnt = 0) : RdMoves k c (readBytesLE k c) := by
  rcases Source.takeBytes_or_stops k c.source with ⟨bs, src, h⟩ | ⟨j, hj, bs, t, a, src, h, hp, ha⟩
  · rw [readBytesLE_done h0 h]
    exact .of_done h le_rfl
  · rw [readBytesLE_stop h0 hj h hp ha]
    exact .of_stop h hp ha (by omega)

theorem readBits8_cnt {c d : RdCtx} {b : Nat} (h0 : c.unit.cnt = 0) (h : readBits 8 c = .done b d) :
    d.unit.cnt = 0 ∧ b < 256 := by
  rcases hp : c.source.pull with ⟨a, src⟩
  cases a with
  | byte x =>
    rw [readBits8_done h0 hp] at h
    cases h
    exact ⟨rfl, x.isLt⟩
  | endOfData => rw [readBits8_stop h0 hp (by simp)] at h; cases h
  | fail => rw [readBits8_stop h0 hp (by simp)] at h; cases h

theorem readVarint_moves {left i v : Nat} {c : RdCtx} (h0 : c.unit.cnt = 0) :
    RdMoves left c (readVarint left i v c) := by
  induction left generalizing i v c with
  | zero =>
    exact ⟨⟨[], by simp [readVarint, Res.ctx]⟩, ⟨0, by simp [readVarint, Res.ctx, sourceAfter]⟩, rfl, by
      rintro v c' h
      cases h
      exact ⟨h0, rfl⟩, le_rfl⟩
  | succ left ih =>
    rw [readVarint, Nat.add_comm left 1]
    have h1 : RdMoves 1 c (readBits 8 c) := by simpa [bytesNeeded, h0] using readBits_moves 8 c
    refine h1.andThen fun b d hd => ?_
    have hc := (readBits8_cnt h0 hd).1
    split_ifs
    · exact ⟨⟨[], by simp [Res.ctx]⟩, ⟨0, by simp [Res.ctx, sourceAfter]⟩, rfl, by
        rintro v c' h
        cases h
        exact ⟨hc, rfl⟩, le_rfl⟩
    · exact (RdMoves.still rfl rfl rfl rfl le_rfl).mono (by omega)
    · exact ih hc

/-! ### What a Writer body moves -/

/-- `x` is a Writer body run from `c` in which the sink took at most `n` bytes, all counted, and no draw and no
offer was given back (00_scope.md R19); where it raised, it raised IO_ERROR(1) with nothing pending. -/
structure WrMoves {α : Type} (n : Nat) (c : WrCtx) (x : Res WrCtx α) : Prop where
  moved : ∃ bs : List Byte, bs.length ≤ n ∧ x.ctx.sink.taken = c.sink.taken ++ bs ∧
    x.ctx.delta = c.delta + bs.length ∧ x.ctx.unit.total = c.unit.total + BitVec.ofNat 64 bs.length ∧
    (∃ t, c.sink.takes bs = some t ∧
      (x.ctx.sink = t ∨ (∃ v c', x = .raised v c') ∧ ∃ b, t.push b = (.fail, x.ctx.sink)))
  err : x.ctx.unit.err = c.unit.err
  raised : ∀ v c', x = .raised v c' → c'.unit.cnt = 0 ∧ c'.unit.acc = 0 ∧ v = .transport
  draws : c.nanDraws ≤ x.ctx.nanDraws
  offered : c.sink.offered ≤ x.ctx.sink.offered

theorem WrMoves.of_done {α : Type} {n : Nat} {c : WrCtx} {a : α} {bs : List Byte} {x : Byte} {l : Nat} {snk : Sink}
    (h : c.sink.takes bs = some snk) (hn : bs.length ≤ n) :
    WrMoves n c (Res.done a (c.flushing bs x l snk) : Res WrCtx α) :=
  ⟨⟨bs, hn, Sink.takes_taken h, rfl, rfl, snk, h, .inl rfl⟩, rfl, by simp, le_rfl, Sink.takes_offered h⟩

theorem WrMoves.of_fail {α : Type} {n : Nat} {c : WrCtx} {as : List Byte} {b : Byte} {t snk : Sink}
    (h : c.sink.takes as = some t) (hp : t.push b = (.fail, snk)) (hn : as.length ≤ n) :
    WrMoves n c (Res.raised .transport (c.flushing as 0 0 snk) : Res WrCtx α) := by
  refine ⟨⟨as, hn, ?_, rfl, rfl, t, h, .inr ⟨⟨_, _, rfl⟩, b, hp⟩⟩, rfl, ?_, le_rfl,
    (Sink.takes_offered h).trans (Sink.push_offered hp)⟩
  · rw [← Sink.takes_taken h, ← Sink.push_fail_taken hp]
    rfl
  · rintro v c' h
    cases h
    exact ⟨rfl, rfl, rfl⟩

theorem WrMoves.andThen {α β : Type} {n m : Nat} {c : WrCtx} {x : Res WrCtx α} {f : α → WrCtx → Res WrCtx β}
    (h : WrMoves n c x) (hf : ∀ a d, x = .done a d → WrMoves m d (f a d)) : WrMoves (n + m) c (x.andThen f) := by
  rcases x with ⟨a, d⟩ | ⟨v, d⟩
  · obtain ⟨bs, h1, h2, h3, h4, t, h5, h6⟩ := h.moved
    have hd := hf a d rfl
    obtain ⟨cs, g1, g2, g3, g4, u, g5, g6⟩ := hd.moved
    simp only [Res.ctx] at h2 h3 h4 h6
    have h6 : d.sink = t := by
      rcases h6 with h6 | ⟨⟨_, _, h6⟩, -⟩
      · exact h6
      · cases h6
    refine ⟨⟨bs ++ cs, by rw [List.length_append]; omega, ?_, ?_, ?_, u, ?_, g6⟩, hd.err.trans h.err, hd.raised,
      h.draws.trans hd.draws, h.offered.trans hd.offered⟩
    · rw [Res.andThen, g2, h2, List.append_assoc]
    · rw [Res.andThen, g3, h3, List.length_append, Nat.add_assoc]
    · rw [Res.andThen, g4, h4, List.length_append, BitVec.ofNat_add, ← BitVec.add_assoc]
    · exact Sink.takes_append.2 ⟨t, h5, h6 ▸ g5⟩
  · obtain ⟨bs, h1, h2, h3, h4, t, h5, h6⟩ := h.moved
    refine ⟨⟨bs, by omega, h2, h3, h4, t, h5, ?_⟩, h.err, fun v' c' hx => h.raised v' c' (by cases hx; rfl),
      h.draws, h.offered⟩
    rcases h6 with h6 | ⟨-, b, h6⟩
    · exact .inl h6
    · exact .inr ⟨⟨v, d, rfl⟩, b, h6⟩

theorem WrMoves.mono {α : Type} {n m : Nat} {c : WrCtx} {x : Res WrCtx α} (h : WrMoves n c x) (hnm : n ≤ m) :
    WrMoves m c x := by
  obtain ⟨bs, h1, h2⟩ := h.moved
  exact ⟨⟨bs, by omega, h2⟩, h.err, h.raised, h.draws, h.offered⟩

theorem beBytes_length (k v : Nat) : (beBytes k v).length = k := by
  induction k with
  | zero => rfl
  | succ k ih => simp [beBytes, ih]

theorem writeBits_moves (w v : Nat) (c : WrCtx) : WrMoves ((c.unit.cnt.toNat + w) / 8) c (writeBits w v c) := by
  have hl : (flushedBy w v c.unit).length = (c.unit.cnt.toNat + w) / 8 := beBytes_length _ _
  rcases Sink.takes_or_refuses (flushedBy w v c.unit) c.sink with ⟨t, h⟩ | ⟨as, b, cs, t, t', hf, h, hp⟩
  · rw [writeBits_done h]
    exact .of_done h hl.le
  · rw [writeBits_fail hf h hp]
    refine .of_fail h hp ?_
    have := congrArg List.length hf
    simp only [List.length_append, List.length_cons] at this
    omega

theorem writeBytesLE_moves {k v : Nat} {c : WrCtx} (h0 : c.unit.cnt = 0) (hk : k ≠ 0) :
    WrMoves k c (writeBytesLE k v c) := by
  rcases Sink.takes_or_refuses (leBytes k v) c.sink with ⟨t, h⟩ | ⟨as, b, cs, t, t', hf, h, hp⟩
  · rw [writeBytesLE_done h0 h hk]
    exact .of_done h (by simp)
  · rw [writeBytesLE_fail h0 hf h hp]
    refine .of_fail h hp ?_
    have := congrArg List.length hf
    simp only [List.length_append, List.length_cons, leBytes_length] at this
    omega

theorem padding_length (u : Writer) : (padding u).length ≤ 1 := by
  rw [padding]; split_ifs <;> simp

theorem alignW_moves (c : WrCtx) : WrMoves 1 c (alignW c) := by
  have hl := padding_length c.unit
  rcases Sink.takes_or_refuses (padding c.unit) c.sink with ⟨t, h⟩ | ⟨as, b, cs, t, t', hf, h, hp⟩
  · rw [alignW_done h]
    exact .of_done h hl
  · rw [alignW_fail hf h hp]
    refine .of_fail h hp ?_
    have := congrArg List.length hf
    simp only [List.length_append, List.length_cons] at this
    omega

theorem alignW_cnt {c d : WrCtx} (h : alignW c = .done () d) : d.unit.cnt = 0 := by
  rcases Sink.takes_or_refuses (padding c.unit) c.sink with ⟨t, h1⟩ | ⟨as, b, cs, t, t', hf, h1, hp⟩
  · rw [alignW_done h1] at h
    cases h
    rfl
  · rw [alignW_fail hf h1 hp] at h
    cases h

theorem varintTail_length (left i v : Nat) : (varintTail left i v).length = left + 1 := by
  induction left generalizing i with
  | zero => rfl
  | succ left ih => simp [varintTail, ih]

theorem writeVarint_moves {left i v : Nat} {c : WrCtx} (h0 : c.unit.cnt = 0) :
    WrMoves (left + 1) c (writeVarint left i v c) := by
  rcases Sink.takes_or_refuses (varintTail left i v) c.sink with ⟨t, h⟩ | ⟨as, b, cs, t, t', hf, h, hp⟩
  · rw [writeVarint_done h0 h]
    exact .of_done h (varintTail_length _ _ _).le
  · rw [writeVarint_fail h0 hf h hp]
    refine .of_fail h hp ?_
    have := congrArg List.length hf
    simp only [List.length_append, List.length_cons, varintTail_length] at this
    omega

/-- The implicit align and a body after it. -/
theorem writerBody_aligned {n : Nat} {body : WrCtx → Res WrCtx Unit} (c : WrCtx)
    (h : ∀ d : WrCtx, d.unit.cnt = 0 → WrMoves n d (body d)) : WrMoves (1 + n) c (writerBody true body c) :=
  (alignW_moves c).andThen fun _ d hd => h d (alignW_cnt hd)

theorem readBits_cnt {w : Nat} {c d : RdCtx} {a : Nat} (h : readBits w c = .done a d) :
    d.unit.cnt.toNat = bitsLeft w c.unit.cnt := by
  rcases Source.takeBytes_or_stops (bytesNeeded w c.unit.cnt) c.source with ⟨bs, src, h1⟩ | ⟨j, hj, bs, t, x, src, h1, hp, ha⟩
  · rw [readBits_done h1] at h
    cases h
    exact Nat.mod_eq_of_lt (bitsLeft_lt _ _)
  · rw [readBits_stop hj h1 hp ha] at h
    cases h

theorem readBytesLE_cnt {k a : Nat} {c d : RdCtx} (h0 : c.unit.cnt = 0) (h : readBytesLE k c = .done a d) :
    d.unit.cnt = 0 := by
  rcases Source.takeBytes_or_stops k c.source with ⟨bs, src, h1⟩ | ⟨j, hj, bs, t, x, src, h1, hp, ha⟩
  · rw [readBytesLE_done h0 h1] at h
    cases h
    rfl
  · rw [readBytesLE_stop h0 hj h1 hp ha] at h
    cases h

theorem readVarint_cnt {left i v a : Nat} {c d : RdCtx} (h0 : c.unit.cnt = 0)
    (h : readVarint left i v c = .done a d) : d.unit.cnt = 0 := by
  induction left generalizing i v c with
  | zero => cases h
  | succ left ih =>
    rw [readVarint] at h
    rcases hb : readBits 8 c with ⟨b, e⟩ | ⟨x, e⟩
    · have he := (readBits8_cnt h0 hb).1
      rw [hb, Res.andThen_done] at h
      split_ifs at h
      · cases h
        exact he
      · exact ih he h
    · rw [hb] at h
      cases h

theorem accAfter_lt {w v : Nat} {u : Writer} (h : u.acc.toNat < 2 ^ u.cnt.toNat) :
    (accAfter w v u).toNat < 2 ^ ((u.cnt.toNat + w) % 8) := by
  rw [accAfter, BitVec.toNat_ofNat]
  refine lt_of_le_of_lt (Nat.mod_le _ _) ?_
  split_ifs with h8
  · rw [Nat.mod_eq_of_lt h8, pendingThen, pow_add]
    have h1 : v % 2 ^ w < 2 ^ w := Nat.mod_lt _ (by positivity)
    have h2 : (u.acc.toNat + 1) * 2 ^ w ≤ 2 ^ u.cnt.toNat * 2 ^ w := Nat.mul_le_mul_right _ h
    rw [Nat.add_mul, Nat.one_mul] at h2
    omega
  · exact Nat.mod_lt _ (by positivity)

theorem writeBits_left {w v : Nat} {c d : WrCtx} (h : writeBits w v c = .done () d) :
    d.unit.cnt.toNat = (c.unit.cnt.toNat + w) % 8 ∧ d.unit.acc = accAfter w v c.unit := by
  rcases Sink.takes_or_refuses (flushedBy w v c.unit) c.sink with ⟨t, h1⟩ | ⟨as, b, cs, t, t', hf, h1, hp⟩
  · rw [writeBits_done h1] at h
    cases h
    exact ⟨Nat.mod_eq_of_lt (Nat.mod_lt _ (by decide)), rfl⟩
  · rw [writeBits_fail hf h1 hp] at h
    cases h

/-- A Writer body that ends with nothing pending. -/
def Empties (body : WrCtx → Res WrCtx Unit) : Prop :=
  ∀ c d : WrCtx, c.unit.cnt = 0 → body c = .done () d → d.unit.cnt = 0 ∧ d.unit.acc = 0

theorem writeBytesLE_empties {k v : Nat} (hk : k ≠ 0) : Empties (writeBytesLE k v) := fun c d h0 h => by
  rcases Sink.takes_or_refuses (leBytes k v) c.sink with ⟨t, h1⟩ | ⟨as, b, cs, t, t', hf, h1, hp⟩
  · rw [writeBytesLE_done h0 h1 hk] at h
    cases h
    exact ⟨rfl, rfl⟩
  · rw [writeBytesLE_fail h0 hf h1 hp] at h
    cases h

theorem writeVarint_empties {left i v : Nat} : Empties (writeVarint left i v) := fun c d h0 h => by
  rcases Sink.takes_or_refuses (varintTail left i v) c.sink with ⟨t, h1⟩ | ⟨as, b, cs, t, t', hf, h1, hp⟩
  · rw [writeVarint_done h0 h1] at h
    cases h
    exact ⟨rfl, rfl⟩
  · rw [writeVarint_fail h0 hf h1 hp] at h
    cases h

theorem encodeHalf_empties (x : BitVec 32) : Empties (encodeHalf x) := fun c d h0 h => by
  rw [encodeHalf] at h
  split_ifs at h
  · exact writeBytesLE_empties (by decide) { c with nanDraws := c.nanDraws + 1 } d h0 h
  · exact writeBytesLE_empties (by decide) c d h0 h

theorem writerBody_empties {body : WrCtx → Res WrCtx Unit} (hb : Empties body) {c d : WrCtx}
    (h : writerBody true body c = .done () d) : d.unit.cnt = 0 ∧ d.unit.acc = 0 := by
  change (alignW c).andThen _ = _ at h
  rcases ha : alignW c with ⟨_, e⟩ | ⟨v, e⟩
  · rw [ha, Res.andThen_done] at h
    exact hb e d (alignW_cnt ha) h
  · rw [ha] at h
    cases h

theorem alignW_fits {c d : WrCtx} (hf : c.unit.acc.toNat < 2 ^ c.unit.cnt.toNat) (h : alignW c = .done () d) :
    d.unit.acc.toNat < 2 ^ d.unit.cnt.toNat := by
  rcases Sink.takes_or_refuses (padding c.unit) c.sink with ⟨t, h1⟩ | ⟨as, b, cs, t, t', hf, h1, hp⟩
  · rw [alignW_done h1] at h
    cases h
    by_cases h0 : c.unit.cnt = 0
    · simpa [h0] using hf
    · rw [WrCtx.flushing_unit, if_neg h0]
      simp
  · rw [alignW_fail hf h1 hp] at h
    cases h

/-! ### Every command is one of the three cycles, or an INIT -/

/-- The verdicts an operand check can give (40_command_cycle.md R81). -/
def Verdict.isCheck (v : Verdict) : Prop := v = .badWidth ∨ v = .badValue ∨ v = .nonFinite

theorem checkWidth_isCheck {w : Nat} {v : Verdict} (h : checkWidth w = some v) : v.isCheck := by
  rw [checkWidth] at h
  split_ifs at h
  cases h
  exact .inl rfl

theorem checkValue_isCheck {b : Bool} {v : Verdict} (h : checkValue b = some v) : v.isCheck := by
  rw [checkValue] at h
  split_ifs at h
  cases h
  exact .inr (.inl rfl)

theorem checkFinite_isCheck {x : Word} {v : Verdict} (h : checkFinite x = some v) : v.isCheck := by
  rw [checkFinite] at h
  split_ifs at h
  cases h
  exact .inr (.inr rfl)

theorem firstFailure_isCheck {a b : Option Verdict} {v : Verdict} (ha : ∀ v, a = some v → v.isCheck)
    (hb : ∀ v, b = some v → v.isCheck) (h : firstFailure a b = some v) : v.isCheck := by
  cases a with
  | none => exact hb v h
  | some w => exact ha v h

theorem none_of_firstFailure {a b : Option Verdict} (h : firstFailure a b = none) : a = none ∧ b = none := by
  cases a <;> simp_all [firstFailure]

theorem checkWidth_none {w : Nat} (h : checkWidth w = none) : w ≤ 32 := by
  by_contra hw
  simp [checkWidth, hw] at h

/-- A Reader command: one check and one body, neither of which looks outside the Reader. -/
structure IsReaderCycle (i : Instr) (check : Option Verdict) (aligns : Bool)
    (body : RdCtx → Res RdCtx (Option Word)) : Prop where
  exec_eq : ∀ s, exec i s = readerCycle check aligns body s
  rejects : ∀ v, check = some v → v.isCheck
  moves : check = none → ∀ c : RdCtx, (aligns = true → c.unit.cnt = 0) → RdMoves 9 c (body c)
  result : ∀ c x d, body c = .done x d → (x.isSome = true ↔ 2 ≤ i.opc % 64)
  cnt : ∀ (c : RdCtx) x d, (aligns = true → c.unit.cnt = 0) → body c = .done x d →
    d.unit.cnt.toNat = if i.takesWidth then bitsLeft i.wField c.unit.cnt else 0
  width : i.takesWidth = true → aligns = false
  counted : ∀ n, Commutes (RdCtx.counted n) body

/-- A Writer command: the check and the body look at DIN and the Writer only. -/
structure IsWriterCycle (i : Instr) (check : Word → Option Verdict) (aligns : Bool)
    (body : Word → WrCtx → Res WrCtx Unit) : Prop where
  exec_eq : ∀ s, exec i s = writerCycle (decide (2 ≤ i.opc % 64)) (check s.din) aligns (body s.din) s
  rejects : ∀ x v, check x = some v → v.isCheck
  moves : ∀ x, check x = none → ∀ c, WrMoves 9 c (writerBody aligns (body x) c)
  cnt : ∀ x (c d : WrCtx), writerBody aligns (body x) c = .done () d →
    d.unit.cnt.toNat = if i.takesWidth then (c.unit.cnt.toNat + i.wField) % 8 else 0
  fits : ∀ x (c d : WrCtx), c.unit.acc.toNat < 2 ^ c.unit.cnt.toNat → writerBody aligns (body x) c = .done () d →
    d.unit.acc.toNat < 2 ^ d.unit.cnt.toNat
  counted : ∀ x n, Commutes (WrCtx.counted n) (writerBody aligns (body x))

/-- A size command looks at DIN only. -/
structure IsSizeCycle (i : Instr) (check : Word → Option Verdict) (size : Word → Nat) : Prop where
  exec_eq : ∀ s, exec i s = sizeCycle (check s.din) (size s.din) s
  rejects : ∀ x v, check x = some v → v.isCheck

theorem readFixed_isCycle {i : Instr} {k : Nat} {format : Nat → Word} (h : ∀ s, exec i s = readFixed k format s)
    (hk : k ≤ 9) (ho : 2 ≤ i.opc % 64 ∧ i.takesWidth = false) :
    IsReaderCycle i none true (fun c => (readBytesLE k c).map fun v => some (format v)) where
  counted := fun n => (readBytesLE_counted n k).map _
  exec_eq := h
  rejects := by simp
  moves := fun _ c hc => ((readBytesLE_moves (hc rfl)).map _).mono hk
  result := fun c x d hd => by
    rcases hx : readBytesLE k c with ⟨a, e⟩ | ⟨v, e⟩ <;> rw [hx] at hd <;> simp [Res.map] at hd
    simp [← hd.1, ho]
  cnt := fun c x d h0 hd => by
    rcases hx : readBytesLE k c with ⟨a, e⟩ | ⟨v, e⟩ <;> rw [hx] at hd <;> simp [Res.map] at hd
    simp [← hd.2, ho, readBytesLE_cnt (h0 rfl) hx]
  width := by simp [ho]

theorem readField_isCycle {i : Instr} {w : Nat} {format : Nat → Word} (h : ∀ s, exec i s = readField w format s)
    (ho : 2 ≤ i.opc % 64 ∧ i.takesWidth = true ∧ i.wField = w) :
    IsReaderCycle i (checkWidth w) false (fun c => (readBits w c).map fun v => some (format v)) where
  counted := fun n => (readBits_counted n w).map _
  exec_eq := h
  rejects := fun _ => checkWidth_isCheck
  moves := fun hc c _ => ((readBits_moves w c).map _).mono (by
    have := checkWidth_none hc
    have := c.unit.cnt.isLt
    simp only [bytesNeeded]
    omega)
  result := fun c x d hd => by
    rcases hx : readBits w c with ⟨a, e⟩ | ⟨v, e⟩ <;> rw [hx] at hd <;> simp [Res.map] at hd
    simp [← hd.1, ho]
  cnt := fun c x d _ hd => by
    rcases hx : readBits w c with ⟨a, e⟩ | ⟨v, e⟩ <;> rw [hx] at hd <;> simp [Res.map] at hd
    simp [← hd.2, ho, readBits_cnt hx]
  width := fun _ => rfl

theorem writeBytes_isCycle {i : Instr} {k : Nat} {check : Word → Option Verdict} {f : Word → Nat}
    (h : ∀ s, exec i s = writerCycle true (check s.din) true (writeBytesLE k (f s.din)) s)
    (hc : ∀ x v, check x = some v → v.isCheck) (hk : k ≤ 8 ∧ k ≠ 0) (ho : 2 ≤ i.opc % 64 ∧ i.takesWidth = false) :
    IsWriterCycle i check true (fun x => writeBytesLE k (f x)) where
  counted := fun _ n => writerBody_counted (writeBytesLE_counted n k _) true
  exec_eq := fun s => by rw [h, decide_eq_true ho.1]
  rejects := hc
  cnt := fun _ _ _ hd => by simp [ho, (writerBody_empties (writeBytesLE_empties hk.2) hd).1]
  fits := fun _ _ _ _ hd => by simp [writerBody_empties (writeBytesLE_empties hk.2) hd]
  moves := fun _ _ c => (writerBody_aligned c fun _ hd => writeBytesLE_moves hd hk.2).mono (by omega)

theorem writeBits_isCycle {i : Instr} {w : Nat} {check : Word → Option Verdict} {f : Word → Nat}
    (h : ∀ s, exec i s = writerCycle true (firstFailure (checkWidth w) (check s.din)) false (writeBits w (f s.din)) s)
    (hc : ∀ x v, check x = some v → v.isCheck)
    (ho : 2 ≤ i.opc % 64 ∧ i.takesWidth = true ∧ i.wField = w) :
    IsWriterCycle i (fun x => firstFailure (checkWidth w) (check x)) false (fun x => writeBits w (f x)) where
  counted := fun _ n => writerBody_counted (writeBits_counted n w _) false
  exec_eq := fun s => by rw [h, decide_eq_true ho.1]
  cnt := fun _ _ _ hd => by rw [if_pos ho.2.1, ho.2.2]; exact (writeBits_left hd).1
  fits := fun _ _ _ hf hd => by
    obtain ⟨h1, h2⟩ := writeBits_left hd
    rw [h1, h2]
    exact accAfter_lt hf
  rejects := fun x _ => firstFailure_isCheck (fun _ => checkWidth_isCheck) (hc x)
  moves := fun _ hn c => (writeBits_moves w _ c).mono (by
    have := checkWidth_none (none_of_firstFailure hn).1
    have := c.unit.cnt.isLt
    omega)

theorem decodeHalf_moves (h : Nat) (c : RdCtx) : RdMoves 0 c (decodeHalf h c) := by
  rw [decodeHalf]
  split_ifs
  · exact RdMoves.still rfl rfl rfl rfl (Nat.le_succ _)
  · exact RdMoves.still rfl rfl rfl rfl le_rfl

theorem rdF16_isCycle : IsReaderCycle .rdF16 none true (fun c => (readBytesLE 2 c).andThen decodeHalf) where
  counted := fun n => (readBytesLE_counted n 2).andThen (decodeHalf_counted n)
  exec_eq := fun _ => rfl
  rejects := by simp
  moves := fun _ c hc => ((readBytesLE_moves (hc rfl)).andThen fun a d _ => decodeHalf_moves a d).mono (by omega)
  result := fun c x d hd => by
    rcases hx : readBytesLE 2 c with ⟨a, e⟩ | ⟨v, e⟩ <;> rw [hx] at hd <;> simp [Res.andThen, decodeHalf] at hd
    split_ifs at hd <;> simp at hd <;> simp [← hd.1, Instr.opc]
  cnt := fun c x d h0 hd => by
    rcases hx : readBytesLE 2 c with ⟨a, e⟩ | ⟨v, e⟩ <;> rw [hx] at hd <;> simp [Res.andThen, decodeHalf] at hd
    have he := readBytesLE_cnt (h0 rfl) hx
    split_ifs at hd <;> simp at hd <;> simp [← hd.2, he, Instr.takesWidth]
  width := by simp [Instr.takesWidth]

theorem rdVu32_isCycle :
    IsReaderCycle .rdVu32 none true (fun c => (readVarint 5 0 0 c).map fun v => some (zextWord v)) where
  counted := fun n => (readVarint_counted n 5 0 0).map _
  exec_eq := fun _ => rfl
  rejects := by simp
  moves := fun _ c hc => ((readVarint_moves (hc rfl)).map _).mono (by omega)
  result := fun c x d hd => by
    rcases hx : readVarint 5 0 0 c with ⟨a, e⟩ | ⟨v, e⟩ <;> rw [hx] at hd <;> simp [Res.map] at hd
    simp [← hd.1, Instr.opc]
  cnt := fun c x d h0 hd => by
    rcases hx : readVarint 5 0 0 c with ⟨a, e⟩ | ⟨v, e⟩ <;> rw [hx] at hd <;> simp [Res.map] at hd
    simp [← hd.2, readVarint_cnt (h0 rfl) hx, Instr.takesWidth]
  width := by simp [Instr.takesWidth]

theorem rdAlign_isCycle : IsReaderCycle .rdAlign none false (fun c => .done none (alignR c)) where
  counted := fun _ _ => rfl
  exec_eq := fun _ => rfl
  rejects := by simp
  moves := fun _ c _ => RdMoves.mono (n := 0) (c := c) (RdMoves.still rfl rfl rfl rfl le_rfl) (by omega)
  result := fun c x d hd => by cases hd; simp [Instr.opc]
  cnt := fun c x d _ hd => by cases hd; rfl
  width := by simp

theorem wrAlign_isCycle : IsWriterCycle .wrAlign (fun _ => none) false (fun _ => alignW) where
  counted := fun _ n => writerBody_counted (alignW_counted n) false
  exec_eq := fun _ => rfl
  rejects := by simp
  moves := fun _ _ c => (alignW_moves c).mono (by omega)
  cnt := fun _ _ _ hd => by rw [alignW_cnt hd]; rfl
  fits := fun _ _ _ hf hd => alignW_fits hf hd

theorem varintSize_le (v : Nat) : 1 ≤ varintSize v ∧ varintSize v ≤ 5 := by
  rw [varintSize]; split_ifs <;> omega

theorem wrVu32_isCycle :
    IsWriterCycle .wrVu32 (fun x => checkValue (fitsU x.toNat 32)) true
      (fun x => writeVarint (varintSize x.toNat - 1) 0 x.toNat) where
  counted := fun x n => writerBody_counted (writeVarint_counted n _ 0 x.toNat) true
  exec_eq := fun _ => rfl
  rejects := fun _ _ => checkValue_isCheck
  moves := fun x _ c => (writerBody_aligned c fun _ hd => writeVarint_moves hd).mono (by
    have := varintSize_le x.toNat
    omega)
  cnt := fun _ _ _ hd => by simp [(writerBody_empties writeVarint_empties hd).1, Instr.takesWidth]
  fits := fun _ _ _ _ hd => by simp [writerBody_empties writeVarint_empties hd]

theorem encodeHalf_moves (x : BitVec 32) (c : WrCtx) (h0 : c.unit.cnt = 0) : WrMoves 2 c (encodeHalf x c) := by
  rw [encodeHalf]
  split_ifs
  · have h := writeBytesLE_moves (k := 2) (v := f16NanOf (Config.f16NanEnc c.nanDraws))
      (c := { c with nanDraws := c.nanDraws + 1 }) h0 (by decide)
    exact ⟨h.moved, h.err, h.raised, (Nat.le_succ _).trans h.draws, h.offered⟩
  · exact writeBytesLE_moves h0 (by decide)

theorem wrF16_isCycle : IsWriterCycle .wrF16 (fun _ => none) true (fun x => encodeHalf (f32Operand x)) where
  counted := fun _ n => writerBody_counted (encodeHalf_counted n _) true
  exec_eq := fun _ => rfl
  rejects := by simp
  moves := fun _ _ c => (writerBody_aligned c fun d hd => encodeHalf_moves _ d hd).mono (by omega)
  cnt := fun _ _ _ hd => by simp [(writerBody_empties (encodeHalf_empties _) hd).1, Instr.takesWidth]
  fits := fun _ _ _ _ hd => by simp [writerBody_empties (encodeHalf_empties _) hd]

/-- Every command is INIT, a Reader cycle, a Writer cycle or a size cycle (40_command_cycle.md R80, R95). -/
theorem exec_shape (i : Instr) :
    i = .rdInit ∨ i = .wrInit ∨
      (i.opc / 64 = 1 ∧ i ≠ .rdInit ∧ ∃ check aligns body, IsReaderCycle i check aligns body) ∨
      (i.opc / 64 = 2 ∧ i ≠ .wrInit ∧ ∃ check aligns body, IsWriterCycle i check aligns body) ∨
      (i.opc / 64 = 0 ∧ ∃ check size, IsSizeCycle i check size) := by
  have rf {i : Instr} {k : Nat} {format : Nat → Word} (h : ∀ s, exec i s = readFixed k format s) (hk : k ≤ 9)
      (ho : 2 ≤ i.opc % 64 ∧ i.takesWidth = false) : ∃ check aligns body, IsReaderCycle i check aligns body :=
    ⟨_, _, _, readFixed_isCycle h hk ho⟩
  have rw {i : Instr} {w : Nat} {format : Nat → Word} (h : ∀ s, exec i s = readField w format s)
      (ho : 2 ≤ i.opc % 64 ∧ i.takesWidth = true ∧ i.wField = w) : ∃ check aligns body, IsReaderCycle i check aligns body :=
    ⟨_, _, _, readField_isCycle h ho⟩
  have wf {i : Instr} {k : Nat} (h : ∀ s, exec i s = writeFixed k s) (hk : k ≤ 8 ∧ k ≠ 0)
      (ho : 2 ≤ i.opc % 64 ∧ i.takesWidth = false) :
      ∃ check aligns body, IsWriterCycle i check aligns body :=
    ⟨fun _ => none, _, _, writeBytes_isCycle (f := BitVec.toNat) h (by simp) hk ho⟩
  have wp {i : Instr} {k n : Nat} (h : ∀ s, exec i s = writeFixedPoint k n s) (hk : n ≤ 8 ∧ n ≠ 0)
      (ho : 2 ≤ i.opc % 64 ∧ i.takesWidth = false) : ∃ check aligns body, IsWriterCycle i check aligns body :=
    ⟨_, _, _, writeBytes_isCycle (check := fun x => firstFailure (checkFinite x) (checkValue (fitsS (fxRaw x k) (8 * n))))
      (f := fun x => bitsK (8 * n) (fxRaw x k)) h
      (fun _ _ => firstFailure_isCheck (fun _ => checkFinite_isCheck) (fun _ => checkValue_isCheck)) hk ho⟩
  have reader {i : Instr} (h0 : i.opc / 64 = 1) (h1 : i ≠ .rdInit)
      (h : ∃ check aligns body, IsReaderCycle i check aligns body) : i = .rdInit ∨ i = .wrInit ∨
      (i.opc / 64 = 1 ∧ i ≠ .rdInit ∧ ∃ check aligns body, IsReaderCycle i check aligns body) ∨
      (i.opc / 64 = 2 ∧ i ≠ .wrInit ∧ ∃ check aligns body, IsWriterCycle i check aligns body) ∨
      (i.opc / 64 = 0 ∧ ∃ check size, IsSizeCycle i check size) := .inr (.inr (.inl ⟨h0, h1, h⟩))
  have writer {i : Instr} (h0 : i.opc / 64 = 2) (h1 : i ≠ .wrInit)
      (h : ∃ check aligns body, IsWriterCycle i check aligns body) : i = .rdInit ∨ i = .wrInit ∨
      (i.opc / 64 = 1 ∧ i ≠ .rdInit ∧ ∃ check aligns body, IsReaderCycle i check aligns body) ∨
      (i.opc / 64 = 2 ∧ i ≠ .wrInit ∧ ∃ check aligns body, IsWriterCycle i check aligns body) ∨
      (i.opc / 64 = 0 ∧ ∃ check size, IsSizeCycle i check size) := .inr (.inr (.inr (.inl ⟨h0, h1, h⟩)))
  have size {i : Instr} (h0 : i.opc / 64 = 0) (h : ∃ check size, IsSizeCycle i check size) :
      i = .rdInit ∨ i = .wrInit ∨
      (i.opc / 64 = 1 ∧ i ≠ .rdInit ∧ ∃ check aligns body, IsReaderCycle i check aligns body) ∨
      (i.opc / 64 = 2 ∧ i ≠ .wrInit ∧ ∃ check aligns body, IsWriterCycle i check aligns body) ∨
      (i.opc / 64 = 0 ∧ ∃ check size, IsSizeCycle i check size) := .inr (.inr (.inr (.inr ⟨h0, h⟩)))
  cases i with
  | rdInit => exact .inl rfl
  | wrInit => exact .inr (.inl rfl)
  | rdAlign => exact reader rfl (by simp) ⟨_, _, _, rdAlign_isCycle⟩
  | rdU8 => exact reader rfl (by simp) (rf (fun _ => rfl) (by decide) (by decide))
  | rdS8 => exact reader rfl (by simp) (rf (fun _ => rfl) (by decide) (by decide))
  | rdU16 => exact reader rfl (by simp) (rf (fun _ => rfl) (by decide) (by decide))
  | rdS16 => exact reader rfl (by simp) (rf (fun _ => rfl) (by decide) (by decide))
  | rdU32 => exact reader rfl (by simp) (rf (fun _ => rfl) (by decide) (by decide))
  | rdS32 => exact reader rfl (by simp) (rf (fun _ => rfl) (by decide) (by decide))
  | rdU64 => exact reader rfl (by simp) (rf (fun _ => rfl) (by decide) (by decide))
  | rdS64 => exact reader rfl (by simp) (rf (fun _ => rfl) (by decide) (by decide))
  | rdF32 => exact reader rfl (by simp) (rf (fun _ => rfl) (by decide) (by decide))
  | rdF64 => exact reader rfl (by simp) (rf (fun _ => rfl) (by decide) (by decide))
  | rdVu32 => exact reader rfl (by simp) ⟨_, _, _, rdVu32_isCycle⟩
  | rdF16 => exact reader rfl (by simp) ⟨_, _, _, rdF16_isCycle⟩
  | rdFx32 => exact reader rfl (by simp) (rf (fun _ => rfl) (by decide) (by decide))
  | rdFx8 => exact reader rfl (by simp) (rf (fun _ => rfl) (by decide) (by decide))
  | rdUb w => exact reader (by simp [Instr.opc]) (by simp) (rw (fun _ => rfl) (by simp [Instr.opc, Instr.takesWidth, Instr.wField]))
  | rdSb w => exact reader (by simp [Instr.opc]) (by simp) (rw (fun _ => rfl) (by simp [Instr.opc, Instr.takesWidth, Instr.wField]))
  | rdFb w => exact reader (by simp [Instr.opc]) (by simp) (rw (fun _ => rfl) (by simp [Instr.opc, Instr.takesWidth, Instr.wField]))
  | wrAlign => exact writer rfl (by simp) ⟨_, _, _, wrAlign_isCycle⟩
  | wrU8 => exact writer rfl (by simp) (wf (fun _ => rfl) (by decide) (by decide))
  | wrS8 => exact writer rfl (by simp) (wf (fun _ => rfl) (by decide) (by decide))
  | wrU16 => exact writer rfl (by simp) (wf (fun _ => rfl) (by decide) (by decide))
  | wrS16 => exact writer rfl (by simp) (wf (fun _ => rfl) (by decide) (by decide))
  | wrU32 => exact writer rfl (by simp) (wf (fun _ => rfl) (by decide) (by decide))
  | wrS32 => exact writer rfl (by simp) (wf (fun _ => rfl) (by decide) (by decide))
  | wrU64 => exact writer rfl (by simp) (wf (fun _ => rfl) (by decide) (by decide))
  | wrS64 => exact writer rfl (by simp) (wf (fun _ => rfl) (by decide) (by decide))
  | wrF32 => exact writer rfl (by simp) (wf (fun _ => rfl) (by decide) (by decide))
  | wrF64 => exact writer rfl (by simp) (wf (fun _ => rfl) (by decide) (by decide))
  | wrVu32 => exact writer rfl (by simp) ⟨_, _, _, wrVu32_isCycle⟩
  | wrF16 => exact writer rfl (by simp) ⟨_, _, _, wrF16_isCycle⟩
  | wrFx32 => exact writer rfl (by simp) (wp (fun _ => rfl) (by decide) (by decide))
  | wrFx8 => exact writer rfl (by simp) (wp (fun _ => rfl) (by decide) (by decide))
  | wrUb w =>
    exact writer (by simp [Instr.opc]) (by simp) ⟨_, _, _, writeBits_isCycle (check := fun x => checkValue (fitsU x.toNat w))
      (f := BitVec.toNat) (fun _ => rfl) (fun _ _ => checkValue_isCheck) (by simp [Instr.opc, Instr.takesWidth, Instr.wField])⟩
  | wrSb w =>
    exact writer (by simp [Instr.opc]) (by simp) ⟨_, _, _, writeBits_isCycle (check := fun x => checkValue (fitsS (s64 x) w))
      (f := fun x => bitsK w (s64 x)) (fun _ => rfl) (fun _ _ => checkValue_isCheck) (by simp [Instr.opc, Instr.takesWidth, Instr.wField])⟩
  | wrFb w =>
    exact writer (by simp [Instr.opc]) (by simp) ⟨_, _, _, writeBits_isCycle
      (check := fun x => firstFailure (checkFinite x) (checkValue (fitsS (fxRaw x 16) w)))
      (f := fun x => bitsK w (fxRaw x 16)) (fun _ => rfl)
      (fun _ _ => firstFailure_isCheck (fun _ => checkFinite_isCheck) (fun _ => checkValue_isCheck)) (by simp [Instr.opc, Instr.takesWidth, Instr.wField])⟩
  | szVu32 =>
    exact size rfl ⟨fun x => checkValue (fitsU x.toNat 32), fun x => varintSize x.toNat, fun _ => rfl,
      fun _ _ => checkValue_isCheck⟩
  | szUb =>
    exact size rfl ⟨fun x => checkValue (fitsU x.toNat 32), fun x => ubSize x.toNat, fun _ => rfl,
      fun _ _ => checkValue_isCheck⟩
  | szSb =>
    exact size rfl ⟨fun x => checkValue (fitsS (s64 x) 32), fun x => sbSize (s64 x), fun _ => rfl,
      fun _ _ => checkValue_isCheck⟩
  | szFb =>
    exact size rfl ⟨fun x => firstFailure (checkFinite x) (checkValue (fitsS (fxRaw x 16) 32)),
      fun x => sbSize (fxRaw x 16), fun _ => rfl,
      fun _ _ => firstFailure_isCheck (fun _ => checkFinite_isCheck) (fun _ => checkValue_isCheck)⟩

/-! ### Every next state of a command -/

theorem statusWord_code {v : Verdict} {d : Nat} (hd : d ≤ 9) : bitField (statusWord v d) 0 8 = v.code := by
  cases v <;> interval_cases d <;> decide

theorem statusWord_delta {v : Verdict} {d : Nat} (hd : d ≤ 9) : bitField (statusWord v d) 8 8 = d := by
  cases v <;> interval_cases d <;> decide

theorem Verdict.isCheck_code {v : Verdict} (h : v.isCheck) : v.code = 4 := by
  rcases h with rfl | rfl | rfl <;> rfl

/-- Every next state of a Reader command: refused by the latch, rejected by the check, or the body `x` ran. -/
theorem IsReaderCycle.next {i : Instr} {check : Option Verdict} {aligns : Bool}
    {body : RdCtx → Res RdCtx (Option Word)} (h : IsReaderCycle i check aligns body) {s t : State}
    (ht : exec i s = .next t) :
    (s.r.err ≠ 0 ∧ t = s.finish .streamBroken 0) ∨
      (s.r.err = 0 ∧ ∃ v, v.isCheck ∧ check = some v ∧ t = s.finish v 0) ∨
      (s.r.err = 0 ∧ check = none ∧ ∃ x, x = body (if aligns then alignR s.rdStart else s.rdStart) ∧
        RdMoves 9 s.rdStart x ∧ s.r.total.toNat + x.ctx.delta < 2 ^ 64 ∧ t = s.afterRead x) := by
  rw [h.exec_eq] at ht
  rcases readerCycle_next ht with h1 | ⟨h1, v, h2, h3⟩ | ⟨h1, h2, h3, h4⟩
  · exact .inl h1
  · exact .inr (.inl ⟨h1, v, h.rejects v h2, h2, h3⟩)
  · have hm := h.moves h2 (if aligns then alignR s.rdStart else s.rdStart) (by rintro rfl; rfl)
    have hm : RdMoves 9 s.rdStart (body (if aligns then alignR s.rdStart else s.rdStart)) := by
      cases aligns with
      | true => exact ⟨hm.moved, hm.asked, hm.err, hm.raised, hm.draws⟩
      | false => exact hm
    obtain ⟨bs, g1, -, g3, -⟩ := hm.moved
    have h0 : s.rdStart.delta = 0 := rfl
    exact .inr (.inr ⟨h1, h2, _, rfl, hm, counterRoom_lt (by omega) h3, h4⟩)

/-- Every next state of a Writer command. -/
theorem IsWriterCycle.next {i : Instr} {check : Word → Option Verdict} {aligns : Bool}
    {body : Word → WrCtx → Res WrCtx Unit} (h : IsWriterCycle i check aligns body) {s t : State}
    (ht : exec i s = .next t) :
    (s.w.err ≠ 0 ∧ t = s.finish .streamBroken 0) ∨
      (s.w.err = 0 ∧ ∃ v, v.isCheck ∧ check s.din = some v ∧ t = s.finish v 0) ∨
      (s.w.err = 0 ∧ check s.din = none ∧ ∃ x, x = writerBody aligns (body s.din) s.wrStart ∧
        WrMoves 9 s.wrStart x ∧ s.w.total.toNat + x.ctx.delta < 2 ^ 64 ∧ t = s.afterWrite x) := by
  rw [h.exec_eq] at ht
  rcases writerCycle_next ht with h1 | ⟨h1, -, v, h2, h3⟩ | ⟨h1, -, h2, h3, h4⟩
  · exact .inl h1
  · exact .inr (.inl ⟨h1, v, h.rejects _ v h2, h2, h3⟩)
  · have hm := h.moves _ h2 s.wrStart
    obtain ⟨bs, g1, -, g3, -⟩ := hm.moved
    have h0 : s.wrStart.delta = 0 := rfl
    exact .inr (.inr ⟨h1, h2, _, rfl, hm, counterRoom_lt (by omega) h3, h4⟩)

/-- Every next state of a size command. -/
theorem IsSizeCycle.next {i : Instr} {check : Word → Option Verdict} {size : Word → Nat}
    (h : IsSizeCycle i check size) {s t : State} (ht : exec i s = .next t) :
    s.dinV = true ∧ ((∃ v, v.isCheck ∧ check s.din = some v ∧ t = s.finish v 0) ∨
      (check s.din = none ∧ t = (s.setDout (zextWord (size s.din))).finish .ok 0)) := by
  rw [h.exec_eq] at ht
  rcases sizeCycle_next ht with ⟨h1, ⟨v, h2, h3⟩ | h2⟩
  · exact ⟨h1, .inl ⟨v, h.rejects _ v h2, h2, h3⟩⟩
  · exact ⟨h1, .inr h2⟩

/-- What a Reader body that ran leaves in the state. -/
theorem State.afterRead_ran {s : State} {x : Res RdCtx (Option Word)} (hm : RdMoves 9 s.rdStart x)
    (hr : s.r.total.toNat + x.ctx.delta < 2 ^ 64) :
    (s.afterRead x).source = x.ctx.source ∧ (s.afterRead x).r.cnt = x.ctx.unit.cnt ∧
      ∃ bs : List Byte, bs.length ≤ 9 ∧ (s.afterRead x).source.pulled = s.source.pulled ++ bs ∧
        bitField (s.afterRead x).status 8 8 = bs.length ∧
        (s.afterRead x).r.total.toNat = s.r.total.toNat + bs.length ∧
        ((∃ d c, x = .done d c) ∧ (s.afterRead x).status = statusWord .ok bs.length ∧
            (s.afterRead x).r.err = s.r.err ∨
          ∃ v c, x = .raised v c ∧ v.latches = true ∧ c.unit.cnt = 0 ∧
            (s.afterRead x).status = statusWord v bs.length ∧ (s.afterRead x).r.err = BitVec.ofNat 8 v.code) := by
  obtain ⟨bs, g1, g2, g3, g4⟩ := hm.moved
  have he := hm.err
  simp only [State.rdStart, Nat.zero_add] at g2 g3 g4 he
  rw [g3] at hr
  have htot : (s.r.total + BitVec.ofNat 64 bs.length).toNat = s.r.total.toNat + bs.length := by
    rw [BitVec.toNat_add, BitVec.toNat_ofNat]
    omega
  rcases x with ⟨d, c⟩ | ⟨v, c⟩
  · simp only [Res.ctx] at g2 g3 g4 he
    cases d with
    | none =>
      refine ⟨rfl, rfl, bs, g1, by simpa [State.afterRead] using g2, ?_, ?_, .inl ⟨⟨_, _, rfl⟩, ?_, he⟩⟩
      · simp only [State.afterRead, State.finish_status, g3]; exact statusWord_delta g1
      · simp only [State.afterRead, State.finish_r, g4, htot]
      · simp only [State.afterRead, State.finish_status, g3]
    | some d =>
      refine ⟨rfl, rfl, bs, g1, by simpa [State.afterRead] using g2, ?_, ?_, .inl ⟨⟨_, _, rfl⟩, ?_, he⟩⟩
      · simp only [State.afterRead, State.finish_status, g3]; exact statusWord_delta g1
      · simp only [State.afterRead, State.finish_r, State.setDout_r, g4, htot]
      · simp only [State.afterRead, State.finish_status, g3]
  · simp only [Res.ctx] at g2 g3 g4 he
    obtain ⟨hc, hv⟩ := hm.raised v c rfl
    refine ⟨rfl, rfl, bs, g1, by simpa [State.afterRead] using g2, ?_, ?_, .inr ⟨v, c, rfl, hv, hc, ?_, ?_⟩⟩
    · simp only [State.afterRead, State.finish_status, g3]; exact statusWord_delta g1
    · simp only [State.afterRead, State.finish_r, g4, htot]
    · simp only [State.afterRead, State.finish_status, g3]
    · simp only [State.afterRead, State.finish_r, latch, hv, if_true]

/-- What a Writer body that ran leaves in the state. -/
theorem State.afterWrite_ran {s : State} {x : Res WrCtx Unit} (hm : WrMoves 9 s.wrStart x)
    (hr : s.w.total.toNat + x.ctx.delta < 2 ^ 64) :
    (s.afterWrite x).sink = x.ctx.sink ∧ (s.afterWrite x).w.cnt = x.ctx.unit.cnt ∧
      (s.afterWrite x).w.acc = x.ctx.unit.acc ∧
      ∃ bs : List Byte, bs.length ≤ 9 ∧ (s.afterWrite x).sink.taken = s.sink.taken ++ bs ∧
        bitField (s.afterWrite x).status 8 8 = bs.length ∧
        (s.afterWrite x).w.total.toNat = s.w.total.toNat + bs.length ∧
        ((∃ c, x = .done () c) ∧ (s.afterWrite x).status = statusWord .ok bs.length ∧
            (s.afterWrite x).w.err = s.w.err ∨
          ∃ c, x = .raised .transport c ∧ c.unit.cnt = 0 ∧ c.unit.acc = 0 ∧
            (s.afterWrite x).status = statusWord .transport bs.length ∧ (s.afterWrite x).w.err = 2) := by
  obtain ⟨bs, g1, g2, g3, g4, -⟩ := hm.moved
  have he := hm.err
  simp only [State.wrStart, Nat.zero_add] at g2 g3 g4 he
  rw [g3] at hr
  have htot : (s.w.total + BitVec.ofNat 64 bs.length).toNat = s.w.total.toNat + bs.length := by
    rw [BitVec.toNat_add, BitVec.toNat_ofNat]
    omega
  rcases x with ⟨d, c⟩ | ⟨v, c⟩
  · simp only [Res.ctx] at g2 g3 g4 he
    refine ⟨rfl, rfl, rfl, bs, g1, by simpa [State.afterWrite] using g2, ?_, ?_, .inl ⟨⟨_, rfl⟩, ?_, he⟩⟩
    · simp only [State.afterWrite, State.finish_status, g3]; exact statusWord_delta g1
    · simp only [State.afterWrite, State.finish_w, g4, htot]
    · simp only [State.afterWrite, State.finish_status, g3]
  · simp only [Res.ctx] at g2 g3 g4 he
    obtain ⟨hc, ha, rfl⟩ := hm.raised v c rfl
    refine ⟨rfl, rfl, rfl, bs, g1, by simpa [State.afterWrite] using g2, ?_, ?_, .inr ⟨c, rfl, hc, ha, ?_, ?_⟩⟩
    · simp only [State.afterWrite, State.finish_status, g3]; exact statusWord_delta g1
    · simp only [State.afterWrite, State.finish_w, g4, htot]
    · simp only [State.afterWrite, State.finish_status, g3]
    · rfl

/-! ### Draws -/

/-- No command gives back a draw, an answer of the source or an offer to the sink (00_scope.md R19). -/
theorem exec_draws {i : Instr} {s t : State} (h : exec i s = .next t) :
    s.nanEnc ≤ t.nanEnc ∧ s.nanDec ≤ t.nanDec ∧ s.cuts = t.cuts ∧ s.source.asked ≤ t.source.asked ∧
      s.sink.offered ≤ t.sink.offered := by
  rcases exec_shape i with rfl | rfl | ⟨-, -, _, _, _, hc⟩ | ⟨-, -, _, _, _, hc⟩ | ⟨-, _, _, hc⟩
  · cases h
    simp
  · cases h
    simp
  · rcases hc.next h with ⟨-, rfl⟩ | ⟨-, v, -, -, rfl⟩ | ⟨-, -, x, -, hm, -, rfl⟩
    · simp
    · simp
    · obtain ⟨-, -, -, h1, -, -, h2, h3⟩ := s.afterRead_frame x
      obtain ⟨k, -, h4⟩ := hm.asked
      have h5 := hm.draws
      rw [h1, h2, h3]
      rcases x with ⟨_ | d, c⟩ | ⟨v, c⟩ <;> simp_all [State.afterRead, Res.ctx]
  · rcases hc.next h with ⟨-, rfl⟩ | ⟨-, v, -, -, rfl⟩ | ⟨-, -, x, -, hm, -, rfl⟩
    · simp
    · simp
    · have h1 := hm.draws
      have h2 := hm.offered
      rcases x with ⟨d, c⟩ | ⟨v, c⟩ <;> simp_all [State.afterWrite, Res.ctx]
  · obtain ⟨-, ⟨v, -, -, rfl⟩ | ⟨-, rfl⟩⟩ := hc.next h <;> simp

/-- Reset during a command that would have completed (70_reset_and_hazards.md R230). -/
theorem resetDuringCommand_next {c : Word} {s t : State} (h : commandWrite c s = .next t) :
    resetDuringCommand c s = .next { s.resetBlock with
      source := sourceAfter (min (Config.resetCut s.cuts) (t.source.asked - s.source.asked)) s.source
      sink := sinkAfter (min (Config.resetCut s.cuts) (t.sink.offered - s.sink.offered))
        (t.sink.taken.drop s.sink.taken.length) s.sink
      nanEnc := t.nanEnc
      nanDec := t.nanDec
      cuts := s.cuts + 1 } := by
  rw [resetDuringCommand, h]

end Sys2Proof.Machine
end

