-- ==== Sys2Proof/Tests/Slice0.lean ====
section
/-! SUPPORT. Tests. Expected values are those of spec/95_test_vectors.md (the section is named before each group) and,
for words, the encoding table of 30_encoding.md R60 and R64. The last part shows, for each statement with
hypotheses, states and operands that meet them. -/

namespace Sys2Proof.Tests
open Sys2Proof.Machine Sys2Proof.Claims

set_option maxRecDepth 4000

/-! ### Small states -/

/-- Reset with a source that delivers `bs` and then ends (95_test_vectors.md 0). -/
def reading (bs : List Byte) : State :=
  { State.reset with source := { script := bs.map .byte, beyond := some .endOfData, asked := 0, pulled := [] } }

/-- Reset with a sink that takes `n` bytes and then refuses, and with DIN written. -/
def writingTo (n : Nat) (x : Word) : State :=
  { State.reset with
    din := x
    dinV := true
    sink := { script := List.replicate n .ok, beyond := some .fail, offered := 0, taken := [] } }

/-- Reset with a sink that takes every byte, and with DIN written. -/
def writing (x : Word) : State :=
  { writingTo 0 x with sink := { script := [], beyond := some .ok, offered := 0, taken := [] } }

/-- The state a command leaves, where it leaves one. -/
def after (o : Host.Outcome State Fault Refusal) : Option State :=
  match o with
  | .next t => some t
  | .fault _ => none
  | .refused _ => none

/-- One command after another. -/
def runs : List Instr → State → Option State
  | [], s => some s
  | i :: is, s => (after (exec i s)).bind (runs is)

/-- STATUS, DOUT (none while DOUT.V = 0), RSTATE and RTOTAL after a command. -/
def reads (i : Instr) (bs : List Byte) : Option (Word × Option Word × Word × Word) :=
  (after (exec i (reading bs))).map fun t => (t.status, if t.doutV then some t.dout else none, t.rstate, t.r.total)

/-- STATUS, the bytes the sink holds and WSTATE after a command. -/
def writes (i : Instr) (s : State) : Option (Word × List Byte × Word) :=
  (after (exec i s)).map fun t => (t.status, t.sink.taken, t.wstate)

/-- STATUS and DOUT after a size command. -/
def sizes (i : Instr) (x : Word) : Option (Word × Option Word) :=
  (after (exec i (writing x))).map fun t => (t.status, if t.doutV then some t.dout else none)

/-! ### Well-formedness: the one check is that W fits its field (30_encoding.md R61) -/

theorem test_wf_widest : (Instr.rdUb 63).wf = true := by decide
theorem test_wf_refuses_rdUb : (Instr.rdUb 64).wf = false := by decide
theorem test_wf_refuses_rdSb : (Instr.rdSb 64).wf = false := by decide
theorem test_wf_refuses_rdFb : (Instr.rdFb 100).wf = false := by decide
theorem test_wf_refuses_wrUb : (Instr.wrUb 64).wf = false := by decide
theorem test_wf_refuses_wrSb : (Instr.wrSb 64).wf = false := by decide
theorem test_wf_refuses_wrFb : (Instr.wrFb 256).wf = false := by decide

/-! ### Decoding, each word as UNIT then OP, with W before them where there is one (30_encoding.md R60, R64) -/

theorem test_decode_rdInit : decode 0b01_000000 = .ok .rdInit := by decide
theorem test_decode_rdAlign : decode 0b01_000001 = .ok .rdAlign := by decide
theorem test_decode_rdU8 : decode 0b01_000010 = .ok .rdU8 := by decide
theorem test_decode_rdS8 : decode 0b01_000011 = .ok .rdS8 := by decide
theorem test_decode_rdU16 : decode 0b01_000100 = .ok .rdU16 := by decide
theorem test_decode_rdS16 : decode 0b01_000101 = .ok .rdS16 := by decide
theorem test_decode_rdU32 : decode 0b01_000110 = .ok .rdU32 := by decide
theorem test_decode_rdS32 : decode 0b01_000111 = .ok .rdS32 := by decide
theorem test_decode_rdU64 : decode 0b01_001000 = .ok .rdU64 := by decide
theorem test_decode_rdS64 : decode 0b01_001001 = .ok .rdS64 := by decide
theorem test_decode_rdF32 : decode 0b01_001010 = .ok .rdF32 := by decide
theorem test_decode_rdF64 : decode 0b01_001011 = .ok .rdF64 := by decide
theorem test_decode_rdVu32 : decode 0b01_001100 = .ok .rdVu32 := by decide
theorem test_decode_rdF16 : decode 0b01_001101 = .ok .rdF16 := by decide
theorem test_decode_rdFx32 : decode 0b01_001110 = .ok .rdFx32 := by decide
theorem test_decode_rdFx8 : decode 0b01_001111 = .ok .rdFx8 := by decide
theorem test_decode_rdUb : decode 0b101010_01_010000 = .ok (.rdUb 42) := by decide
theorem test_decode_rdSb : decode 0b000001_01_010001 = .ok (.rdSb 1) := by decide
theorem test_decode_rdFb : decode 0b010010_01_010010 = .ok (.rdFb 18) := by decide
theorem test_decode_wrInit : decode 0b10_000000 = .ok .wrInit := by decide
theorem test_decode_wrAlign : decode 0b10_000001 = .ok .wrAlign := by decide
theorem test_decode_wrU8 : decode 0b10_000010 = .ok .wrU8 := by decide
theorem test_decode_wrS8 : decode 0b10_000011 = .ok .wrS8 := by decide
theorem test_decode_wrU16 : decode 0b10_000100 = .ok .wrU16 := by decide
theorem test_decode_wrS16 : decode 0b10_000101 = .ok .wrS16 := by decide
theorem test_decode_wrU32 : decode 0b10_000110 = .ok .wrU32 := by decide
theorem test_decode_wrS32 : decode 0b10_000111 = .ok .wrS32 := by decide
theorem test_decode_wrU64 : decode 0b10_001000 = .ok .wrU64 := by decide
theorem test_decode_wrS64 : decode 0b10_001001 = .ok .wrS64 := by decide
theorem test_decode_wrF32 : decode 0b10_001010 = .ok .wrF32 := by decide
theorem test_decode_wrF64 : decode 0b10_001011 = .ok .wrF64 := by decide
theorem test_decode_wrVu32 : decode 0b10_001100 = .ok .wrVu32 := by decide
theorem test_decode_wrF16 : decode 0b10_001101 = .ok .wrF16 := by decide
theorem test_decode_wrFx32 : decode 0b10_001110 = .ok .wrFx32 := by decide
theorem test_decode_wrFx8 : decode 0b10_001111 = .ok .wrFx8 := by decide
theorem test_decode_wrUb : decode 0b111111_10_010000 = .ok (.wrUb 63) := by decide
theorem test_decode_wrSb : decode 0b100000_10_010001 = .ok (.wrSb 32) := by decide
theorem test_decode_wrFb : decode 0b000000_10_010010 = .ok (.wrFb 0) := by decide
theorem test_decode_szVu32 : decode 0b00_001100 = .ok .szVu32 := by decide
theorem test_decode_szUb : decode 0b00_010000 = .ok .szUb := by decide
theorem test_decode_szSb : decode 0b00_010001 = .ok .szSb := by decide
theorem test_decode_szFb : decode 0b00_010010 = .ok .szFb := by decide

/-! 95_test_vectors.md 2.10: every reason a word is illegal, and the order of the reasons does not show. -/

theorem test_illegal_reserved_bits : decode 0x4042 = .error .reservedBits := by decide
theorem test_illegal_high_bit : decode 0x1000000000000050 = .error .reservedBits := by decide
theorem test_illegal_unit : decode 0xC0 = .error .reservedUnit := by decide
theorem test_illegal_size_op : decode 0x0 = .error .reservedOp := by decide
theorem test_illegal_reader_op : decode 0x153 = .error .reservedOp := by decide
theorem test_illegal_width : decode 0x142 = .error .widthNotZero := by decide
theorem test_illegal_size_width : decode 0x10C = .error .widthNotZero := by decide
theorem test_decodeTableWord : decodeTableWord 64 0x47 = some .rdS32 := by decide
theorem test_decodeTableWord_refuses : decodeTableWord 64 0xC0 = none := by decide

/-! ### The byte-stream reads (95_test_vectors.md 2.1) -/

theorem test_rdU8 : reads .rdU8 [0xAB] = some (0x100, some 0xAB, 0x000AB, 1) := by decide
theorem test_rdU8_end : reads .rdU8 [] = some (0x1, none, 0x10000, 0) := by decide
theorem test_rdS8 : reads .rdS8 [0x80] = some (0x100, some 0xFFFFFFFFFFFFFF80, 0x00080, 1) := by decide
theorem test_rdU16 : reads .rdU16 [0x34, 0x12] = some (0x200, some 0x1234, 0x00012, 2) := by decide
theorem test_rdU16_short : reads .rdU16 [0x01] = some (0x020102, none, 0x20001, 1) := by decide
theorem test_rdS16 : reads .rdS16 [0x00, 0x80] = some (0x200, some 0xFFFFFFFFFFFF8000, 0x00080, 2) := by decide
theorem test_rdU32 : reads .rdU32 [0xEF, 0xBE, 0xAD, 0xDE] = some (0x400, some 0xDEADBEEF, 0x000DE, 4) := by decide
theorem test_rdS32 :
    reads .rdS32 [0x00, 0x00, 0x00, 0x80] = some (0x400, some 0xFFFFFFFF80000000, 0x00080, 4) := by decide
theorem test_rdU64 :
    reads .rdU64 [8, 7, 6, 5, 4, 3, 2, 1] = some (0x800, some 0x0102030405060708, 0x00001, 8) := by decide
theorem test_rdU64_short : reads .rdU64 [8, 7, 6, 5, 4, 3, 2] = some (0x020702, none, 0x20002, 7) := by decide
theorem test_rdS64 :
    reads .rdS64 [0xFE, 0xFF, 0xFF, 0xFF, 0xFF, 0xFF, 0xFF, 0xFF] =
      some (0x800, some 0xFFFFFFFFFFFFFFFE, 0x000FF, 8) := by decide
theorem test_rdF32 : reads .rdF32 [0x01, 0x00, 0x80, 0x80] = some (0x400, some 0x80800001, 0x00080, 4) := by decide
theorem test_rdF64 :
    reads .rdF64 [0x01, 0, 0, 0, 0, 0, 0xF8, 0x7F] = some (0x800, some 0x7FF8000000000001, 0x0007F, 8) := by decide

/-! ### The byte-stream writes (95_test_vectors.md 2.2) -/

theorem test_wrU8 : writes .wrU8 (writing 0x1FF) = some (0x100, [0xFF], 0) := by decide
theorem test_wrS8 : writes .wrS8 (writing (-128)) = some (0x100, [0x80], 0) := by decide
theorem test_wrU16 : writes .wrU16 (writing 0x1234) = some (0x200, [0x34, 0x12], 0) := by decide
theorem test_wrU16_fails : writes .wrU16 (writingTo 1 0x1234) = some (0x010102, [0x34], 0x20000) := by decide
theorem test_wrS16 : writes .wrS16 (writing (-2)) = some (0x200, [0xFE, 0xFF], 0) := by decide
theorem test_wrU32 : writes .wrU32 (writing 0xDEADBEEF) = some (0x400, [0xEF, 0xBE, 0xAD, 0xDE], 0) := by decide
theorem test_wrU32_fails : writes .wrU32 (writingTo 2 0x11223344) = some (0x010202, [0x44, 0x33], 0x20000) := by decide
theorem test_wrS32 : writes .wrS32 (writing (-2147483648)) = some (0x400, [0, 0, 0, 0x80], 0) := by decide
theorem test_wrU64 :
    writes .wrU64 (writing 0x0102030405060708) = some (0x800, [8, 7, 6, 5, 4, 3, 2, 1], 0) := by decide
theorem test_wrS64 :
    writes .wrS64 (writing (-2)) = some (0x800, [0xFE, 0xFF, 0xFF, 0xFF, 0xFF, 0xFF, 0xFF, 0xFF], 0) := by decide
theorem test_wrF32 : writes .wrF32 (writing 0x7FC00001) = some (0x400, [0x01, 0x00, 0xC0, 0x7F], 0) := by decide
theorem test_wrF64 :
    writes .wrF64 (writing 0xBFE0000000000000) = some (0x800, [0, 0, 0, 0, 0, 0, 0xE0, 0xBF], 0) := by decide

/-! ### Bit-stream control (95_test_vectors.md 2.3) -/

theorem test_rdAlign :
    ((runs [.rdUb 4, .rdAlign, .rdU8] (reading [0xAB, 0xCD])).map fun t => (t.dout, t.rstate, t.r.total)) =
      some (0xCD, 0x000CD, 2) := by decide
theorem test_rdInit :
    ((runs [.rdUb 4, .rdInit, .rdUb 4] (reading [0xAB, 0xCD])).map fun t => (t.dout, t.rstate, t.r.total)) =
      some (0xC, 0x004CD, 1) := by decide
theorem test_wrAlign :
    ((runs [.wrUb 12, .wrAlign] (writing 0xABC)).map fun t => (t.sink.taken, t.w.total)) = some ([0xAB, 0xC0], 2) := by
  decide
theorem test_wrAlign_fails :
    ((runs [.wrUb 3, .wrAlign] (writingTo 0 7)).map fun t => (t.status, t.wstate)) = some (0x010002, 0x20000) := by
  decide
theorem test_wrInit :
    ((runs [.wrUb 5, .wrInit] (writing 1)).map fun t => (t.sink.taken, t.wstate, t.status)) = some ([], 0, 0) := by
  decide

/-! ### Packed fields (95_test_vectors.md 2.4 to 2.6) -/

theorem test_rdUb_spans :
    ((runs [.rdUb 4, .rdUb 8] (reading [0xAB, 0xCD])).map fun t => (t.dout, t.rstate)) = some (0xBC, 0x004CD) := by
  decide
theorem test_rdUb_width : reads (.rdUb 33) [0xAB] = some (0x010004, none, 0, 0) := by decide
theorem test_rdSb :
    ((runs [.rdSb 3, .rdSb 5] (reading [0xB4])).map fun t => (t.dout, t.status)) = some (0xFFFFFFFFFFFFFFF4, 0) := by
  decide
theorem test_rdSb_zero : reads (.rdSb 0) [0xAB] = some (0, some 0, 0, 0) := by decide
theorem test_rdFb : reads (.rdFb 2) [0xC0, 0x00] = some (0x100, some 0xBEF0000000000000, 0x006C0, 1) := by decide
theorem test_rdFb_one : reads (.rdFb 18) [0x40, 0x00, 0x00] = some (0x300, some 0x3FF0000000000000, 0x00600, 3) := by
  decide
theorem test_wrUb : writes (.wrUb 3) (writing 7) = some (0, [], 0x00307) := by decide
theorem test_wrUb_value : writes (.wrUb 3) (writing 8) = some (0x020004, [], 0) := by decide
theorem test_wrSb : ((runs [.wrSb 3, .wrAlign] (writing (-4))).map fun t => t.sink.taken) = some [0x80] := by decide
theorem test_wrSb_value : writes (.wrSb 3) (writing (-5)) = some (0x020004, [], 0) := by decide
theorem test_wrFb :
    ((runs [.wrFb 17, .wrAlign] (writing 0xBFF0000000000000)).map fun t => t.sink.taken) = some [0x80, 0, 0] := by
  decide
theorem test_wrFb_order : writes (.wrFb 40) (writing 0x7FF8000000000000) = some (0x010004, [], 0) := by decide
theorem test_szUb : sizes .szUb 0xFFFFFFFF = some (0, some 32) := by decide
theorem test_szUb_value : sizes .szUb 0x100000000 = some (0x020004, none) := by decide
theorem test_szSb : sizes .szSb (-65) = some (0, some 8) := by decide
theorem test_szSb_value : sizes .szSb (-2147483649) = some (0x020004, none) := by decide
theorem test_szFb : sizes .szFb 0xBFE0000000000000 = some (0, some 16) := by decide
theorem test_szFb_infinite : sizes .szFb 0xFFF0000000000000 = some (0x030004, none) := by decide

/-! ### EncodedU32 (95_test_vectors.md 1.1, 2.7) -/

theorem test_rdVu32 : reads .rdVu32 [0xFF, 0xFF, 0xFF, 0xFF, 0x08] = some (0x500, some 0x8FFFFFFF, 0x00008, 5) := by
  decide
theorem test_rdVu32_malformed : reads .rdVu32 [0xFF, 0xFF, 0xFF, 0xFF, 0x10] = some (0x000503, none, 0x30010, 5) := by
  decide
theorem test_wrVu32 : writes .wrVu32 (writing 0x200000) = some (0x400, [0x80, 0x80, 0x80, 0x01], 0) := by decide
theorem test_wrVu32_fails : writes .wrVu32 (writingTo 1 300) = some (0x010102, [0xAC], 0x20000) := by decide
theorem test_szVu32 : sizes .szVu32 0x10000000 = some (0, some 5) := by decide
theorem test_szVu32_value : sizes .szVu32 0x100000000 = some (0x020004, none) := by decide

/-! ### Float16, Fixed and Fixed8 (95_test_vectors.md 2.8, 2.9) -/

theorem test_rdF16 : reads .rdF16 [0xFF, 0x03] = some (0x200, some 0x387FC000, 0x00003, 2) := by decide
theorem test_rdF16_infinite : reads .rdF16 [0x00, 0xFC] = some (0x200, some 0xFF800000, 0x000FC, 2) := by decide
theorem test_wrF16 : writes .wrF16 (writing 0xC2F6E979) = some (0x200, [0xB7, 0xD7], 0) := by decide
theorem test_wrF16_overflow : writes .wrF16 (writing 0x47800000) = some (0x200, [0x00, 0x7C], 0) := by decide
theorem test_half_ties :
    real2Half .away 0x34200000 = 3 ∧ real2Half .even 0x34200000 = 2 ∧ real2Half .away 0x33000000 = 1 ∧
      real2Half .even 0x33000000 = 0 ∧ real2Half .away 0x3F803000 = 0x3C02 ∧ real2Half .even 0x3F803000 = 0x3C02 := by
  decide
theorem test_rdFx32 : reads .rdFx32 [0, 0, 0, 0x80] = some (0x400, some 0xC0E0000000000000, 0x00080, 4) := by decide
theorem test_rdFx8 : reads .rdFx8 [0xFF, 0xFF] = some (0x200, some 0xBF70000000000000, 0x000FF, 2) := by decide
theorem test_wrFx32 : writes .wrFx32 (writing 0xBEE0000000000000) = some (0x400, [0, 0, 0, 0], 0) := by decide
theorem test_wrFx32_value : writes .wrFx32 (writing 0x40E0000000000000) = some (0x020004, [], 0) := by decide
theorem test_wrFx8 : writes .wrFx8 (writing 0xBFE0000000000000) = some (0x200, [0x80, 0xFF], 0) := by decide
theorem test_wrFx8_infinite : writes .wrFx8 (writing 0xFFF0000000000000) = some (0x030004, [], 0) := by decide

/-! ### The step (10_state.md R35, R38, 40_command_cycle.md R82; 95_test_vectors.md 2.11) -/

theorem test_step_runs_the_word :
    step (State.reset.withFetchWord 64 0x40) = .next State.reset := by rfl
theorem test_step_illegal :
    (after (step (State.reset.withFetchWord 64 0xC0))).map (fun t => t.status) = some 0x5 := by decide
theorem test_step_din_unwritten : step (State.reset.withFetchWord 64 0x82) = .fault .dinUnwritten := by rfl
theorem test_step_idle : step State.reset = .next State.reset := by rfl

/-! ### Witnesses: states and operands that meet the hypotheses of each statement, clause by clause -/

/-- A Reader with `cnt` unread bits of 0xB4 in front of what `reading bs` delivers. -/
def midByte (cnt : BitVec 3) (bs : List Byte) : State :=
  { reading bs with r := { byte := 0xB4, cnt := cnt, total := 1, err := 0 } }

/-- A Writer with three pending bits 101. -/
def pending (x : Word) : State :=
  { writing x with w := { acc := 5, cnt := 3, total := 0, err := 0 } }

/-- A Writer with three pending bits on a sink that takes `n` bytes. -/
def pendingTo (n : Nat) (x : Word) : State :=
  { writingTo n x with w := { acc := 5, cnt := 3, total := 0, err := 0 } }

/-- A state whose host is about to do `e`. -/
def facing (e : HostEvent) (s : State) : State := { s with host := [e] }

/-- Both units latched. -/
def broken : State :=
  { writing 0 with
    r := { byte := 0xAB, cnt := 0, total := 1, err := 3 }
    w := { acc := 0, cnt := 0, total := 0, err := 2 } }

/-- The command `i` runs at `s` and ends with the outcome `c`. -/
abbrev EndsWith (i : Instr) (s : State) (c : Nat) : Prop := ∃ t, exec i s = .next t ∧ code t = c

theorem test_witness_resetEvent : (facing .reset broken).host = .reset :: [] := by decide

theorem test_witness_invariant :
    (facing (.write 0x00 64 0x42) (reading [7])).Inv ∧
      ∃ t, step (facing (.write 0x00 64 0x42) (reading [7])) = .next t :=
  ⟨⟨by decide, by decide, by decide, .ok, 0, by decide, by decide⟩, _, rfl⟩

theorem test_witness_decodeOfEncode :
    (Instr.rdUb 0).wf = true ∧ (Instr.wrFb 63).wf = true ∧ Instr.szVu32.wf = true ∧ Instr.wrInit.wf = true := by
  decide

theorem test_witness_encodeOfDecode : decode 0x3F52 = .ok (.rdFb 63) ∧ decode 0x12 = .ok .szFb := by decide

theorem test_witness_illegalWords :
    (facing (.write 0x00 64 0x4000) broken).host = .write 0x00 64 0x4000 :: [] ∧
      decode 0x4000 = .error .reservedBits ∧ decode 0xC0 = .error .reservedUnit ∧
      decode 0x0B = .error .reservedOp ∧ decode 0x0D = .error .reservedOp ∧ decode 0x53 = .error .reservedOp ∧
      decode 0x14F = .error .widthNotZero ∧ decode 0x110 = .error .widthNotZero ∧
      decode 0x150 = .ok (.rdUb 1) := by decide

theorem test_witness_stepRuns :
    (facing (.write 0x00 64 0x2050) (reading [])).host = .write 0x00 64 0x2050 :: [] ∧
      decode 0x2050 = .ok (.rdUb 32) := by decide

theorem test_witness_dinWrite : (facing (.write 0x08 64 5) broken).host = .write 0x08 64 5 :: [] := by decide

theorem test_witness_hostReads :
    (∀ o ∈ [0x08, 0x10, 0x18, 0x20, 0x28, 0x30, 0x38], (facing (.read o 64) (writing 1)).host = .read o 64 :: []) ∧
      (writing 1).dinV = true ∧ (writing 1).doutV = false ∧ ∃ t, exec .szUb (writing 1) = .next t ∧ t.doutV = true :=
  ⟨by decide, by decide, by decide, _, rfl, by decide⟩

theorem test_witness_badAccess :
    (∀ o ∈ [0x10, 0x38, 0x40, 0x07], (facing (.write o 64 0) State.reset).host = .write o 64 0 :: [] ∧
        ¬ ((64 : Nat) = 64 ∧ (o = 0x00 ∨ o = 0x08))) ∧
      (∀ n ∈ [32, 65, 128], (facing (.write 0x00 n 0) State.reset).host = .write 0x00 n 0 :: [] ∧
        ¬ (n = 64 ∧ ((0x00 : Nat) = 0x00 ∨ (0x00 : Nat) = 0x08))) ∧
      (∀ n ∈ [63, 65, 128], (facing (.read 0x18 n) State.reset).host = .read 0x18 n :: [] ∧
        ¬ (n = 64 ∧ (0x18 : Nat) ∈ [0x08, 0x10, 0x18, 0x20, 0x28, 0x30, 0x38])) ∧
      (∀ o ∈ [0x00, 0x39, 0x40], (facing (.read o 64) State.reset).host = .read o 64 :: [] ∧
        ¬ ((64 : Nat) = 64 ∧ o ∈ [0x08, 0x10, 0x18, 0x20, 0x28, 0x30, 0x38])) := by decide

theorem test_witness_resetDuring :
    (facing (.resetDuring 0x44) (reading [1, 2])).host = .resetDuring 0x44 :: [] ∧
      ∃ t, commandWrite 0x44 { facing (.resetDuring 0x44) (reading [1, 2]) with host := [] } = .next t ∧
        t.source.pulled = [1, 2] :=
  ⟨by decide, _, rfl, by decide⟩

/-- Streams with nothing settled: the free answers are in use. -/
theorem test_witness_freeAnswers :
    State.reset.source.script = [] ∧ State.reset.source.beyond = none ∧ State.reset.sink.script = [] ∧
      State.reset.sink.beyond = none ∧ EndsWith .rdU32 (reading [1, 2]) 2 :=
  ⟨rfl, rfl, rfl, rfl, _, rfl, by decide⟩

/-- A NaN cut off by reset: its draw counts as taken, whatever part of it the sink took. -/
theorem test_witness_draws :
    (facing (.resetDuring 0x8D) (writing 0x7FC00000)).host = .resetDuring 0x8D :: [] ∧
      IsNan32 (BitVec.ofNat 32 (writing 0x7FC00000).din.toNat) ∧
      (∃ t, exec .wrF16 (writing 0x7FC00000) = .next t ∧ t.sink.taken.length = 2 ∧ t.nanEnc = 1) ∧
      (∃ t, exec .wrF16 (writingTo 1 0x7FC00000) = .next t ∧ t.sink.taken.length = 1 ∧ t.nanEnc = 1) ∧
      (∃ t, commandWrite 0x8D { facing (.resetDuring 0x8D) (writing 0x7FC00000) with host := [] } = .next t ∧
        t.nanEnc = 1) ∧
      (∃ t, step (facing (.resetDuring 0x8D) (writing 0x7FC00000)) = .next t ∧ t.nanEnc = 1 ∧ t.cuts = 1) ∧
      ∃ t, exec .rdF16 (reading [0x01, 0x7C]) = .next t ∧ code t = 0 ∧ IsNan32 (BitVec.ofNat 32 t.dout.toNat) ∧
        t.nanDec = 1 :=
  ⟨by decide, by decide, ⟨_, rfl, by rfl, by rfl⟩, ⟨_, rfl, by rfl, by rfl⟩, ⟨_, rfl, by rfl⟩, ⟨_, rfl, by rfl, by rfl⟩,
    _, rfl, by rfl, f32NanOf_isNan _, by rfl⟩

theorem test_witness_attach :
    (facing (.attachSource [.fail] none) broken).host = .attachSource [.fail] none :: [] ∧
      (facing (.attachSink [.ok] (some .fail)) broken).host = .attachSink [.ok] (some .fail) :: [] := by decide

theorem test_witness_latched :
    OnReader .rdAlign ∧ broken.r.err ≠ 0 ∧ OnWriter (.wrUb 40) ∧ broken.w.err ≠ 0 ∧
      (∃ t, step (facing (.write 0x00 64 0x42) broken) = .next t ∧ t.r.err = 3) ∧
      (∃ t, step (facing (.write 0x00 64 0x40) broken) = .next t ∧ t.r.err = 0 ∧ t.w.err = 2) ∧
      ∃ t, step (facing .reset broken) = .next t ∧ t.r.err = 0 ∧ t.w.err = 0 :=
  ⟨by decide, by decide, by decide, by decide, ⟨_, rfl, by decide⟩, ⟨_, rfl, by decide, by decide⟩,
    _, rfl, by decide, by decide⟩

theorem test_witness_streamErrors :
    EndsWith .rdU8 (reading []) 1 ∧ EndsWith .rdU16 (reading [1]) 2 ∧
      EndsWith .rdVu32 (reading [0x80, 0x80, 0x80, 0x80, 0x10]) 3 ∧ EndsWith .wrU8 (writingTo 0 1) 2 ∧
      EndsWith .szUb (writing 1) 0 ∧ EndsWith (.wrUb 33) (writing 1) 4 ∧ EndsWith .rdU8 broken 6 :=
  ⟨⟨_, rfl, by decide⟩, ⟨_, rfl, by decide⟩, ⟨_, rfl, by decide⟩, ⟨_, rfl, by decide⟩, ⟨_, rfl, by decide⟩,
    ⟨_, rfl, by decide⟩, _, rfl, by decide⟩

theorem test_witness_codes :
    (∃ t, commandWrite 0x42 (reading []) = .next t ∧ code t = 1) ∧ decode 0x42 = .ok .rdU8 ∧
      (∃ t, commandWrite 0x81 (pendingTo 0 1) = .next t ∧ code t = 2) ∧ decode 0x81 = .ok .wrAlign ∧
      (∃ t, commandWrite 0x4C (reading [0x80, 0x80, 0x80, 0x80, 0x10]) = .next t ∧ code t = 3) ∧
      decode 0x4C = .ok .rdVu32 ∧ (∃ t, commandWrite 0x8F (writing 0x7FF0000000000000) = .next t ∧ code t = 4) ∧
      decode 0x8F = .ok .wrFx8 ∧ (∃ t, commandWrite 0x00 broken = .next t ∧ code t = 5) ∧
      (∃ t, commandWrite 0x42 broken = .next t ∧ code t = 6) :=
  ⟨⟨_, rfl, by decide⟩, by decide, ⟨_, rfl, by decide⟩, by decide, ⟨_, rfl, by decide⟩, by decide, ⟨_, rfl, by decide⟩,
    by decide, ⟨_, rfl, by decide⟩, _, rfl, by decide⟩

theorem test_witness_endOfStream :
    OnReader .rdU16 ∧ EndsWith .rdU16 (reading []) 1 ∧ (∃ t, exec .rdU16 (reading [1]) = .next t ∧ code t = 2 ∧ info t = 2) ∧
      EndsWith .rdVu32 (reading [0x80, 0x80, 0x80, 0x80, 0x10]) 3 :=
  ⟨by decide, ⟨_, rfl, by decide⟩, ⟨_, rfl, by decide, by decide⟩, _, rfl, by decide⟩

theorem test_witness_dinUnwritten :
    ReadsDin .wrU8 ∧ ReadsDin .szFb ∧ ReadsDin (.wrUb 40) ∧ State.reset.dinV = false ∧ State.reset.w.err = 0 := by
  decide

theorem test_witness_completes :
    ReadsDin .wrF16 ∧ (writing 1).dinV = true ∧ ¬ ReadsDin .wrAlign ∧ (writing 1).r.total.toNat + 9 < 2 ^ 64 ∧
      (writing 1).w.total.toNat + 9 < 2 ^ 64 := by decide

/-- A Reader whose counter stands at `n`. -/
def counted (n : Nat) (bs : List Byte) : State :=
  { reading bs with r := { byte := 0, cnt := 0, total := BitVec.ofNat 64 n, err := 0 } }

theorem test_witness_overflow :
    (counted (2 ^ 64 - 1) [9]).r.err = 0 ∧ (∃ src, (counted (2 ^ 64 - 1) [9]).source.takeBytes 1 = some ([9], src)) ∧
      2 ^ 64 ≤ (counted (2 ^ 64 - 1) [9]).r.total.toNat + 1 ∧
      (∃ src, (counted (2 ^ 64 - 2) [9]).source.takeBytes 1 = some ([9], src)) ∧
      (counted (2 ^ 64 - 2) [9]).r.total.toNat + 1 < 2 ^ 64 :=
  ⟨by decide, ⟨_, rfl⟩, by decide, ⟨_, rfl⟩, by decide⟩

/-- A Writer with three bits pending and DIN = 7 whose counter stands at `n`. -/
def countedPending (n : Nat) : State :=
  { pending 7 with w := { acc := 5, cnt := 3, total := BitVec.ofNat 64 n, err := 0 } }

/-- Width reads that need two bytes and none, and EncodedU32 reads of two bytes and of five with a rejected fifth. -/
theorem test_witness_overflow_reads :
    bytesNeeded 9 (counted 0 []).r.cnt = 2 ∧ bytesNeeded 0 (counted 0 []).r.cnt = 0 ∧
      (∃ src, (counted (2 ^ 64 - 2) [1, 2]).source.takeBytes 2 = some ([1, 2], src)) ∧
      2 ^ 64 ≤ (counted (2 ^ 64 - 2) [1, 2]).r.total.toNat + 2 ∧
      (counted (2 ^ 64 - 3) [1, 2]).r.total.toNat + 2 < 2 ^ 64 ∧
      (∃ src, (counted 0 [0x80, 2]).source.takeBytes 2 = some ([0x80] ++ [2], src)) ∧
      (∃ src, (counted 0 [0x80, 0x80, 0x80, 0x80, 0x10]).source.takeBytes 5 =
        some ([0x80, 0x80, 0x80, 0x80] ++ [0x10], src)) ∧
      2 ^ 64 ≤ (counted (2 ^ 64 - 5) []).r.total.toNat + 5 ∧ (counted (2 ^ 64 - 6) []).r.total.toNat + 5 < 2 ^ 64 :=
  ⟨by decide, by decide, ⟨_, rfl⟩, by decide, by decide, ⟨_, rfl⟩, ⟨_, rfl⟩, by decide, by decide⟩

/-- The padded byte counts: one value byte overflows at 2^64 - 2 and just fits at 2^64 - 3. -/
theorem test_witness_overflow_writes :
    (countedPending (2 ^ 64 - 2)).w.err = 0 ∧ (countedPending (2 ^ 64 - 2)).dinV = true ∧
      (∃ snk, (countedPending (2 ^ 64 - 2)).sink.takes
        (padding (countedPending (2 ^ 64 - 2)).w ++ leBytes 1 (countedPending (2 ^ 64 - 2)).din.toNat) = some snk) ∧
      2 ^ 64 ≤ (countedPending (2 ^ 64 - 2)).w.total.toNat + ((padding (countedPending (2 ^ 64 - 2)).w).length + 1) ∧
      (countedPending (2 ^ 64 - 3)).w.total.toNat + ((padding (countedPending (2 ^ 64 - 3)).w).length + 1) < 2 ^ 64 ∧
      exec .wrAlign (countedPending (2 ^ 64 - 1)) = .fault .counterOverflow ∧
      (∃ t, exec .wrAlign (countedPending (2 ^ 64 - 2)) = .next t ∧ t.w.total.toNat = 2 ^ 64 - 1) :=
  ⟨by decide, by decide, ⟨_, rfl⟩, by decide, by decide, rfl, _, rfl, by decide⟩

/-- Commands that move bytes where the counters stand at 0; the counters they are held against overflow or just fit. -/
theorem test_witness_everyCommandCounts :
    (∃ t, exec .wrFx8 (uncounted (countedPending (2 ^ 64 - 3))) = .next t ∧
        2 ^ 64 ≤ (countedPending (2 ^ 64 - 3)).w.total.toNat + t.w.total.toNat ∧
        (countedPending (2 ^ 64 - 4)).w.total.toNat + t.w.total.toNat < 2 ^ 64) ∧
      (∃ t, exec .rdU16 (uncounted (counted (2 ^ 64 - 1) [1])) = .next t ∧ code t = 2 ∧
        2 ^ 64 ≤ (counted (2 ^ 64 - 1) [1]).r.total.toNat + t.r.total.toNat ∧
        (counted (2 ^ 64 - 2) [1]).r.total.toNat + t.r.total.toNat < 2 ^ 64) ∧
      ∃ t, exec .rdInit (uncounted (counted (2 ^ 64 - 1) [])) = .next t ∧
        (counted (2 ^ 64 - 1) []).r.total.toNat + t.r.total.toNat < 2 ^ 64 :=
  ⟨⟨_, rfl, by decide, by decide⟩, ⟨_, rfl, by decide, by decide, by decide⟩, _, rfl, by decide⟩

theorem test_witness_dout :
    EndsWith .rdU8 (reading [1]) 0 ∧ WritesDout .rdU8 ∧ EndsWith .rdAlign (reading []) 0 ∧ ¬ WritesDout .rdAlign ∧
      EndsWith .rdU8 (reading []) 1 :=
  ⟨⟨_, rfl, by decide⟩, by decide, ⟨_, rfl, by decide⟩, by decide, _, rfl, by decide⟩

theorem test_witness_independent :
    (OnReader .rdU8 ∧ EndsWith .rdU8 (reading [1]) 0 ∧ EndsWith .rdU8 { reading [1] with w := broken.w, din := 3 } 0 ∧
        WritesDout .rdU8) ∧
      OnWriter .wrU8 ∧ EndsWith .wrU8 (writing 1) 0 ∧ EndsWith .wrU8 { writing 1 with r := broken.r } 0 :=
  ⟨⟨by decide, ⟨_, rfl, by decide⟩, ⟨_, rfl, by decide⟩, by decide⟩, by decide, ⟨_, rfl, by decide⟩, _, rfl, by decide⟩

theorem test_witness_sizesTouchNothing :
    IsSize .szSb ∧ EndsWith .szSb (writing 1) 0 ∧ EndsWith .szSb (writing 0x80000000) 4 ∧
      broken.dinV = (writing 0).dinV ∧ broken.din = (writing 0).din :=
  ⟨by decide, ⟨_, rfl, by decide⟩, ⟨_, rfl, by decide⟩, by decide, by decide⟩

theorem test_witness_counters :
    (∃ t, exec .rdU16 (reading [1]) = .next t ∧ t.source.pulled = [1]) ∧
      ∃ t, exec .wrU64 (pending 0) = .next t ∧ t.sink.taken = [0xA0, 0, 0, 0, 0, 0, 0, 0, 0] :=
  ⟨⟨_, rfl, by decide⟩, _, rfl, by decide⟩

theorem test_witness_modes :
    (EndsWith .rdU8 (midByte 3 [1]) 0 ∧ ByteLevel .rdU8 ∧ OnReader .rdU8) ∧
      (EndsWith .wrU8 (pending 1) 0 ∧ ByteLevel .wrU8 ∧ OnWriter .wrU8) ∧
      (EndsWith (.rdUb 4) (midByte 3 [1]) 0 ∧ (Instr.rdUb 4).takesWidth = true) ∧
      (EndsWith (.wrUb 5) (pending 1) 0 ∧ (Instr.wrUb 5).takesWidth = true) ∧
      EndsWith (.rdUb 4) (midByte 3 []) 1 ∧ EndsWith .wrAlign (pendingTo 0 1) 2 :=
  ⟨⟨⟨_, rfl, by decide⟩, by decide, by decide⟩, ⟨⟨_, rfl, by decide⟩, by decide, by decide⟩,
    ⟨⟨_, rfl, by decide⟩, by decide⟩, ⟨⟨_, rfl, by decide⟩, by decide⟩, ⟨_, rfl, by decide⟩, _, rfl, by decide⟩

theorem test_witness_align :
    (midByte 3 []).r.err = 0 ∧ broken.r.err ≠ 0 ∧ (writing 1).w.err = 0 ∧ (writing 1).w.cnt = 0 ∧
      (pending 1).w.err = 0 ∧ (pending 1).w.cnt ≠ 0 ∧ (∃ snk, (pending 1).sink.push 0xA0 = (.ok, snk)) ∧
      (∃ snk, (pendingTo 0 1).sink.push 0xA0 = (.fail, snk)) ∧ broken.w.err ≠ 0 :=
  ⟨by decide, by decide, by decide, by decide, by decide, by decide, ⟨_, rfl⟩, ⟨_, rfl⟩, by decide⟩

theorem test_witness_alignTwice :
    EndsWith .rdAlign (midByte 3 []) 0 ∧ EndsWith .wrAlign (pending 1) 0 ∧ (reading []).rdStart.unit.cnt = 0 ∧
      (writing 1).wrStart.unit.cnt = 0 :=
  ⟨⟨_, rfl, by decide⟩, ⟨_, rfl, by decide⟩, by decide, by decide⟩

theorem test_witness_oneBit :
    (writing 1).w = { acc := 0, cnt := 0, total := (writing 1).w.total, err := 0 } ∧ (writing 1).dinV = true ∧
      (writing 1).din = 1 ∧ (writing 0).din = 0 ∧ (writing 1).w.total.toNat + 1 < 2 ^ 64 ∧
      (∃ snk, (writing 1).sink.push 0x80 = (.ok, snk)) ∧ ∃ snk, (writing 0).sink.push 0x00 = (.ok, snk) :=
  ⟨by decide, by decide, by decide, by decide, by decide, ⟨_, rfl⟩, _, rfl⟩

/-- For the byte reads of 1, 2, 4 and 8 bytes, signed, unsigned and floating, and of Float16, Fixed and Fixed8. -/
theorem test_witness_byteReads :
    (midByte 5 []).r.err = 0 ∧ (midByte 5 []).r.total.toNat + 8 < 2 ^ 64 ∧
      (∃ src, (midByte 5 [1]).source.takeBytes 1 = some ([1], src)) ∧
      (∃ src, (midByte 5 [1, 2]).source.takeBytes 2 = some ([1, 2], src)) ∧
      (∃ src, (midByte 5 [1, 2, 3, 4]).source.takeBytes 4 = some ([1, 2, 3, 4], src)) ∧
      (∃ src, (midByte 5 [1, 2, 3, 4, 5, 6, 7, 8]).source.takeBytes 8 = some ([1, 2, 3, 4, 5, 6, 7, 8], src)) ∧
      (∃ src, StopsAfter (midByte 5 []) [] .endOfData src) ∧ (∃ src, StopsAfter (midByte 5 [1]) [1] .endOfData src) ∧
      ∃ src, StopsAfter { midByte 5 [] with source := { script := [.byte 1, .fail], beyond := none, asked := 0, pulled := [] } }
        [1] .fail src :=
  ⟨by decide, by decide, ⟨_, rfl⟩, ⟨_, rfl⟩, ⟨_, rfl⟩, ⟨_, rfl⟩, ⟨_, _, rfl, rfl, by simp⟩, ⟨_, _, rfl, rfl, by simp⟩,
    _, _, rfl, rfl, by simp⟩

/-- For the byte writes, EncodedU32, Float16, Fixed and Fixed8: DIN missing, the sink taking everything after pending
bits, and the sink refusing the padding, the first byte and the last. -/
theorem test_witness_byteWrites :
    State.reset.w.err = 0 ∧ State.reset.dinV = false ∧ (pending 0x1234).w.err = 0 ∧ (pending 0x1234).dinV = true ∧
      padding (pending 0x1234).w ++ leBytes 2 (pending 0x1234).din.toNat = [0xA0, 0x34, 0x12] ∧
      (∃ snk, (pending 0x1234).sink.takes [0xA0, 0x34, 0x12] = some snk) ∧
      (pending 0x1234).w.total.toNat + 9 < 2 ^ 64 ∧
      (∃ t snk, (pendingTo 0 0x1234).sink.takes [] = some t ∧ t.push 0xA0 = (.fail, snk)) ∧
      (∃ t snk, (pendingTo 1 0x1234).sink.takes [0xA0] = some t ∧ t.push 0x34 = (.fail, snk)) ∧
      ∃ t snk, (pendingTo 2 0x1234).sink.takes [0xA0, 0x34] = some t ∧ t.push 0x12 = (.fail, snk) :=
  ⟨by decide, by decide, by decide, by decide, by decide, ⟨_, rfl⟩, by decide, ⟨_, _, rfl, rfl⟩, ⟨_, _, rfl, rfl⟩,
    _, _, rfl, rfl⟩

/-- For each type: a value written at a byte boundary, and a Reader that is given those bytes. -/
theorem test_witness_byteRoundTrip :
    ∀ p ∈ [(Instr.wrU8, 1), (.wrS8, 1), (.wrU16, 2), (.wrS16, 2), (.wrU32, 4), (.wrS32, 4), (.wrU64, 8), (.wrS64, 8),
        (.wrF32, 4), (.wrF64, 8)],
      (writing (-2)).w.cnt = 0 ∧ (after (exec p.1 (writing (-2)))).map (fun t => (code t, t.sink.taken)) =
          some (0, leBytes p.2 (2 ^ 64 - 2)) ∧
        ((reading (leBytes p.2 (2 ^ 64 - 2))).source.takeBytes p.2).map Prod.fst = some (leBytes p.2 (2 ^ 64 - 2)) ∧
        (reading []).r.err = 0 ∧ (reading []).r.cnt = 0 ∧ (reading []).r.total.toNat + 8 < 2 ^ 64 := by
  decide

/-- Width reads: widths 0, 32 and 33, at every kind of position, and a source that stops. -/
theorem test_witness_fieldReads :
    (midByte 3 []).r.err = 0 ∧ 32 < 33 ∧ bytesNeeded 0 3 = 0 ∧ (∃ src, (midByte 3 []).source.takeBytes 0 = some ([], src)) ∧
      bytesNeeded 32 3 = 4 ∧ (∃ src, (midByte 3 [1, 2, 3, 4]).source.takeBytes 4 = some ([1, 2, 3, 4], src)) ∧
      bytesNeeded 3 3 = 0 ∧ bytesNeeded 4 3 = 1 ∧ (∃ src, (midByte 3 [1]).source.takeBytes 1 = some ([1], src)) ∧
      (midByte 3 []).r.total.toNat + 4 < 2 ^ 64 ∧ (∃ src, StopsAfter (midByte 3 []) [] .endOfData src) ∧
      ∃ src, StopsAfter (midByte 3 [1, 2, 3]) [1, 2, 3] .endOfData src :=
  ⟨by decide, by decide, by decide, ⟨_, rfl⟩, by decide, ⟨_, rfl⟩, by decide, by decide, ⟨_, rfl⟩, by decide,
    ⟨_, _, rfl, rfl, by simp⟩, _, _, rfl, rfl, by simp⟩

theorem test_witness_fieldSpans :
    (midByte 3 [0xAB]).r.cnt.toNat < 4 ∧ (midByte 3 [0xAB]).r.err = 0 ∧
      (∃ src, (midByte 3 [0xAB]).source.takeBytes ((4 - 3 + 7) / 8) = some ([0xAB], src)) ∧
      (midByte 3 [0xAB]).r.total.toNat + 1 < 2 ^ 64 :=
  ⟨by decide, by decide, ⟨_, rfl⟩, by decide⟩

/-- Width writes: no DIN, width 33, the values next to each bound, a full and a partial byte, and a sink that refuses. -/
theorem test_witness_fieldWrites :
    State.reset.w.err = 0 ∧ State.reset.dinV = false ∧ (pending 7).dinV = true ∧ (2 ^ 3 ≤ (pending 8).din.toNat) ∧
      ¬ 2 ^ 3 ≤ (pending 7).din.toNat ∧ ¬ FitsSigned (pending 4).din.toInt 3 ∧ FitsSigned (pending (-4)).din.toInt 3 ∧
      FitsSigned (pending 0).din.toInt 0 ∧ ¬ FitsSigned (pending 1).din.toInt 0 ∧
      flushedBy 3 7 (pending 7).w = [] ∧ (∃ snk, (pending 7).sink.takes [] = some snk) ∧
      flushedBy 5 7 (pending 7).w = [0xA7] ∧ (∃ snk, (pending 7).sink.takes [0xA7] = some snk) ∧
      (pending 7).w.total.toNat + 5 < 2 ^ 64 ∧
      ∃ t snk, (pendingTo 0 7).sink.takes [] = some t ∧ t.push 0xA7 = (.fail, snk) :=
  ⟨by decide, by decide, by decide, by decide, by decide, by decide, by decide, by decide, by decide, by decide,
    ⟨_, rfl⟩, by decide, ⟨_, rfl⟩, by decide, _, _, rfl, rfl⟩

/-- FB, Fixed and Fixed8 values: not finite, and finite. -/
theorem test_witness_fixedRejects :
    fixedRejects 16 32 0x7FF0000000000000 3 ∧ f64Finite 0x40E0000000000000 = true ∧
      f64Finite 0xBFE0000000000000 = true :=
  ⟨.inl ⟨by decide, rfl⟩, by decide, by decide⟩

/-- 32768 is rejected with INFO 2 at 16 fraction bits and 32 bits, and -0.5 is not rejected. -/
theorem test_witness_fixedRange :
    fixedRejects 16 32 0x40E0000000000000 2 ∧ ∀ info, ¬ fixedRejects 16 32 0xBFE0000000000000 info := by
  constructor
  · refine .inr ⟨by decide, ?_, rfl⟩
    rw [← fxRaw_eq_trunc0, show fxRaw 0x40E0000000000000 16 = 2147483648 by decide]
    decide
  · rintro info (⟨h, -⟩ | ⟨-, h, -⟩)
    · exact absurd h (by decide)
    · rw [← fxRaw_eq_trunc0, show fxRaw 0xBFE0000000000000 16 = -32768 by decide] at h
      exact h (by decide)

/-- Size commands: no DIN, the last value that fits and the first that does not. -/
theorem test_witness_sizes :
    State.reset.dinV = false ∧ (writing 0xFFFFFFFF).dinV = true ∧ ¬ 2 ^ 32 ≤ (writing 0xFFFFFFFF).din.toNat ∧
      2 ^ 32 ≤ (writing 0x100000000).din.toNat ∧ FitsSigned (writing (-2147483648)).din.toInt 32 ∧
      ¬ FitsSigned (writing 0x80000000).din.toInt 32 := by decide

theorem test_witness_sizesMinimal :
    EndsWith .szUb (writing 0xFFFFFFFF) 0 ∧ EndsWith .szSb (writing (-1)) 0 ∧
      EndsWith .szFb (writing 0x3FF0000000000000) 0 ∧ (writing 0).w.err = 0 :=
  ⟨⟨_, rfl, by decide⟩, ⟨_, rfl, by decide⟩, ⟨_, rfl, by decide⟩, by decide⟩

/-- A field of five bits after three pending ones fills a byte: no byte is left for the align. -/
theorem test_witness_fieldRoundTrip :
    AccFits (pending 7) ∧ (reading [0xA7]).r.err = 0 ∧ (reading [0xA7]).r.cnt = 0 ∧
      (reading [0xA7]).r.total.toNat + 9 < 2 ^ 64 ∧
      (∃ t u, exec (.wrUb 5) (pending 7) = .next t ∧ exec (.wrSb 5) (pending 7) = .next t ∧ code t = 0 ∧
        exec .wrAlign t = .next u ∧ code u = 0 ∧ u.sink.taken = [0xA7]) ∧
      (∃ t u, exec (.wrFb 18) (pending 0x3FF0000000000000) = .next t ∧ code t = 0 ∧ exec .wrAlign t = .next u ∧
        code u = 0 ∧ u.sink.taken = [0xA8, 0, 0]) ∧
      ∃ src, (reading [0xA7]).source.takeBytes ((3 + 5 + 7) / 8) = some ([0xA7], src) :=
  ⟨by decide, by decide, by decide, by decide, ⟨_, _, rfl, rfl, by decide, rfl, by decide, by decide⟩,
    ⟨_, _, rfl, by decide, rfl, by decide, by decide⟩, _, rfl⟩

/-- EncodedU32 reads: one byte, five bytes with the greatest and the least rejected fifth, and a source that stops. -/
theorem test_witness_varintRead :
    (midByte 3 []).r.err = 0 ∧ (midByte 3 []).r.total.toNat + 5 < 2 ^ 64 ∧
      (∃ src, (midByte 3 [0x7F]).source.takeBytes 1 = some ([0x7F], src)) ∧
      (∃ src, (midByte 3 [0x80, 0x80, 0x80, 0x80, 0x0F]).source.takeBytes 5 =
        some ([0x80, 0x80, 0x80, 0x80] ++ [0x0F], src)) ∧
      (∃ src, (midByte 3 [0x80, 0x80, 0x80, 0x80, 0x10]).source.takeBytes 5 =
        some ([0x80, 0x80, 0x80, 0x80] ++ [0x10], src)) ∧
      ∃ src, StopsAfter (midByte 3 [0x80, 0x80, 0x80, 0x80]) [0x80, 0x80, 0x80, 0x80] .endOfData src :=
  ⟨by decide, by decide, ⟨_, rfl⟩, ⟨_, rfl⟩, ⟨_, rfl⟩, _, _, rfl, rfl, by simp⟩

theorem test_witness_varintWrite :
    (pending 0xFFFFFFFF).w.err = 0 ∧ (pending 0xFFFFFFFF).dinV = true ∧ (pending 0xFFFFFFFF).din.toNat < 2 ^ 32 ∧
      2 ^ 32 ≤ (pending 0x100000000).din.toNat ∧
      padding (pending 300).w ++ varintBytes (pending 300).din.toNat = [0xA0, 0xAC, 0x02] ∧
      (∃ snk, (pending 300).sink.takes [0xA0, 0xAC, 0x02] = some snk) ∧
      ∃ t snk, (pendingTo 1 300).sink.takes [0xA0] = some t ∧ t.push 0xAC = (.fail, snk) :=
  ⟨by decide, by decide, by decide, by decide, by decide, ⟨_, rfl⟩, _, _, rfl, rfl⟩

theorem test_witness_varintRoundTrip :
    (∃ t, exec .wrVu32 (writing 300) = .next t ∧ code t = 0 ∧ t.sink.taken = [0xAC, 0x02]) ∧
      IsLeast (fun m => 1 ≤ m ∧ (writing 300).din.toNat < 128 ^ m) 2 ∧ (writing 300).w.cnt = 0 ∧
      (∃ src, (reading [0xAC, 0x02]).source.takeBytes 2 = some ([0xAC, 0x02], src)) ∧
      (reading [0xAC, 0x02]).r.err = 0 ∧ (reading []).r.total.toNat + 9 < 2 ^ 64 ∧
      EndsWith .rdVu32 (reading [0xFF, 0xFF, 0xFF, 0xFF, 0x10]) 3 ∧
      EndsWith .rdVu32 (reading [0xFF, 0xFF, 0xFF, 0xFF, 0x0F]) 0 := by
  refine ⟨⟨_, rfl, by decide, by decide⟩, ⟨⟨by decide, by decide⟩, fun m hm => ?_⟩, by decide, ⟨_, rfl⟩, by decide,
    by decide, ⟨_, rfl, by decide⟩, _, rfl, by decide⟩
  by_contra h
  obtain ⟨h1, h2⟩ := hm
  obtain rfl : m = 1 := by omega
  exact absurd h2 (by decide)

/-- Float16 words of each kind: zero, subnormal, normal, infinite and NaN. -/
theorem test_witness_halfRead :
    f16Exp (leValue [0x00, 0x80]) ≠ 31 ∧ f16Exp (leValue [0xFF, 0x03]) ≠ 31 ∧ f16Exp (leValue [0xFF, 0x7B]) ≠ 31 ∧
      (f16Exp (leValue [0x00, 0xFC]) = 31 ∧ f16Frac (leValue [0x00, 0xFC]) = 0) ∧
      (f16Exp (leValue [0x01, 0x7C]) = 31 ∧ f16Frac (leValue [0x01, 0x7C]) ≠ 0) ∧
      ∃ src, (midByte 3 [0x01, 0x7C]).source.takeBytes 2 = some ([0x01, 0x7C], src) :=
  ⟨by decide, by decide, by decide, by decide, by decide, _, rfl⟩

theorem test_witness_halfEncoding :
    f32Exp 0x33000000 ≠ 255 ∧ f32Mag 0x33000000 ≠ 0 ∧ f32Exp 0x00000001 ≠ 255 ∧ f32Mag 0x00000001 ≠ 0 ∧
      f32Exp 0x7F7FFFFF ≠ 255 ∧ f32Mag 0x7F7FFFFF ≠ 0 := by decide

/-- binary32 operands of each kind: zero, finite, infinite and NaN; DIN's upper half is ignored. -/
theorem test_witness_halfWrite :
    (pending 0x1280000000).w.err = 0 ∧ (pending 0x1280000000).dinV = true ∧
      (0x80000000 : BitVec 32) = BitVec.ofNat 32 (pending 0x1280000000).din.toNat ∧
      (f32Exp 0x80000000 ≠ 255 ∧ f32Mag 0x80000000 = 0) ∧ (f32Exp 0x3F800000 ≠ 255 ∧ f32Mag 0x3F800000 ≠ 0) ∧
      (f32Exp 0xFF800000 = 255 ∧ f32Frac 0xFF800000 = 0) ∧ IsNan32 0x7FC00000 ∧
      (∃ snk, (pending 0).sink.takes [0xA0, 0, 0x7C] = some snk) ∧
      (pending 0).w.total.toNat + (padding (pending 0).w).length + 2 < 2 ^ 64 ∧
      ∃ t snk, (pendingTo 0 0).sink.takes [] = some t ∧ t.push 0xA0 = (.fail, snk) :=
  ⟨by decide, by decide, by decide, by decide, by decide, by decide, by decide, ⟨_, rfl⟩, by decide, _, _, rfl, rfl⟩

theorem test_witness_halfRoundTrip :
    ¬ IsNan16 0x8000 ∧ ¬ IsNan16 0x03FF ∧ ¬ IsNan16 0x7BFF ∧ ¬ IsNan16 0x7C00 ∧ IsNan16 0x7C01 := by decide

theorem test_witness_fixedRoundTrip :
    (writing 0xBFE0000000000000).w.cnt = 0 ∧
      (∃ t, exec .wrFx32 (writing 0xBFE0000000000000) = .next t ∧ code t = 0 ∧ t.sink.taken = [0, 0x80, 0xFF, 0xFF]) ∧
      (∃ t, exec .wrFx8 (writing 0xBFE0000000000000) = .next t ∧ code t = 0 ∧ t.sink.taken = [0x80, 0xFF]) ∧
      (∃ src, (reading [0, 0x80, 0xFF, 0xFF]).source.takeBytes 4 = some ([0, 0x80, 0xFF, 0xFF], src)) ∧
      (∃ src, (reading [0x80, 0xFF]).source.takeBytes 2 = some ([0x80, 0xFF], src)) ∧
      (reading []).r.err = 0 ∧ (reading []).r.total.toNat + 4 < 2 ^ 64 :=
  ⟨by decide, ⟨_, rfl, by decide, by decide⟩, ⟨_, rfl, by decide, by decide⟩, ⟨_, rfl⟩, ⟨_, rfl⟩, by decide, by decide⟩

end Sys2Proof.Tests
end

section
/-! The byte counters. A command whose body runs either fits its counter, and the body's state follows, or is
CounterOverflow; where the counter starts higher by `n`, the state that follows is the same with `n` added. -/

namespace Sys2Proof.Machine
open Sys2Proof.Claims

/-! ### What a body that ran adds to its counter -/

theorem RdMoves.delta_le {α : Type} {s : State} {x : Res RdCtx α} (h : RdMoves 9 s.rdStart x) : x.ctx.delta ≤ 9 := by
  obtain ⟨bs, hn, -, hd, -⟩ := h.moved
  simpa [hd] using hn

theorem WrMoves.delta_le {α : Type} {s : State} {x : Res WrCtx α} (h : WrMoves 9 s.wrStart x) : x.ctx.delta ≤ 9 := by
  obtain ⟨bs, hn, -, hd, -⟩ := h.moved
  simpa [hd] using hn

theorem State.afterRead_total {s : State} {x : Res RdCtx (Option Word)} (h : RdMoves 9 s.rdStart x) :
    (s.afterRead x).r.total = s.r.total + BitVec.ofNat 64 x.ctx.delta := by
  obtain ⟨bs, -, -, hd, ht⟩ := h.moved
  rw [hd, State.rdStart_delta, Nat.zero_add]
  refine Eq.trans ?_ ht
  rcases x with ⟨_ | _, c⟩ | ⟨v, c⟩ <;> rfl

theorem State.afterWrite_total {s : State} {x : Res WrCtx Unit} (h : WrMoves 9 s.wrStart x) :
    (s.afterWrite x).w.total = s.w.total + BitVec.ofNat 64 x.ctx.delta := by
  obtain ⟨bs, -, -, hd, ht, -⟩ := h.moved
  rw [hd, State.wrStart_delta, Nat.zero_add]
  refine Eq.trans ?_ ht
  rcases x with ⟨_, c⟩ | ⟨v, c⟩ <;> rfl

theorem toNat_add_ofNat_of_lt {x : Word} {n : Nat} (h : x.toNat + n < 2 ^ 64) :
    (x + BitVec.ofNat 64 n).toNat = x.toNat + n := by
  rw [BitVec.toNat_add, BitVec.toNat_ofNat]
  omega

/-! ### A body that runs fits the counter or overflows it -/

/-- What the body of a Reader command does in `s`, after the implicit align. -/
def readerRun (aligns : Bool) (body : RdCtx → Res RdCtx (Option Word)) (s : State) : Res RdCtx (Option Word) :=
  body (if aligns then alignR s.rdStart else s.rdStart)

section
variable {i : Instr} {check : Option Verdict} {aligns : Bool} {body : RdCtx → Res RdCtx (Option Word)} {s : State}

theorem IsReaderCycle.run_moves (h : IsReaderCycle i check aligns body) (hc : check = none) :
    RdMoves 9 s.rdStart (readerRun aligns body s) := by
  have hm := h.moves hc (if aligns then alignR s.rdStart else s.rdStart) (by rintro rfl; rfl)
  cases aligns with
  | true => exact ⟨hm.moved, hm.asked, hm.err, hm.raised, hm.draws⟩
  | false => exact hm

theorem IsReaderCycle.exec_fits (h : IsReaderCycle i check aligns body) (hc : check = none) (he : s.r.err = 0)
    (hroom : s.r.total.toNat + (readerRun aligns body s).ctx.delta < 2 ^ 64) :
    exec i s = .next (s.afterRead (readerRun aligns body s)) := by
  rw [h.exec_eq, hc]
  exact readerCycle_runs he rfl hroom

theorem IsReaderCycle.exec_overflows (h : IsReaderCycle i check aligns body) (hc : check = none) (he : s.r.err = 0)
    (hroom : 2 ^ 64 ≤ s.r.total.toNat + (readerRun aligns body s).ctx.delta) :
    exec i s = .fault .counterOverflow := by
  have hd := (h.run_moves (s := s) hc).delta_le
  rw [h.exec_eq, hc]
  exact readerCycle_overflows he rfl hd hroom

/-- A Reader command whose body pulls `n` bytes. -/
theorem IsReaderCycle.countsOrFaults (h : IsReaderCycle i check aligns body) (hc : check = none) (he : s.r.err = 0)
    {n : Nat} (hn : (readerRun aligns body s).ctx.delta = n) : CountsOrFaults i s (·.r.total) n := by
  subst hn
  refine ⟨h.exec_overflows hc he, fun hroom => ⟨_, h.exec_fits hc he hroom, ?_⟩⟩
  exact (congrArg _ (State.afterRead_total (h.run_moves hc))).trans (toNat_add_ofNat_of_lt hroom)

end

section
variable {i : Instr} {check : Word → Option Verdict} {aligns : Bool} {body : Word → WrCtx → Res WrCtx Unit} {s : State}

theorem IsWriterCycle.exec_fits (h : IsWriterCycle i check aligns body) (hc : check s.din = none) (he : s.w.err = 0)
    (hv : 2 ≤ i.opc % 64 → s.dinV = true)
    (hroom : s.w.total.toNat + (writerBody aligns (body s.din) s.wrStart).ctx.delta < 2 ^ 64) :
    exec i s = .next (s.afterWrite (writerBody aligns (body s.din) s.wrStart)) := by
  rw [h.exec_eq, hc]
  exact writerCycle_runs he (by simpa using hv) rfl hroom

theorem IsWriterCycle.exec_overflows (h : IsWriterCycle i check aligns body) (hc : check s.din = none)
    (he : s.w.err = 0) (hv : 2 ≤ i.opc % 64 → s.dinV = true)
    (hroom : 2 ^ 64 ≤ s.w.total.toNat + (writerBody aligns (body s.din) s.wrStart).ctx.delta) :
    exec i s = .fault .counterOverflow := by
  have hd := (h.moves s.din hc s.wrStart).delta_le
  rw [h.exec_eq, hc]
  exact writerCycle_overflows he (by simpa using hv) rfl hd hroom

/-- A Writer command whose align and body push `n` bytes. -/
theorem IsWriterCycle.countsOrFaults (h : IsWriterCycle i check aligns body) (hc : check s.din = none)
    (he : s.w.err = 0) (hv : 2 ≤ i.opc % 64 → s.dinV = true) {n : Nat}
    (hn : (writerBody aligns (body s.din) s.wrStart).ctx.delta = n) : CountsOrFaults i s (·.w.total) n := by
  subst hn
  refine ⟨h.exec_overflows hc he hv, fun hroom => ⟨_, h.exec_fits hc he hv hroom, ?_⟩⟩
  exact (congrArg _ (State.afterWrite_total (h.moves s.din hc _))).trans (toNat_add_ofNat_of_lt hroom)

end

/-! ### How many bytes each command moves -/

theorem decodeHalf_delta (h : Nat) (c : RdCtx) : (decodeHalf h c).ctx.delta = c.delta := by
  rw [decodeHalf]
  split_ifs <;> rfl

theorem readFixed_countsOrFaults {i : Instr} {k : Nat} {format : Nat → Word} (h : ∀ s, exec i s = readFixed k format s)
    (hi : k ≤ 9 ∧ 2 ≤ i.opc % 64 ∧ i.takesWidth = false) (s : State) (bs : List Byte) (src : Source) (he : s.r.err = 0)
    (ht : s.source.takeBytes k = some (bs, src)) : CountsOrFaults i s (·.r.total) k := by
  refine (readFixed_isCycle h hi.1 hi.2).countsOrFaults rfl he ?_
  have hr : readBytesLE k (alignR s.rdStart) = _ := readBytesLE_done rfl ht
  simp [readerRun, hr, Source.takeBytes_length ht]

theorem rdF16_countsOrFaults (s : State) (bs : List Byte) (src : Source) (he : s.r.err = 0)
    (ht : s.source.takeBytes 2 = some (bs, src)) : CountsOrFaults .rdF16 s (·.r.total) 2 := by
  refine rdF16_isCycle.countsOrFaults rfl he ?_
  have hr : readBytesLE 2 (alignR s.rdStart) = _ := readBytesLE_done rfl ht
  simp [readerRun, hr, decodeHalf_delta, Source.takeBytes_length ht]

theorem readField_countsOrFaults {i : Instr} {w : Nat} {format : Nat → Word}
    (h : ∀ s, exec i s = readField w format s) (hi : 2 ≤ i.opc % 64 ∧ i.takesWidth = true ∧ i.wField = w)
    {s : State} {bs : List Byte} {src : Source} (hw : w ≤ 32) (he : s.r.err = 0)
    (ht : s.source.takeBytes (bytesNeeded w s.r.cnt) = some (bs, src)) :
    CountsOrFaults i s (·.r.total) (bytesNeeded w s.r.cnt) := by
  refine (readField_isCycle h hi).countsOrFaults (by simp [checkWidth, hw]) he ?_
  have hr : readBits w s.rdStart = _ := readBits_done ht
  simp [readerRun, hr, Source.takeBytes_length ht]

/-- RD.VU32 pulls the bytes up to the one that ends the loop, a rejected fifth byte counted. -/
theorem readVarint_delta {c : RdCtx} {as : List Byte} {b : Byte} {src : Source} (h0 : c.unit.cnt = 0)
    (has : ∀ a ∈ as, 128 ≤ a.toNat) (hl : as.length ≤ 4) (hb : b.toNat < 128 ∨ as.length = 4)
    (ht : c.source.takeBytes (as.length + 1) = some (as ++ [b], src)) :
    (readVarint 5 0 0 c).ctx.delta = c.delta + (as.length + 1) := by
  by_cases h5 : as.length = 4 ∧ 15 < b.toNat
  · rw [readVarint_malformed h0 (by omega) (by omega) has h5.2 ht]
    simp
  · rw [readVarint_done h0 (by omega) (by omega) has (by omega) (by omega) ht]
    simp

theorem rdVu32_countsOrFaults {s : State} {as : List Byte} {b : Byte} {src : Source} (he : s.r.err = 0)
    (has : ∀ a ∈ as, 128 ≤ a.toNat) (hl : as.length ≤ 4) (hb : b.toNat < 128 ∨ as.length = 4)
    (ht : s.source.takeBytes (as.length + 1) = some (as ++ [b], src)) :
    CountsOrFaults .rdVu32 s (·.r.total) (as.length + 1) := by
  refine rdVu32_isCycle.countsOrFaults rfl he ?_
  have hr := readVarint_delta (c := alignR s.rdStart) rfl has hl hb ht
  simpa [readerRun] using hr

theorem writerBody_align_taken {body : WrCtx → Res WrCtx Unit} {c : WrCtx} {t : Sink}
    (h : c.sink.takes (padding c.unit) = some t) :
    writerBody true body c = body (c.flushing (padding c.unit) (if c.unit.cnt = 0 then c.unit.acc else 0) 0 t) := by
  rw [writerBody, if_pos rfl, alignW_done h, Res.andThen_done]

theorem writeFixed_countsOrFaults {i : Instr} {k : Nat} (h : ∀ s, exec i s = writeFixed k s)
    (hi : (k ≤ 8 ∧ k ≠ 0) ∧ 2 ≤ i.opc % 64 ∧ i.takesWidth = false) (s : State) (snk : Sink) (he : s.w.err = 0)
    (hv : s.dinV = true) (ht : s.sink.takes (padding s.w ++ leBytes k s.din.toNat) = some snk) :
    CountsOrFaults i s (·.w.total) ((padding s.w).length + k) := by
  refine (writeBytes_isCycle (check := fun _ => none) (f := BitVec.toNat) h (by simp) hi.1 hi.2).countsOrFaults
    rfl he (fun _ => hv) ?_
  obtain ⟨t, hp, hb⟩ := Sink.takes_append.1 ht
  rw [writerBody_align_taken hp, writeBytesLE_done (snk := snk) rfl hb hi.1.2]
  simp

theorem wrAlign_countsOrFaults {s : State} {snk : Sink} (he : s.w.err = 0)
    (ht : s.sink.takes (padding s.w) = some snk) : CountsOrFaults .wrAlign s (·.w.total) (padding s.w).length := by
  refine wrAlign_isCycle.countsOrFaults rfl he (by simp [Instr.opc]) ?_
  have ha : alignW s.wrStart = _ := alignW_done ht
  simp [writerBody, ha]

/-- Settles O22: every listed command is a cycle whose body moves exactly the bytes the stream delivers or takes. -/
theorem counterOverflowIsAHostFault : Obligations.CounterOverflowIsAHostFault := by
  unfold Obligations.CounterOverflowIsAHostFault
  have read {i : Instr} {k : Nat} {format : Nat → Word} (h : ∀ s, exec i s = readFixed k format s) :=
    readFixed_countsOrFaults h
  have write {i : Instr} {k : Nat} (h : ∀ s, exec i s = writeFixed k s) := writeFixed_countsOrFaults h
  refine ⟨?_, ?_, fun s as b src he has hl hb ht => rdVu32_countsOrFaults he has hl hb ht, ?_,
    fun s snk he ht => wrAlign_countsOrFaults he ht⟩
  · simp only [List.forall_mem_cons, List.not_mem_nil, false_imp_iff, implies_true, and_true]
    exact ⟨read (fun _ => rfl) (by decide), read (fun _ => rfl) (by decide), read (fun _ => rfl) (by decide),
      read (fun _ => rfl) (by decide), read (fun _ => rfl) (by decide), read (fun _ => rfl) (by decide),
      read (fun _ => rfl) (by decide), read (fun _ => rfl) (by decide), read (fun _ => rfl) (by decide),
      read (fun _ => rfl) (by decide), rdF16_countsOrFaults, read (fun _ => rfl) (by decide),
      read (fun _ => rfl) (by decide)⟩
  · simp only [List.forall_mem_cons, List.not_mem_nil, false_imp_iff, implies_true, and_true]
    refine ⟨?_, ?_, ?_⟩ <;> intro w s bs src <;>
      exact readField_countsOrFaults (fun _ => rfl) (by simp [Instr.opc, Instr.takesWidth, Instr.wField])
  · simp only [List.forall_mem_cons, List.not_mem_nil, false_imp_iff, implies_true, and_true]
    exact ⟨write (fun _ => rfl) (by decide), write (fun _ => rfl) (by decide), write (fun _ => rfl) (by decide),
      write (fun _ => rfl) (by decide), write (fun _ => rfl) (by decide), write (fun _ => rfl) (by decide),
      write (fun _ => rfl) (by decide), write (fun _ => rfl) (by decide), write (fun _ => rfl) (by decide),
      write (fun _ => rfl) (by decide)⟩

end Sys2Proof.Machine
end

section
/-! No command looks at its counter but for room: what it does with both counters at 0 it does with any counters,
the bytes added (40_command_cycle.md R94). -/

namespace Sys2Proof.Machine
open Sys2Proof.Claims

/-- `t` with `m` more bytes on R.TOTAL and `n` more on W.TOTAL. -/
def State.recounted (t : State) (m n : Word) : State :=
  { t with r := { t.r with total := m + t.r.total }, w := { t.w with total := n + t.w.total } }

@[simp] theorem uncounted_r (s : State) : (uncounted s).r = { s.r with total := 0 } := rfl
@[simp] theorem uncounted_w (s : State) : (uncounted s).w = { s.w with total := 0 } := rfl
@[simp] theorem uncounted_din (s : State) : (uncounted s).din = s.din := rfl
@[simp] theorem uncounted_dinV (s : State) : (uncounted s).dinV = s.dinV := rfl

theorem recounted_uncounted (s : State) : (uncounted s).recounted s.r.total s.w.total = s := by
  simp [State.recounted, uncounted]

theorem finish_recounted (s : State) (v : Verdict) (d : Nat) :
    ((uncounted s).finish v d).recounted s.r.total s.w.total = s.finish v d :=
  congrArg (State.finish · v d) (recounted_uncounted s)

theorem sized_recounted (s : State) (x : Word) (v : Verdict) (d : Nat) :
    (((uncounted s).setDout x).finish v d).recounted s.r.total s.w.total = (s.setDout x).finish v d :=
  congrArg (fun u : State => (u.setDout x).finish v d) (recounted_uncounted s)

theorem afterRead_recounted (s : State) (x : Res RdCtx (Option Word)) :
    ((uncounted s).afterRead x).recounted s.r.total s.w.total = s.afterRead (x.mapCtx (RdCtx.counted s.r.total)) := by
  rcases x with ⟨_ | d, c⟩ | ⟨v, c⟩ <;>
    simp [State.afterRead, State.recounted, Res.mapCtx, RdCtx.counted, State.finish, State.setDout, uncounted]

theorem afterWrite_recounted (s : State) (x : Res WrCtx Unit) :
    ((uncounted s).afterWrite x).recounted s.r.total s.w.total =
      s.afterWrite (x.mapCtx (WrCtx.counted s.w.total)) := by
  rcases x with ⟨d, c⟩ | ⟨v, c⟩ <;>
    simp [State.afterWrite, State.recounted, Res.mapCtx, WrCtx.counted, State.finish, uncounted]

theorem readerRun_uncounted {aligns : Bool} {body : RdCtx → Res RdCtx (Option Word)} (s : State)
    (h : Commutes (RdCtx.counted s.r.total) body) :
    readerRun aligns body s = (readerRun aligns body (uncounted s)).mapCtx (RdCtx.counted s.r.total) := by
  rw [readerRun, readerRun, ← h]
  cases aligns <;> simp [RdCtx.counted, State.rdStart, alignR, uncounted]

theorem wrStart_uncounted (s : State) : s.wrStart = (uncounted s).wrStart.counted s.w.total := by
  simp [WrCtx.counted, State.wrStart, uncounted]

@[simp] theorem RdCtx.counted_delta (n : Word) (c : RdCtx) : (c.counted n).delta = c.delta := rfl
@[simp] theorem WrCtx.counted_delta (n : Word) (c : WrCtx) : (c.counted n).delta = c.delta := rfl

/-- `exec i s` against `t`, what the command does with both counters at 0. -/
def RecountsOrFaults (i : Instr) (s t : State) : Prop :=
  (2 ^ 64 ≤ s.r.total.toNat + t.r.total.toNat ∨ 2 ^ 64 ≤ s.w.total.toNat + t.w.total.toNat →
    exec i s = .fault .counterOverflow) ∧
  (s.r.total.toNat + t.r.total.toNat < 2 ^ 64 → s.w.total.toNat + t.w.total.toNat < 2 ^ 64 →
    exec i s = .next (t.recounted s.r.total s.w.total))

/-- A command that moves nothing never overflows. -/
theorem RecountsOrFaults.of_still {i : Instr} {s t : State} (hr : t.r.total = 0) (hw : t.w.total = 0)
    (h : exec i s = .next (t.recounted s.r.total s.w.total)) : RecountsOrFaults i s t := by
  have h1 := s.r.total.isLt
  have h2 := s.w.total.isLt
  exact ⟨by simp [hr, hw]; omega, fun _ _ => h⟩

theorem toNat_ofNat_of_le_nine {n : Nat} (h : n ≤ 9) : (0 + BitVec.ofNat 64 n : Word).toNat = n := by
  rw [toNat_add_ofNat_of_lt (by simp; omega)]
  simp

theorem IsReaderCycle.recountsOrFaults {i : Instr} {check : Option Verdict} {aligns : Bool}
    {body : RdCtx → Res RdCtx (Option Word)} (h : IsReaderCycle i check aligns body) {s t : State}
    (ht : exec i (uncounted s) = .next t) : RecountsOrFaults i s t := by
  rcases h.next ht with ⟨he, rfl⟩ | ⟨he, v, -, hc, rfl⟩ | ⟨he, hc, x, hx, hm, -, rfl⟩
  · refine .of_still rfl rfl ?_
    rw [h.exec_eq, readerCycle_latched (by simpa using he), finish_recounted]
  · refine .of_still rfl rfl ?_
    rw [h.exec_eq, hc, readerCycle_rejected (by simpa using he), finish_recounted]
  · have hrun : readerRun aligns body s = x.mapCtx (RdCtx.counted s.r.total) := by
      rw [readerRun_uncounted s (h.counted _), hx, readerRun]
    have hdelta : (readerRun aligns body s).ctx.delta = x.ctx.delta := by simp [hrun]
    have hr : ((uncounted s).afterRead x).r.total.toNat = x.ctx.delta :=
      (congrArg _ (State.afterRead_total hm)).trans (toNat_ofNat_of_le_nine hm.delta_le)
    have hw : ((uncounted s).afterRead x).w.total.toNat = 0 := by rw [(State.afterRead_frame _ x).1]; rfl
    have := s.w.total.isLt
    rw [RecountsOrFaults, hr, hw, ← hdelta]
    refine ⟨fun ho => h.exec_overflows (s := s) hc he (by omega), fun hfit _ => ?_⟩
    rw [h.exec_fits (s := s) hc he hfit, hrun, afterRead_recounted]

theorem IsWriterCycle.recountsOrFaults {i : Instr} {check : Word → Option Verdict} {aligns : Bool}
    {body : Word → WrCtx → Res WrCtx Unit} (h : IsWriterCycle i check aligns body) {s t : State}
    (ht : exec i (uncounted s) = .next t) : RecountsOrFaults i s t := by
  have hv : (uncounted s).w.err = 0 → 2 ≤ i.opc % 64 → s.dinV = true := fun he ho => by
    by_contra hn
    rw [h.exec_eq, decide_eq_true ho, writerCycle_dinUnwritten he (by simpa using hn)] at ht
    cases ht
  rcases h.next ht with ⟨he, rfl⟩ | ⟨he, v, -, hc, rfl⟩ | ⟨he, hc, x, hx, hm, -, rfl⟩
  · refine .of_still rfl rfl ?_
    rw [h.exec_eq, writerCycle_latched (by simpa using he), finish_recounted]
  · refine .of_still rfl rfl ?_
    rw [uncounted_din] at hc
    rw [h.exec_eq, hc, writerCycle_rejected (s := s) he (by simpa using hv he), finish_recounted]
  · have hrun : writerBody aligns (body s.din) s.wrStart = x.mapCtx (WrCtx.counted s.w.total) := by
      rw [wrStart_uncounted, h.counted, hx, uncounted_din]
    have hdelta : (writerBody aligns (body s.din) s.wrStart).ctx.delta = x.ctx.delta := by simp [hrun]
    have hw : ((uncounted s).afterWrite x).w.total.toNat = x.ctx.delta :=
      (congrArg _ (State.afterWrite_total hm)).trans (toNat_ofNat_of_le_nine hm.delta_le)
    have hr : ((uncounted s).afterWrite x).r.total.toNat = 0 := by rw [(State.afterWrite_frame _ x).1]; rfl
    have := s.r.total.isLt
    rw [RecountsOrFaults, hr, hw, ← hdelta]
    refine ⟨fun ho => h.exec_overflows (s := s) hc he (hv he) (by omega), fun _ hfit => ?_⟩
    rw [h.exec_fits (s := s) hc he (hv he) hfit, hrun, afterWrite_recounted]

theorem IsSizeCycle.recountsOrFaults {i : Instr} {check : Word → Option Verdict} {size : Word → Nat}
    (h : IsSizeCycle i check size) {s t : State} (ht : exec i (uncounted s) = .next t) : RecountsOrFaults i s t := by
  obtain ⟨hv, ⟨v, -, hc, rfl⟩ | ⟨hc, rfl⟩⟩ := h.next ht <;> rw [uncounted_din] at hc <;> refine .of_still rfl rfl ?_
  · rw [h.exec_eq, hc, sizeCycle_rejected (s := s) hv, finish_recounted]
  · rw [h.exec_eq, hc, sizeCycle_runs (s := s) hv, sized_recounted, uncounted_din]

/-- Every command but the two INITs, which clear a counter. -/
theorem exec_recountsOrFaults {i : Instr} {s t : State} (hr : i ≠ .rdInit) (hw : i ≠ .wrInit)
    (ht : exec i (uncounted s) = .next t) : RecountsOrFaults i s t := by
  rcases exec_shape i with h | h | ⟨-, -, _, _, _, h⟩ | ⟨-, -, _, _, _, h⟩ | ⟨-, _, _, h⟩
  · exact absurd h hr
  · exact absurd h hw
  · exact h.recountsOrFaults ht
  · exact h.recountsOrFaults ht
  · exact h.recountsOrFaults ht

/-- Settles O56: the INITs by evaluation, every other command because its body commutes with a higher counter. -/
theorem everyCommandCountsOrFaults : Obligations.EveryCommandCountsOrFaults := by
  unfold Obligations.EveryCommandCountsOrFaults
  intro i s t ht
  have hr := s.r.total.isLt
  have hw := s.w.total.isLt
  by_cases hri : i = .rdInit
  · subst hri
    cases ht
    refine ⟨fun ho => ?_, fun _ _ => ?_⟩
    · simp [Reader.start] at ho
      omega
    · simp [exec, execRdInit, State.initReader, State.finish, uncounted, Reader.start]
  by_cases hwi : i = .wrInit
  · subst hwi
    cases ht
    refine ⟨fun ho => ?_, fun _ _ => ?_⟩
    · simp [Writer.start] at ho
      omega
    · simp [exec, execWrInit, State.initWriter, State.finish, uncounted, Writer.start]
  rw [if_neg hri, if_neg hwi]
  exact exec_recountsOrFaults hri hwi ht

end Sys2Proof.Machine
end

section
/-! The draws (00_scope.md R9, R10, R19). A stream is reached by pulls and offers alone, each of which moves its count
by one; a NaN takes the draw at its count; and no step turns a count back. -/

namespace Sys2Proof.Machine
open Sys2Proof.Claims

/-! ### Pulls and offers move the counts of the streams -/

@[simp] theorem sourceAfter_asked (n : Nat) (src : Source) : (sourceAfter n src).asked = src.asked + n := by
  induction n generalizing src with
  | zero => rfl
  | succ n ih =>
    rw [sourceAfter, ih, show src.pull.2.asked = src.asked + 1 from rfl]
    omega

@[simp] theorem sinkAfter_offered (n : Nat) (bs : List Byte) (snk : Sink) :
    (sinkAfter n bs snk).offered = snk.offered + n := by
  induction n generalizing bs snk with
  | zero => rfl
  | succ n ih =>
    cases bs <;> rw [sinkAfter, ih, show ∀ b, (snk.push b).2.offered = snk.offered + 1 from fun _ => rfl] <;> omega

/-- Bytes the sink takes, and more offers after them. -/
theorem Sink.takes_sinkAfter {bs : List Byte} {snk t : Sink} (h : snk.takes bs = some t) (n : Nat) (cs : List Byte) :
    sinkAfter (bs.length + n) (bs ++ cs) snk = sinkAfter n cs t := by
  induction bs generalizing snk with
  | nil => cases h; simp
  | cons b bs ih =>
    rw [Sink.takes] at h
    split at h
    next u hp => rw [List.length_cons, Nat.add_right_comm, List.cons_append, sinkAfter, hp, ih h]
    next => cases h

theorem WrMoves.offers {α : Type} {n : Nat} {c : WrCtx} {x : Res WrCtx α} (h : WrMoves n c x) :
    ∃ k bs, x.ctx.sink = sinkAfter k bs c.sink := by
  obtain ⟨bs, -, -, -, -, t, ht, rfl | ⟨-, b, hp⟩⟩ := h.moved
  · exact ⟨bs.length, bs, by simpa [sinkAfter] using (Sink.takes_sinkAfter ht 0 []).symm⟩
  · exact ⟨bs.length + 1, bs ++ [b], by rw [Sink.takes_sinkAfter ht]; simp [sinkAfter, hp]⟩

@[simp] theorem State.afterWrite_sink (s : State) (x : Res WrCtx Unit) : (s.afterWrite x).sink = x.ctx.sink := by
  cases x <;> rfl

@[simp] theorem State.afterWrite_nanEnc (s : State) (x : Res WrCtx Unit) :
    (s.afterWrite x).nanEnc = x.ctx.nanDraws := by
  cases x <;> rfl

@[simp] theorem State.afterRead_source (s : State) (x : Res RdCtx (Option Word)) :
    (s.afterRead x).source = x.ctx.source := by
  rcases x with ⟨_ | _, c⟩ | ⟨v, c⟩ <;> rfl

/-- A command reaches its streams by pulls and offers alone (20_memory.md R54). -/
theorem exec_streams {i : Instr} {s t : State} (h : exec i s = .next t) :
    (∃ k, t.source = sourceAfter k s.source) ∧ ∃ k bs, t.sink = sinkAfter k bs s.sink := by
  have still {u : State} (h1 : u.source = s.source) (h2 : u.sink = s.sink) :
      (∃ k, u.source = sourceAfter k s.source) ∧ ∃ k bs, u.sink = sinkAfter k bs s.sink := ⟨⟨0, h1⟩, 0, [], h2⟩
  rcases exec_shape i with rfl | rfl | ⟨-, -, _, _, _, hc⟩ | ⟨-, -, _, _, _, hc⟩ | ⟨-, _, _, hc⟩
  · cases h; exact still rfl rfl
  · cases h; exact still rfl rfl
  · rcases hc.next h with ⟨-, rfl⟩ | ⟨-, v, -, -, rfl⟩ | ⟨-, -, x, -, hm, -, rfl⟩
    · exact still rfl rfl
    · exact still rfl rfl
    · obtain ⟨-, -, -, hsink, -⟩ := s.afterRead_frame x
      obtain ⟨k, hk, -⟩ := hm.asked
      exact ⟨⟨k, by rw [State.afterRead_source, hk, State.rdStart_source]⟩, 0, [], hsink⟩
  · rcases hc.next h with ⟨-, rfl⟩ | ⟨-, v, -, -, rfl⟩ | ⟨-, -, x, -, hm, -, rfl⟩
    · exact still rfl rfl
    · exact still rfl rfl
    · obtain ⟨-, -, -, -, hsource, -⟩ := s.afterWrite_frame x
      obtain ⟨k, bs, hk⟩ := hm.offers
      exact ⟨⟨0, hsource⟩, k, bs, by rw [State.afterWrite_sink, hk, State.wrStart_sink]⟩
  · obtain ⟨-, ⟨v, -, -, rfl⟩ | ⟨-, rfl⟩⟩ := hc.next h <;> exact still rfl rfl

/-! ### No step turns a count back -/

/-- Every count of draws is in `t` what it is in `s`, or more. -/
def DrawsKept (s t : State) : Prop :=
  s.nanEnc ≤ t.nanEnc ∧ s.nanDec ≤ t.nanDec ∧ s.cuts ≤ t.cuts ∧ s.source.asked ≤ t.source.asked ∧
    s.sink.offered ≤ t.sink.offered

theorem DrawsKept.of_eq {s t : State} (h1 : t.nanEnc = s.nanEnc) (h2 : t.nanDec = s.nanDec) (h3 : t.cuts = s.cuts)
    (h4 : t.source.asked = s.source.asked) (h5 : t.sink.offered = s.sink.offered) : DrawsKept s t :=
  ⟨h1.ge, h2.ge, h3.ge, h4.ge, h5.ge⟩

theorem commandWrite_drawsKept {c : Word} {s t : State} (h : commandWrite c s = .next t) : DrawsKept s t := by
  rw [commandWrite] at h
  split at h
  · cases h
    exact .of_eq rfl rfl rfl rfl rfl
  · obtain ⟨h1, h2, h3, h4, h5⟩ := exec_draws h
    exact ⟨h1, h2, h3.le, h4, h5⟩

/-- Every next state of a host write: a command's, or DIN with the value. -/
theorem hostWrite_next {offset width : Nat} {v : Word} {s t : State} (h : hostWrite offset width v s = .next t) :
    commandWrite v s = .next t ∨ t = { s with din := v, dinV := true } := by
  rw [hostWrite] at h
  split at h
  · exact .inl h
  · exact .inr (Host.Outcome.next.inj h).symm
  all_goals cases h

/-- Every next state of a host read has a value delivered. -/
theorem hostRead_next {offset width : Nat} {s t : State} (h : hostRead offset width s = .next t) :
    ∃ x, deliver s x = .next t := by
  rw [hostRead] at h
  split at h
  case h_1 | h_9 => cases h
  case h_3 =>
    split at h
    · exact ⟨_, h⟩
    · cases h
  all_goals exact ⟨_, h⟩

theorem resetDuringCommand_drawsKept {c : Word} {s t : State} (h : resetDuringCommand c s = .next t) :
    DrawsKept s t := by
  rcases hc : commandWrite c s with u | f | r
  · obtain ⟨h1, h2, -⟩ := commandWrite_drawsKept hc
    rw [resetDuringCommand_next hc] at h
    cases h
    exact ⟨h1, h2, Nat.le_succ _, by simp, by simp⟩
  all_goals simp [resetDuringCommand, hc] at h

theorem hostEvent_drawsKept {e : HostEvent} {s t : State} (h : hostEvent e s = .next t) : DrawsKept s t := by
  cases e with
  | write offset width v =>
    rcases hostWrite_next h with hc | rfl
    · exact commandWrite_drawsKept hc
    · exact .of_eq rfl rfl rfl rfl rfl
  | read offset width =>
    obtain ⟨x, hx⟩ := hostRead_next h
    cases hx
    exact .of_eq rfl rfl rfl rfl rfl
  | resetDuring c => exact resetDuringCommand_drawsKept h
  | reset | attachSource | attachSink =>
    cases h
    exact .of_eq rfl rfl rfl rfl rfl

theorem step_drawsKept {s t : State} (h : step s = .next t) : DrawsKept s t := by
  rw [step] at h
  split at h
  next =>
    cases h
    exact .of_eq rfl rfl rfl rfl rfl
  next =>
    have hkept := hostEvent_drawsKept h
    exact hkept

/-! ### WR.F16 of a NaN -/

/-- WR.F16 of a NaN, the padding before it: a first part of the padding and the drawn word, counted once a byte moved
(00_scope.md R9, 44_variable_width.md R182). -/
theorem encodeHalf_nan_sends {x : BitVec 32} (hx : f32IsNan x = true) (c : WrCtx) {all : List Byte}
    (hall : padding c.unit ++ leBytes 2 (f16NanOf (Config.f16NanEnc c.nanDraws)) = all) :
    ∃ bs, (writerBody true (encodeHalf x) c).ctx.sink.taken = c.sink.taken ++ bs ∧ bs <+: all ∧
      (∀ d, writerBody true (encodeHalf x) c = .done () d → bs = all) ∧
      (bs ≠ [] → (writerBody true (encodeHalf x) c).ctx.nanDraws = c.nanDraws + 1) := by
  subst hall
  rcases Sink.takes_or_refuses (padding c.unit) c.sink with ⟨t, ht⟩ | ⟨as, b, cs, t, t', hf, h, hp⟩
  · obtain ⟨d, hd, hcnt, hsink, hdraw⟩ : ∃ d : WrCtx, writerBody true (encodeHalf x) c =
        writeBytesLE 2 (f16NanOf (Config.f16NanEnc c.nanDraws)) d ∧ d.unit.cnt = 0 ∧ d.sink = t ∧
          d.nanDraws = c.nanDraws + 1 :=
      ⟨_, by rw [writerBody_align_taken ht, encodeHalf, if_pos hx]; rfl, rfl, rfl, rfl⟩
    rw [hd]
    rcases Sink.takes_or_refuses (leBytes 2 (f16NanOf (Config.f16NanEnc c.nanDraws))) d.sink with
      ⟨u, hu⟩ | ⟨as, b, cs, u, u', hf, h, hp⟩
    · rw [writeBytesLE_done hcnt hu (by decide)]
      refine ⟨_, ?_, List.prefix_rfl, fun _ _ => rfl, fun _ => hdraw⟩
      simp [Sink.takes_taken hu, hsink, Sink.takes_taken ht]
    · rw [writeBytesLE_fail hcnt hf h hp]
      refine ⟨padding c.unit ++ as, ?_, ?_, nofun, fun _ => hdraw⟩
      · simp [Sink.push_fail_taken hp, Sink.takes_taken h, hsink, Sink.takes_taken ht]
      · rw [hf]
        exact (List.prefix_append_right_inj _).2 (List.prefix_append _ _)
  · have hlen := padding_length c.unit
    obtain rfl : as = [] := by
      rw [hf, List.length_append, List.length_cons] at hlen
      exact List.length_eq_zero_iff.1 (by omega)
    cases h
    rw [writerBody, if_pos rfl, alignW_fail hf rfl hp, Res.andThen_raised]
    exact ⟨[], by simp [Sink.push_fail_taken hp], List.nil_prefix, nofun, fun h => absurd rfl h⟩

theorem f32IsNan_operand {x : Word} (h : IsNan32 (BitVec.ofNat 32 x.toNat)) : f32IsNan (f32Operand x) = true := by
  rw [f32IsNan, decide_eq_true_eq, f32Operand, ← BitVec.ofNat_toNat]
  exact h

theorem wrF16_nan_sends {s t : State} (h : exec .wrF16 s = .next t) (hx : IsNan32 (BitVec.ofNat 32 s.din.toNat))
    {all : List Byte} (hall : padding s.w ++ leBytes 2 (f16NanOf (Config.f16NanEnc s.nanEnc)) = all) :
    (∃ bs, t.sink.taken = s.sink.taken ++ bs ∧ bs <+: all ∧ (code t = 0 → bs = all)) ∧
      (t.sink.taken ≠ s.sink.taken → t.nanEnc = s.nanEnc + 1) := by
  rcases wrF16_isCycle.next h with ⟨-, rfl⟩ | ⟨-, v, -, hc, -⟩ | ⟨-, -, x, rfl, hm, hr, rfl⟩
  · have hcode : code (s.finish .streamBroken 0) = 6 := statusWord_code (by decide)
    exact ⟨⟨[], by simp, List.nil_prefix, by simp [hcode]⟩, fun hne => absurd rfl hne⟩
  · cases hc
  · obtain ⟨bs, htaken, hpre, hdone, hdraw⟩ := encodeHalf_nan_sends (f32IsNan_operand hx) s.wrStart hall
    obtain ⟨-, -, -, n, hn, -, -, -, hend⟩ := State.afterWrite_ran hm hr
    rw [State.afterWrite_sink, State.afterWrite_nanEnc, htaken]
    refine ⟨⟨bs, rfl, hpre, fun hcode => ?_⟩, fun hne => hdraw (by rintro rfl; simp at hne)⟩
    rcases hend with ⟨⟨d, hd⟩, -⟩ | ⟨d, -, -, -, hs, -⟩
    · exact hdone d hd
    · rw [code, hs, statusWord_code hn] at hcode
      cases hcode

/-! ### RD.F16 that answers a NaN -/

/-- A Float16 magnitude is eleven bits, shifted. -/
theorem f16Mag_shifted (h : Nat) : ∃ m k, f16Mag h = m * 2 ^ k ∧ m < 2 ^ 11 ∧ k ≤ 30 := by
  have hf : f16Frac h < 1024 := Nat.mod_lt _ (by decide)
  have he : f16Exp h < 32 := Nat.mod_lt _ (by decide)
  rw [f16Mag]
  split_ifs
  · exact ⟨f16Frac h, 0, by simp, by omega, by omega⟩
  · exact ⟨1024 + f16Frac h, f16Exp h - 1, rfl, by omega, by omega⟩

/-- The fields of the pattern a Float16 word decodes to: a finite datum's, or an infinity's (44_variable_width.md R175,
R176). -/
theorem half2Bits32_fields (h : Nat) : ∃ e f, (e < 255 ∨ e = 255 ∧ f = 0) ∧ f < 2 ^ 23 ∧
    half2Bits32 h = (if f16Sign h then 2 ^ (23 + 8) else 0) + e * 2 ^ 23 + f := by
  rw [half2Bits32]
  by_cases h31 : f16Exp h = 31
  · exact ⟨255, 0, .inr ⟨rfl, rfl⟩, by decide, by rw [if_pos h31, Nat.add_zero]⟩
  rw [if_neg h31]
  by_cases h0 : f16Mag h = 0
  · exact ⟨0, 0, .inl (by decide), by decide, by simp [ieeeBits, h0]⟩
  obtain ⟨m, k, hmag, hm, hk⟩ := f16Mag_shifted h
  have hlog : Nat.log2 (f16Mag h) ≤ 10 + k := by
    refine log2_le_of_lt ?_
    rw [hmag, show 10 + k + 1 = 11 + k by omega, pow_add]
    exact Nat.mul_lt_mul_of_pos_right hm (by positivity)
  have hdvd : 2 ^ Nat.log2 (f16Mag h) ∣ f16Mag h * 2 ^ 23 := by
    have hpow : f16Mag h * 2 ^ 23 = m * 2 ^ (k + 23) := by rw [hmag, mul_assoc, ← pow_add]
    rw [hpow]
    exact Dvd.dvd.mul_left (pow_dvd_pow 2 (by omega)) _
  obtain ⟨f, hf, -, hbits⟩ := ieeeBits_fields (eb := 8) (bias := 127) (k := 24) (neg := f16Sign h) h0 hdvd
  exact ⟨Nat.log2 (f16Mag h) + 127 - 24, f, .inl (by omega), hf, hbits⟩

/-- The conversion gives no NaN: one answered by RD.F16 is a draw. -/
theorem half2Bits32_not_nan (h : Nat) : ¬ IsNan32 (BitVec.ofNat 32 (half2Bits32 h)) := by
  rintro ⟨hexp, hfrac⟩
  obtain ⟨e, f, hef, hf, hbits⟩ := half2Bits32_fields h
  obtain ⟨-, he, hfr⟩ := f32_fields (neg := f16Sign h) (e := e) (by omega) hf
  rw [hbits] at hexp hfrac
  have he' := hexp.symm.trans he
  have hf' := fun h0 => hfrac (hfr.trans h0)
  omega

theorem ofNat32_zextWord (n : Nat) : BitVec.ofNat 32 (zextWord n).toNat = BitVec.ofNat 32 n := by
  apply BitVec.eq_of_toNat_eq
  rw [zextWord, BitVec.toNat_ofNat, BitVec.toNat_ofNat, BitVec.toNat_ofNat,
    Nat.mod_mod_of_dvd _ (pow_dvd_pow 2 (by decide))]

/-- RD.F16's result is the draw at the count, where it is a NaN at all. -/
theorem decodeHalf_nan {h : Nat} {c d : RdCtx} {y : Word} (hd : decodeHalf h c = .done (some y) d)
    (hy : IsNan32 (BitVec.ofNat 32 y.toNat)) :
    y = zextWord (f32NanOf (Config.f16NanDec c.nanDraws)) ∧ d.nanDraws = c.nanDraws + 1 := by
  rw [decodeHalf] at hd
  split_ifs at hd with hn
  · cases hd
    exact ⟨rfl, rfl⟩
  · cases hd
    rw [ofNat32_zextWord] at hy
    exact absurd hy (half2Bits32_not_nan _)

theorem rdF16_nan_draws {s t : State} (h : exec .rdF16 s = .next t) (hcode : code t = 0)
    (hy : IsNan32 (BitVec.ofNat 32 t.dout.toNat)) :
    t.dout = zextWord (f32NanOf (Config.f16NanDec s.nanDec)) ∧ t.nanDec = s.nanDec + 1 := by
  rcases rdF16_isCycle.next h with ⟨-, rfl⟩ | ⟨-, v, -, hc, -⟩ | ⟨-, -, x, hx, hm, hr, rfl⟩
  · rw [code, State.finish_status, statusWord_code (by decide)] at hcode
    cases hcode
  · cases hc
  · obtain ⟨-, -, n, hn, -, -, -, hend⟩ := State.afterRead_ran hm hr
    rcases hend with ⟨⟨y, d, rfl⟩, -⟩ | ⟨v, d, rfl, hv, -, hs, -⟩
    · rw [if_pos rfl] at hx
      rcases Source.takeBytes_or_stops 2 (alignR s.rdStart).source with
        ⟨bs, src, hb⟩ | ⟨j, hj, bs, u, a, src, hb, hp, ha⟩
      · rw [readBytesLE_done rfl hb, Res.andThen_done] at hx
        cases y with
        | some y => exact decodeHalf_nan hx.symm hy
        | none => rw [decodeHalf] at hx; split_ifs at hx <;> cases hx
      · rw [readBytesLE_stop rfl hj hb hp ha] at hx
        cases hx
    · rw [code, hs, statusWord_code hn] at hcode
      simp [Verdict.latches, hcode] at hv

/-! ### A command cut off by reset -/

theorem step_resetDuring {c : Word} {s t : State} {rest : List HostEvent} (hs : s.host = .resetDuring c :: rest)
    (h : commandWrite c { s with host := rest } = .next t) :
    ∃ u, step s = .next u ∧ u.nanEnc = t.nanEnc ∧ u.nanDec = t.nanDec ∧ u.cuts = s.cuts + 1 ∧
      u.source = sourceAfter (min (Config.resetCut s.cuts) (t.source.asked - s.source.asked)) s.source ∧
      u.sink = sinkAfter (min (Config.resetCut s.cuts) (t.sink.offered - s.sink.offered))
        (t.sink.taken.drop s.sink.taken.length) s.sink := by
  have hstep : step s = resetDuringCommand c { s with host := rest } := by rw [step, hs]; rfl
  exact ⟨_, hstep.trans (resetDuringCommand_next h), rfl, rfl, rfl, rfl, rfl⟩

/-- Settles O55: its clauses are the counts over a step, one pull, one offer, a command's streams, the two NaN
conversions and the cut. -/
theorem drawsAreNeverReused : Obligations.DrawsAreNeverReused := by
  unfold Obligations.DrawsAreNeverReused
  refine ⟨fun s t => step_drawsKept, fun src => ⟨rfl, fun h1 h2 => by simp [Source.pull, nextAnswer, h1, h2]⟩,
    fun snk b => ⟨rfl, fun h1 h2 => by simp [Sink.push, nextAnswer, h1, h2]⟩, fun i s t h => ?_,
    fun s t h hx => wrF16_nan_sends h hx rfl, fun s t => rdF16_nan_draws, fun c s t rest => step_resetDuring⟩
  obtain ⟨⟨j, hj⟩, k, bs, hk⟩ := exec_streams h
  exact ⟨⟨j, hj, by rw [hj, sourceAfter_asked]⟩, k, bs, hk, by rw [hk, sinkAfter_offered]⟩

end Sys2Proof.Machine
end

section
/-! One event of the host or the platform: what `step` does with the first of the pending list, and the register an
access reaches (10_state.md R32 to R39). -/

namespace Sys2Proof.Machine
open Sys2Proof.Claims

theorem step_of_event {s : State} {e : HostEvent} {rest : List HostEvent} (h : s.host = e :: rest) :
    step s = hostEvent e { s with host := rest } := by
  rw [step, h]

/-- Every next state of a step: nothing was pending, or the first pending event was taken and happened. -/
theorem step_next {s t : State} (h : step s = .next t) :
    t = s ∨ ∃ e rest, s.host = e :: rest ∧ hostEvent e { s with host := rest } = .next t := by
  cases hs : s.host with
  | nil =>
    rw [step, hs] at h
    exact .inl (Host.Outcome.next.inj h).symm
  | cons e rest => exact .inr ⟨e, rest, rfl, step_of_event hs ▸ h⟩

/-! ### The map of the host registers -/

/-- The offset of a register (10_state.md R38). -/
def HostReg.offset : HostReg → Nat
  | .cmd => 0x00
  | .din => 0x08
  | .dout => 0x10
  | .status => 0x18
  | .rstate => 0x20
  | .wstate => 0x28
  | .rtotal => 0x30
  | .wtotal => 0x38

theorem regAt_eq_some {offset width : Nat} {r : HostReg} (h : regAt offset width = some r) :
    width = 64 ∧ offset = r.offset := by
  unfold regAt at h
  split at h
  next hw =>
    split at h
    case h_9 => cases h
    all_goals
      cases h
      exact ⟨hw, rfl⟩
  next => cases h

theorem hostWrite_badAccess {offset width : Nat} {v : Word} {s : State}
    (h : ¬ (width = 64 ∧ (offset = HostReg.cmd.offset ∨ offset = HostReg.din.offset))) :
    hostWrite offset width v s = .fault .badAccess := by
  rw [hostWrite]
  split
  next hr => exact absurd ((regAt_eq_some hr).imp_right .inl) h
  next hr => exact absurd ((regAt_eq_some hr).imp_right .inr) h
  all_goals rfl

theorem hostRead_badAccess {offset width : Nat} {s : State}
    (h : ∀ r : HostReg, r ≠ .cmd → ¬ (width = 64 ∧ offset = r.offset)) :
    hostRead offset width s = .fault .badAccess := by
  cases hr : regAt offset width with
  | none => rw [hostRead, hr]
  | some r =>
    obtain rfl : r = .cmd := by_contra fun hne => h r hne (regAt_eq_some hr)
    rw [hostRead, hr]

/-- Settles O9: the access reaches CMD, and the word decodes. -/
theorem stepRunsTheDecodedCommand : Obligations.StepRunsTheDecodedCommand := by
  unfold Obligations.StepRunsTheDecodedCommand
  intro c i s rest hs hc
  have hstep : step s = commandWrite c { s with host := rest } := step_of_event hs
  rw [hstep, commandWrite, hc]

/-- Settles O10: the access reaches DIN. -/
theorem dinWriteSetsDin : Obligations.DinWriteSetsDin := by
  unfold Obligations.DinWriteSetsDin
  exact fun _ _ _ hs => step_of_event hs

/-- Settles O11: each offset reaches its register, and only DOUT can fault. -/
theorem hostReadsDeliverTheRegisters : Obligations.HostReadsDeliverTheRegisters := by
  unfold Obligations.HostReadsDeliverTheRegisters
  intro s rest offset hs
  have hstep : step s = hostRead offset 64 { s with host := rest } := step_of_event hs
  have hdout : hostRead 0x10 64 { s with host := rest } =
      if s.doutV then deliver { s with host := rest } s.dout else .fault .doutInvalid := rfl
  dsimp only
  rw [hstep]
  refine ⟨?_, ?_, ?_, ?_, ?_, ?_, ?_, ?_⟩ <;> rintro rfl
  · exact fun _ => rfl
  · exact fun hv => hdout.trans (if_pos hv)
  · exact fun hv => hdout.trans (if_neg (by simp [hv]))
  all_goals rfl

/-- Settles O12: an access is bad unless it is 64 bits wide at the offset of a register that takes it. -/
theorem otherAccessesAreBad : Obligations.OtherAccessesAreBad := by
  unfold Obligations.OtherAccessesAreBad
  refine fun s rest offset width => ⟨fun v hs h => ?_, fun hs h => ?_⟩
  · exact (step_of_event hs).trans (hostWrite_badAccess h)
  · refine (step_of_event hs).trans (hostRead_badAccess fun r hr ⟨hw, ho⟩ => h ⟨hw, ?_⟩)
    cases r
    case cmd => exact absurd rfl hr
    all_goals simp [ho, HostReg.offset]

/-! ### Reset -/

theorem unitView_zero : unitView 0 0 0 = 0 := rfl

/-- Settles O1: the reset state written out, and its views by `unitView_zero`. -/
theorem resetGivesTheStatedValues : Obligations.ResetGivesTheStatedValues := by
  unfold Obligations.ResetGivesTheStatedValues
  exact ⟨rfl, rfl, rfl, rfl, rfl, unitView_zero, unitView_zero⟩

/-- Settles O2: a reset event is `State.resetBlock`, which names the registers alone. -/
theorem resetEventSetsTheBlockOnly : Obligations.ResetEventSetsTheBlockOnly := by
  unfold Obligations.ResetEventSetsTheBlockOnly
  exact fun s rest hs => ⟨_, step_of_event hs, unitView_zero, unitView_zero, rfl⟩

end Sys2Proof.Machine
end

section
/-! The invariant of the state (10_state.md R25, R29, R30, R34, 40_command_cycle.md R96). It speaks of each unit by
itself and of STATUS: a command keeps it because a body that ran latches only with its unit aligned and emptied, and
leaves in W.ACC no more than W.CNT bits. -/

namespace Sys2Proof.Machine
open Sys2Proof.Claims

/-- The Reader's part of the invariant (10_state.md R25, 40_command_cycle.md R96). -/
structure Reader.Sound (u : Reader) : Prop where
  errLegal : u.err.toNat ≤ 3
  latchedAligned : u.err ≠ 0 → u.cnt = 0

/-- The Writer's part of the invariant (10_state.md R29, R30, 40_command_cycle.md R96). -/
structure Writer.Sound (u : Writer) : Prop where
  accFits : u.acc.toNat < 2 ^ u.cnt.toNat
  errLegal : u.err = 0 ∨ u.err = 2
  latchedEmpty : u.err ≠ 0 → u.cnt = 0 ∧ u.acc = 0

theorem State.inv_iff {s : State} : s.Inv ↔ s.r.Sound ∧ s.w.Sound ∧ StatusLegal s := by
  constructor
  · rintro ⟨hacc, ⟨hrerr, hwerr⟩, ⟨hr, hw⟩, hstatus⟩
    exact ⟨⟨hrerr, hr⟩, ⟨hacc, hwerr, hw⟩, hstatus⟩
  · rintro ⟨⟨hrerr, hr⟩, ⟨hacc, hwerr, hw⟩, hstatus⟩
    exact ⟨hacc, ⟨hrerr, hwerr⟩, ⟨hr, hw⟩, hstatus⟩

theorem Reader.start_sound : Reader.start.Sound := ⟨by decide, by decide⟩

theorem Writer.start_sound : Writer.start.Sound := ⟨by decide, by decide, by decide⟩

theorem Reader.Sound.of_unlatched {u : Reader} (h : u.err = 0) : u.Sound :=
  ⟨by simp [h], fun hne => absurd h hne⟩

/-- STATUS as Finish writes it is legal for any DELTA up to 9. -/
theorem statusLegal_of_eq {s : State} {v : Verdict} {d : Nat} (hd : d ≤ 9) (h : s.status = statusWord v d) :
    StatusLegal s := ⟨v, d, hd, h⟩

/-- A state whose units are at their start and whose STATUS is 0: the states after reset. -/
theorem State.Inv.of_start {s : State} (hr : s.r = Reader.start) (hw : s.w = Writer.start) (hs : s.status = 0) :
    s.Inv :=
  State.inv_iff.2 ⟨hr ▸ Reader.start_sound, hw ▸ Writer.start_sound, statusLegal_of_eq (v := .ok) (Nat.zero_le 9) hs⟩

/-- The invariant looks at the units and STATUS alone. -/
theorem State.Inv.of_eq {s t : State} (h : s.Inv) (hr : t.r = s.r) (hw : t.w = s.w) (hs : t.status = s.status) :
    t.Inv := by
  rw [State.inv_iff, StatusLegal, hr, hw, hs]
  exact State.inv_iff.1 h

/-- A command that ended before its body, or had none, leaves the units alone. -/
theorem State.Inv.finish {s u : State} (h : s.Inv) (v : Verdict) (hr : u.r = s.r) (hw : u.w = s.w) :
    (u.finish v 0).Inv := by
  obtain ⟨hreader, hwriter, -⟩ := State.inv_iff.1 h
  exact State.inv_iff.2 ⟨hr ▸ hreader, hw ▸ hwriter, statusLegal_of_eq (Nat.zero_le 9) rfl⟩

theorem Verdict.code_le_of_latches {v : Verdict} (h : v.latches = true) : v.code ≤ 3 := by
  simp only [Verdict.latches, Bool.or_eq_true, beq_iff_eq] at h
  omega

/-- A Reader body that ran: unlatched as before, or latched at a byte boundary. -/
theorem State.Inv.afterRead {s : State} {x : Res RdCtx (Option Word)} (h : s.Inv) (he : s.r.err = 0)
    (hm : RdMoves 9 s.rdStart x) (hroom : s.r.total.toNat + x.ctx.delta < 2 ^ 64) : (s.afterRead x).Inv := by
  obtain ⟨-, hwriter, -⟩ := State.inv_iff.1 h
  obtain ⟨hw, -⟩ := s.afterRead_frame x
  obtain ⟨-, hcnt, bs, hle, -, -, -, hend⟩ := State.afterRead_ran hm hroom
  obtain ⟨-, hstatus, herr⟩ | ⟨v, c, rfl, hv, hc, hstatus, herr⟩ := hend
  · exact State.inv_iff.2 ⟨.of_unlatched (herr.trans he), hw ▸ hwriter, statusLegal_of_eq hle hstatus⟩
  · have hcode := Verdict.code_le_of_latches hv
    refine State.inv_iff.2 ⟨⟨?_, fun _ => hcnt.trans hc⟩, hw ▸ hwriter, statusLegal_of_eq hle hstatus⟩
    rw [herr, BitVec.toNat_ofNat]
    omega

/-- A Writer body that ran: unlatched with its bits fitting, or latched with nothing pending. -/
theorem State.Inv.afterWrite {s : State} {x : Res WrCtx Unit} (h : s.Inv) (he : s.w.err = 0)
    (hm : WrMoves 9 s.wrStart x) (hroom : s.w.total.toNat + x.ctx.delta < 2 ^ 64)
    (hfits : ∀ d, x = .done () d → d.unit.acc.toNat < 2 ^ d.unit.cnt.toNat) : (s.afterWrite x).Inv := by
  obtain ⟨hreader, -, -⟩ := State.inv_iff.1 h
  obtain ⟨hr, -⟩ := s.afterWrite_frame x
  obtain ⟨-, hcnt, hacc, bs, hle, -, -, -, hend⟩ := State.afterWrite_ran hm hroom
  obtain ⟨⟨c, rfl⟩, hstatus, herr⟩ | ⟨c, rfl, hc, ha, hstatus, herr⟩ := hend
  · have herr := herr.trans he
    exact State.inv_iff.2 ⟨hr ▸ hreader, ⟨hfits c rfl, .inl herr, fun hne => absurd herr hne⟩,
      statusLegal_of_eq hle hstatus⟩
  · have hempty := And.intro (hcnt.trans hc) (hacc.trans ha)
    refine State.inv_iff.2 ⟨hr ▸ hreader, ⟨?_, .inr herr, fun _ => hempty⟩, statusLegal_of_eq hle hstatus⟩
    rw [hempty.1, hempty.2]
    decide

theorem exec_inv {i : Instr} {s t : State} (h : s.Inv) (ht : exec i s = .next t) : t.Inv := by
  obtain ⟨hreader, hwriter, -⟩ := State.inv_iff.1 h
  have hok {u : State} : StatusLegal (u.finish .ok 0) := statusLegal_of_eq (Nat.zero_le 9) rfl
  rcases exec_shape i with rfl | rfl | ⟨-, -, _, _, _, hc⟩ | ⟨-, -, _, _, _, hc⟩ | ⟨-, _, _, hc⟩
  · cases ht
    exact State.inv_iff.2 ⟨Reader.start_sound, hwriter, hok⟩
  · cases ht
    exact State.inv_iff.2 ⟨hreader, Writer.start_sound, hok⟩
  · rcases hc.next ht with ⟨-, rfl⟩ | ⟨-, v, -, -, rfl⟩ | ⟨he, -, x, -, hm, hroom, rfl⟩
    · exact h.finish _ rfl rfl
    · exact h.finish _ rfl rfl
    · exact h.afterRead he hm hroom
  · rcases hc.next ht with ⟨-, rfl⟩ | ⟨-, v, -, -, rfl⟩ | ⟨he, -, x, hx, hm, hroom, rfl⟩
    · exact h.finish _ rfl rfl
    · exact h.finish _ rfl rfl
    · exact h.afterWrite he hm hroom fun d hd => hc.fits s.din s.wrStart d h.accFits (hx.symm.trans hd)
  · obtain ⟨-, ⟨v, -, -, rfl⟩ | ⟨-, rfl⟩⟩ := hc.next ht <;> exact h.finish _ rfl rfl

theorem commandWrite_inv {c : Word} {s t : State} (h : s.Inv) (ht : commandWrite c s = .next t) : t.Inv := by
  rw [commandWrite] at ht
  split at ht
  · cases ht
    exact h.finish _ rfl rfl
  · exact exec_inv h ht

/-- A reset during a command leaves the block at its reset state, whatever the command did. -/
theorem resetDuringCommand_inv {c : Word} {s t : State} (ht : resetDuringCommand c s = .next t) : t.Inv := by
  rcases hc : commandWrite c s with u | f | r
  · rw [resetDuringCommand_next hc] at ht
    cases ht
    exact .of_start rfl rfl rfl
  all_goals simp [resetDuringCommand, hc] at ht

theorem hostEvent_inv {e : HostEvent} {s t : State} (h : s.Inv) (ht : hostEvent e s = .next t) : t.Inv := by
  cases e with
  | write offset width v =>
    rcases hostWrite_next ht with hc | rfl
    · exact commandWrite_inv h hc
    · exact h.of_eq rfl rfl rfl
  | read offset width =>
    obtain ⟨x, hx⟩ := hostRead_next ht
    cases hx
    exact h.of_eq rfl rfl rfl
  | reset =>
    cases ht
    exact .of_start rfl rfl rfl
  | resetDuring c => exact resetDuringCommand_inv ht
  | attachSource | attachSink =>
    cases ht
    exact h.of_eq rfl rfl rfl

/-- Settles O3: both units are at their start and STATUS is 0. -/
theorem invariantHoldsAtReset : Obligations.InvariantHoldsAtReset := by
  unfold Obligations.InvariantHoldsAtReset
  exact .of_start rfl rfl rfl

/-- Settles O4: taking an event off the list touches no unit, and every event keeps the invariant. -/
theorem everyStepKeepsTheInvariant : Obligations.EveryStepKeepsTheInvariant := by
  unfold Obligations.EveryStepKeepsTheInvariant
  intro s t h ht
  obtain rfl | ⟨e, rest, -, hevent⟩ := step_next ht
  · exact h
  · have htaken : State.Inv { s with host := rest } := h.of_eq rfl rfl rfl
    exact hostEvent_inv htaken hevent

end Sys2Proof.Machine
end

section
/-! What a command does to the host's registers DIN and DOUT (10_state.md R32, R33, 40_command_cycle.md R80). -/

namespace Sys2Proof.Machine
open Sys2Proof.Claims

/-- Settles O26: no cycle and no INIT reaches DIN or the host's side. -/
theorem commandsNeverWriteDin : Obligations.CommandsNeverWriteDin := by
  unfold Obligations.CommandsNeverWriteDin
  intro i s t h
  rcases exec_shape i with rfl | rfl | ⟨-, -, _, _, _, hc⟩ | ⟨-, -, _, _, _, hc⟩ | ⟨-, _, _, hc⟩
  · cases h
    exact ⟨rfl, rfl, rfl, rfl, rfl⟩
  · cases h
    exact ⟨rfl, rfl, rfl, rfl, rfl⟩
  · rcases hc.next h with ⟨-, rfl⟩ | ⟨-, v, -, -, rfl⟩ | ⟨-, -, x, -, -, -, rfl⟩
    · exact ⟨rfl, rfl, rfl, rfl, rfl⟩
    · exact ⟨rfl, rfl, rfl, rfl, rfl⟩
    · obtain ⟨-, hdin, hdinV, -, hhost, hread, -, hcuts⟩ := s.afterRead_frame x
      exact ⟨hdin, hdinV, hhost, hread, hcuts⟩
  · rcases hc.next h with ⟨-, rfl⟩ | ⟨-, v, -, -, rfl⟩ | ⟨-, -, x, -, -, -, rfl⟩
    · exact ⟨rfl, rfl, rfl, rfl, rfl⟩
    · exact ⟨rfl, rfl, rfl, rfl, rfl⟩
    · obtain ⟨-, hdin, hdinV, -, -, hhost, hread, -, hcuts⟩ := s.afterWrite_frame x
      exact ⟨hdin, hdinV, hhost, hread, hcuts⟩
  · obtain ⟨-, ⟨v, -, -, rfl⟩ | ⟨-, rfl⟩⟩ := hc.next h <;> exact ⟨rfl, rfl, rfl, rfl, rfl⟩

/-- What the outcome in `t` did to DOUT and DOUT.V of `s`, for a command that writes DOUT on OK where `writes`. -/
def DoutFollows (writes : Prop) (s t : State) : Prop :=
  (code t = 0 → writes → t.doutV = true) ∧
  (code t = 0 → ¬ writes → t.doutV = s.doutV ∧ t.dout = s.dout) ∧
  (code t ≠ 0 → t.doutV = false ∧ t.dout = s.dout)

theorem code_finish {u : State} {v : Verdict} {d : Nat} (hd : d ≤ 9) : code (u.finish v d) = v.code :=
  statusWord_code hd

theorem DoutFollows.of_fail {writes : Prop} {s u : State} {v : Verdict} {d : Nat} (hd : d ≤ 9) (hv : v.code ≠ 0)
    (hu : u.dout = s.dout) : DoutFollows writes s (u.finish v d) := by
  have hcode : code (u.finish v d) ≠ 0 := by rwa [code_finish hd]
  refine ⟨fun h => absurd h hcode, fun h => absurd h hcode, fun _ => ⟨State.finish_fail_doutV u d ?_, hu⟩⟩
  rintro rfl
  exact hv rfl

theorem DoutFollows.of_result {writes : Prop} {s u : State} {d : Nat} {x : Word} (hd : d ≤ 9) (hw : writes) :
    DoutFollows writes s ((u.setDout x).finish .ok d) :=
  ⟨fun _ _ => rfl, fun _ hn => absurd hw hn, fun h => absurd (code_finish hd) h⟩

theorem DoutFollows.of_noResult {writes : Prop} {s u : State} {d : Nat} (hd : d ≤ 9) (hw : ¬ writes)
    (huV : u.doutV = s.doutV) (hu : u.dout = s.dout) : DoutFollows writes s (u.finish .ok d) :=
  ⟨fun _ h => absurd h hw, fun _ _ => ⟨huV, hu⟩, fun h => absurd (code_finish hd) h⟩

theorem Verdict.code_ne_zero_of_latches {v : Verdict} (h : v.latches = true) : v.code ≠ 0 := by
  rintro hv
  simp [Verdict.latches, hv] at h

theorem DoutFollows.afterRead {writes : Prop} {s : State} {x : Res RdCtx (Option Word)} (hm : RdMoves 9 s.rdStart x)
    (hw : ∀ r c, x = .done r c → (r.isSome = true ↔ writes)) : DoutFollows writes s (s.afterRead x) := by
  have hd := hm.delta_le
  rcases x with ⟨_ | d, c⟩ | ⟨v, c⟩
  · exact .of_noResult hd (by simp [← hw _ _ rfl]) rfl rfl
  · exact .of_result hd (by simp [← hw _ _ rfl])
  · exact .of_fail hd (Verdict.code_ne_zero_of_latches (hm.raised v c rfl).2) rfl

theorem DoutFollows.afterWrite {writes : Prop} {s : State} {x : Res WrCtx Unit} (hm : WrMoves 9 s.wrStart x)
    (hw : ¬ writes) : DoutFollows writes s (s.afterWrite x) := by
  have hd := hm.delta_le
  rcases x with ⟨_, c⟩ | ⟨v, c⟩
  · exact .of_noResult hd hw rfl rfl
  · obtain ⟨-, -, rfl⟩ := hm.raised v c rfl
    exact .of_fail hd (by decide) rfl

theorem exec_doutFollows {i : Instr} {s t : State} (h : exec i s = .next t) : DoutFollows (WritesDout i) s t := by
  have latched {p : Prop} : DoutFollows p s (s.finish .streamBroken 0) := .of_fail (Nat.zero_le 9) (by decide) rfl
  have rejected {p : Prop} {v : Verdict} (hv : v.isCheck) : DoutFollows p s (s.finish v 0) :=
    .of_fail (Nat.zero_le 9) (by simp [Verdict.isCheck_code hv]) rfl
  rcases exec_shape i with rfl | rfl | ⟨hu, -, _, _, _, hc⟩ | ⟨hu, -, _, _, _, hc⟩ | ⟨hu, _, _, hc⟩
  · cases h
    exact .of_noResult (Nat.zero_le 9) (by decide) rfl rfl
  · cases h
    exact .of_noResult (Nat.zero_le 9) (by decide) rfl rfl
  · rcases hc.next h with ⟨-, rfl⟩ | ⟨-, v, hv, -, rfl⟩ | ⟨-, -, x, hx, hm, -, rfl⟩
    · exact latched
    · exact rejected hv
    · have hwrites : 2 ≤ i.opc % 64 ↔ WritesDout i := by simp [WritesDout, OnReader, IsSize, hu]
      exact .afterRead hm fun r c hr => (hc.result _ r c (hx.symm.trans hr)).trans hwrites
  · rcases hc.next h with ⟨-, rfl⟩ | ⟨-, v, hv, -, rfl⟩ | ⟨-, -, x, -, hm, -, rfl⟩
    · exact latched
    · exact rejected hv
    · exact .afterWrite hm (by simp [WritesDout, OnReader, IsSize, hu])
  · obtain ⟨-, ⟨v, hv, -, rfl⟩ | ⟨-, rfl⟩⟩ := hc.next h
    · exact rejected hv
    · exact .of_result (Nat.zero_le 9) (.inr hu)

/-- Settles O23: `DoutFollows` is the statement for one command, and every end of a cycle has it. -/
theorem doutFollowsTheOutcome : Obligations.DoutFollowsTheOutcome := by
  unfold Obligations.DoutFollowsTheOutcome
  exact fun _ _ _ h => exec_doutFollows h

end Sys2Proof.Machine
end

section
/-! The two units side by side (20_memory.md R54, R55, R59). A command works on the half of its own unit: it leaves the
other half as it was, ends alike wherever its own half is alike, and counts exactly the bytes its stream moved. -/

namespace Sys2Proof.Machine
open Sys2Proof.Claims

/-! ### The two halves of the state -/

/-- `s'` has the Reader, the source and the Reader's draws of `s`. -/
def ReaderAlike (s s' : State) : Prop := s'.r = s.r ∧ s'.source = s.source ∧ s'.nanDec = s.nanDec

/-- `s'` has the Writer, the sink and the Writer's draws of `s`. -/
def WriterAlike (s s' : State) : Prop := s'.w = s.w ∧ s'.sink = s.sink ∧ s'.nanEnc = s.nanEnc

theorem ReaderAlike.rdStart_eq {s s' : State} (h : ReaderAlike s s') : s'.rdStart = s.rdStart := by
  obtain ⟨hr, hsource, hdraws⟩ := h
  simp [State.rdStart, hr, hsource, hdraws]

theorem WriterAlike.wrStart_eq {s s' : State} (h : WriterAlike s s') : s'.wrStart = s.wrStart := by
  obtain ⟨hw, hsink, hdraws⟩ := h
  simp [State.wrStart, hw, hsink, hdraws]

theorem onReader_shape {i : Instr} (h : OnReader i) :
    i = .rdInit ∨ ∃ check aligns body, IsReaderCycle i check aligns body := by
  rcases exec_shape i with hi | rfl | ⟨-, -, hc⟩ | ⟨hu, -⟩ | ⟨hu, -⟩
  · exact .inl hi
  · exact absurd h (by decide)
  · exact .inr hc
  all_goals omega

theorem onWriter_shape {i : Instr} (h : OnWriter i) :
    i = .wrInit ∨ ∃ check aligns body, IsWriterCycle i check aligns body := by
  rcases exec_shape i with rfl | hi | ⟨hu, -⟩ | ⟨-, -, hc⟩ | ⟨hu, -⟩
  · exact absurd h (by decide)
  · exact .inl hi
  · omega
  · exact .inr hc
  · omega

/-! ### A command leaves the other half as it was -/

theorem IsReaderCycle.writerAlike {i : Instr} {check : Option Verdict} {aligns : Bool}
    {body : RdCtx → Res RdCtx (Option Word)} (h : IsReaderCycle i check aligns body) {s t : State}
    (ht : exec i s = .next t) : WriterAlike s t := by
  rcases h.next ht with ⟨-, rfl⟩ | ⟨-, v, -, -, rfl⟩ | ⟨-, -, x, -, -, -, rfl⟩
  · exact ⟨rfl, rfl, rfl⟩
  · exact ⟨rfl, rfl, rfl⟩
  · obtain ⟨hw, -, -, hsink, -, -, hdraws, -⟩ := s.afterRead_frame x
    exact ⟨hw, hsink, hdraws⟩

theorem IsWriterCycle.readerAlike {i : Instr} {check : Word → Option Verdict} {aligns : Bool}
    {body : Word → WrCtx → Res WrCtx Unit} (h : IsWriterCycle i check aligns body) {s t : State}
    (ht : exec i s = .next t) : ReaderAlike s t := by
  rcases h.next ht with ⟨-, rfl⟩ | ⟨-, v, -, -, rfl⟩ | ⟨-, -, x, -, -, -, rfl⟩
  · exact ⟨rfl, rfl, rfl⟩
  · exact ⟨rfl, rfl, rfl⟩
  · obtain ⟨hr, -, -, -, hsource, -, -, hdraws, -⟩ := s.afterWrite_frame x
    exact ⟨hr, hsource, hdraws⟩

theorem exec_keeps_writer {i : Instr} {s t : State} (hi : OnReader i) (ht : exec i s = .next t) : WriterAlike s t := by
  obtain rfl | ⟨_, _, _, hc⟩ := onReader_shape hi
  · cases ht
    exact ⟨rfl, rfl, rfl⟩
  · exact hc.writerAlike ht

theorem exec_keeps_reader {i : Instr} {s t : State} (hi : OnWriter i) (ht : exec i s = .next t) : ReaderAlike s t := by
  obtain rfl | ⟨_, _, _, hc⟩ := onWriter_shape hi
  · cases ht
    exact ⟨rfl, rfl, rfl⟩
  · exact hc.readerAlike ht

/-! ### Where its own half is alike, a command ends alike -/

/-- A Reader cycle looks at the Reader's half alone: where that is alike, it is stopped by the same verdict or its body
does the same. -/
theorem IsReaderCycle.next_alike {i : Instr} {check : Option Verdict} {aligns : Bool}
    {body : RdCtx → Res RdCtx (Option Word)} (h : IsReaderCycle i check aligns body) {s s' t : State}
    (ha : ReaderAlike s s') (ht : exec i s = .next t) :
    (∃ v, v.code ≠ 0 ∧ t = s.finish v 0 ∧ exec i s' = .next (s'.finish v 0)) ∨
      ∃ x, RdMoves 9 s.rdStart x ∧ (∀ r c, x = .done r c → (r.isSome = true ↔ 2 ≤ i.opc % 64)) ∧
        t = s.afterRead x ∧ exec i s' = .next (s'.afterRead x) := by
  have hr : s'.r = s.r := ha.1
  rcases h.next ht with ⟨he, rfl⟩ | ⟨he, v, hv, hc, rfl⟩ | ⟨he, hc, x, hx, hm, hroom, rfl⟩
  · refine .inl ⟨_, by decide, rfl, ?_⟩
    rw [h.exec_eq, readerCycle_latched (hr ▸ he)]
  · refine .inl ⟨v, by simp [Verdict.isCheck_code hv], rfl, ?_⟩
    rw [h.exec_eq, hc, readerCycle_rejected (hr ▸ he)]
  · refine .inr ⟨x, hm, fun r c hd => h.result _ r c (hx.symm.trans hd), rfl, ?_⟩
    have hrun : readerRun aligns body s' = x := by rw [readerRun, ha.rdStart_eq, hx]
    rw [h.exec_fits hc (hr ▸ he) (by rwa [hrun, hr]), hrun]

theorem IsWriterCycle.dinV_of_next {i : Instr} {check : Word → Option Verdict} {aligns : Bool}
    {body : Word → WrCtx → Res WrCtx Unit} (h : IsWriterCycle i check aligns body) {s t : State}
    (he : s.w.err = 0) (ht : exec i s = .next t) (ho : 2 ≤ i.opc % 64) : s.dinV = true := by
  by_contra hn
  rw [h.exec_eq, decide_eq_true ho, writerCycle_dinUnwritten he (by simpa using hn)] at ht
  cases ht

/-- A Writer cycle that answers a next state looks at DIN and the Writer's half alone. -/
theorem IsWriterCycle.next_alike {i : Instr} {check : Word → Option Verdict} {aligns : Bool}
    {body : Word → WrCtx → Res WrCtx Unit} (h : IsWriterCycle i check aligns body) {s s' t t' : State}
    (ha : WriterAlike s s') (hdin : s'.din = s.din) (ht : exec i s = .next t) (ht' : exec i s' = .next t') :
    (∃ v, t = s.finish v 0 ∧ t' = s'.finish v 0) ∨ ∃ x, t = s.afterWrite x ∧ t' = s'.afterWrite x := by
  have hw : s'.w = s.w := ha.1
  have hv (he : s'.w.err = 0) := h.dinV_of_next he ht'
  rcases h.next ht with ⟨he, rfl⟩ | ⟨he, v, -, hc, rfl⟩ | ⟨he, hc, x, hx, -, hroom, rfl⟩ <;> rw [← hw] at he
  · rw [h.exec_eq, writerCycle_latched he] at ht'
    exact .inl ⟨_, rfl, (Host.Outcome.next.inj ht').symm⟩
  · rw [h.exec_eq, hdin, hc, writerCycle_rejected he (by simpa using hv he)] at ht'
    exact .inl ⟨v, rfl, (Host.Outcome.next.inj ht').symm⟩
  · have hrun : writerBody aligns (body s'.din) s'.wrStart = x := by rw [hdin, ha.wrStart_eq, hx]
    rw [h.exec_fits (hdin ▸ hc) he (hv he) (by rwa [hrun, hw]), hrun] at ht'
    exact .inr ⟨x, rfl, (Host.Outcome.next.inj ht').symm⟩

theorem State.afterRead_alike (s s' : State) (x : Res RdCtx (Option Word)) :
    ReaderAlike (s.afterRead x) (s'.afterRead x) ∧ (s'.afterRead x).status = (s.afterRead x).status := by
  rcases x with ⟨_ | _, c⟩ | ⟨v, c⟩ <;> exact ⟨⟨rfl, rfl, rfl⟩, rfl⟩

theorem State.afterWrite_alike (s s' : State) (x : Res WrCtx Unit) :
    WriterAlike (s.afterWrite x) (s'.afterWrite x) ∧ (s'.afterWrite x).status = (s.afterWrite x).status := by
  cases x <;> exact ⟨⟨rfl, rfl, rfl⟩, rfl⟩

/-- A body that put a result in DOUT put the same one there from any state. -/
theorem State.afterRead_dout_alike {s : State} {x : Res RdCtx (Option Word)} (hm : RdMoves 9 s.rdStart x)
    (hsome : ∀ r c, x = .done r c → r.isSome = true) (hcode : code (s.afterRead x) = 0) (s' : State) :
    (s'.afterRead x).dout = (s.afterRead x).dout := by
  have hd := hm.delta_le
  rcases x with ⟨_ | d, c⟩ | ⟨v, c⟩
  · cases hsome _ _ rfl
  · rfl
  · exact absurd ((code_finish hd).symm.trans hcode) (Verdict.code_ne_zero_of_latches (hm.raised v c rfl).2)

/-- Two runs of a Reader command from states with the same Reader's half (20_memory.md R55). -/
theorem exec_reader_alike {i : Instr} {s s' t t' : State} (hi : OnReader i) (ha : ReaderAlike s s')
    (ht : exec i s = .next t) (ht' : exec i s' = .next t') :
    ReaderAlike t t' ∧ t'.status = t.status ∧ (code t = 0 → WritesDout i → t'.dout = t.dout) := by
  obtain rfl | ⟨_, _, _, hc⟩ := onReader_shape hi
  · cases ht
    cases ht'
    obtain ⟨-, hsource, hdraws⟩ := ha
    exact ⟨⟨rfl, hsource, hdraws⟩, rfl, fun _ hw => absurd hw (by decide)⟩
  obtain ⟨v, hv, rfl, h'⟩ | ⟨x, hm, hresult, rfl, h'⟩ := hc.next_alike ha ht <;> cases h'.symm.trans ht'
  · exact ⟨ha, rfl, fun hcode => absurd ((code_finish (Nat.zero_le 9)).symm.trans hcode) hv⟩
  · obtain ⟨halike, hstatus⟩ := s.afterRead_alike s' x
    refine ⟨halike, hstatus, fun hcode hw => State.afterRead_dout_alike hm (fun r c hx => ?_) hcode s'⟩
    obtain ⟨-, ho⟩ | hsize := hw
    · exact (hresult r c hx).2 ho
    · omega

/-- Two runs of a Writer command from states with the same DIN and Writer's half. -/
theorem exec_writer_alike {i : Instr} {s s' t t' : State} (hi : OnWriter i) (ha : WriterAlike s s')
    (hdin : s'.din = s.din) (ht : exec i s = .next t) (ht' : exec i s' = .next t') :
    WriterAlike t t' ∧ t'.status = t.status := by
  obtain rfl | ⟨_, _, _, hc⟩ := onWriter_shape hi
  · cases ht
    cases ht'
    obtain ⟨-, hsink, hdraws⟩ := ha
    exact ⟨⟨rfl, hsink, hdraws⟩, rfl⟩
  obtain ⟨v, rfl, rfl⟩ | ⟨x, rfl, rfl⟩ := hc.next_alike ha hdin ht ht'
  · exact ⟨ha, rfl⟩
  · exact s.afterWrite_alike s' x

/-- Settles O24: each unit's commands keep the other half, and two runs from one half end alike. -/
theorem readerAndWriterAreIndependent : Obligations.ReaderAndWriterAreIndependent := by
  unfold Obligations.ReaderAndWriterAreIndependent
  intro i s t s' t' ht ht'
  refine ⟨fun hi => ?_, fun hi => ?_⟩
  · obtain ⟨hw, hsink, hdraws⟩ := exec_keeps_writer hi ht
    refine ⟨hw, hsink, hdraws, fun hr hsource hdec => ?_⟩
    obtain ⟨⟨hr', hsource', hdec'⟩, hstatus, hdout⟩ := exec_reader_alike hi ⟨hr, hsource, hdec⟩ ht ht'
    exact ⟨hr', hsource', hstatus, hdec', hdout⟩
  · obtain ⟨hr, hsource, hdraws⟩ := exec_keeps_reader hi ht
    refine ⟨hr, hsource, hdraws, fun hw hsink henc hdin => ?_⟩
    obtain ⟨⟨hw', hsink', henc'⟩, hstatus⟩ := exec_writer_alike hi ⟨hw, hsink, henc⟩ hdin ht ht'
    exact ⟨hw', hsink', hstatus, henc'⟩

/-! ### The bytes a command moves are the bytes it counts -/

/-- From `s` to `t` the source delivered `bs` and the sink took `ws`, and STATUS.DELTA counts them. -/
structure Moved (s t : State) (bs ws : List Byte) : Prop where
  pulled : t.source.pulled = s.source.pulled ++ bs
  taken : t.sink.taken = s.sink.taken ++ ws
  delta_eq : delta t = bs.length + ws.length
  le_nine : bs.length + ws.length ≤ 9

/-- The statement of O27 for a command that clears no counter. -/
def CountsMoved (s t : State) : Prop :=
  ∃ bs ws, Moved s t bs ws ∧ t.r.total.toNat = s.r.total.toNat + bs.length ∧
    t.w.total.toNat = s.w.total.toNat + ws.length

theorem delta_finish {u : State} {v : Verdict} {d : Nat} (hd : d ≤ 9) : delta (u.finish v d) = d :=
  statusWord_delta hd

/-- A command that ended with DELTA 0 and both streams alone. -/
theorem Moved.of_still {s u : State} {v : Verdict} (hsource : u.source = s.source) (hsink : u.sink = s.sink) :
    Moved s (u.finish v 0) [] [] :=
  ⟨by simp [hsource], by simp [hsink], delta_finish (Nat.zero_le 9), Nat.zero_le 9⟩

theorem CountsMoved.finish (s : State) (v : Verdict) : CountsMoved s (s.finish v 0) :=
  ⟨[], [], .of_still rfl rfl, rfl, rfl⟩

theorem CountsMoved.afterRead {s : State} {x : Res RdCtx (Option Word)} (hm : RdMoves 9 s.rdStart x)
    (hroom : s.r.total.toNat + x.ctx.delta < 2 ^ 64) : CountsMoved s (s.afterRead x) := by
  obtain ⟨-, -, bs, hle, hpulled, hdelta, htotal, -⟩ := State.afterRead_ran hm hroom
  obtain ⟨hw, -, -, hsink, -⟩ := s.afterRead_frame x
  exact ⟨bs, [], ⟨hpulled, by simp [hsink], hdelta, hle⟩, htotal, by simp [hw]⟩

theorem CountsMoved.afterWrite {s : State} {x : Res WrCtx Unit} (hm : WrMoves 9 s.wrStart x)
    (hroom : s.w.total.toNat + x.ctx.delta < 2 ^ 64) : CountsMoved s (s.afterWrite x) := by
  obtain ⟨-, -, -, ws, hle, htaken, hdelta, htotal, -⟩ := State.afterWrite_ran hm hroom
  obtain ⟨hr, -, -, -, hsource, -⟩ := s.afterWrite_frame x
  exact ⟨[], ws, ⟨by simp [hsource], htaken, by simpa using hdelta, by simpa using hle⟩, by simp [hr], htotal⟩

theorem exec_countsMoved {i : Instr} {s t : State} (hr : i ≠ .rdInit) (hw : i ≠ .wrInit) (ht : exec i s = .next t) :
    CountsMoved s t := by
  rcases exec_shape i with h | h | ⟨-, -, _, _, _, hc⟩ | ⟨-, -, _, _, _, hc⟩ | ⟨-, _, _, hc⟩
  · exact absurd h hr
  · exact absurd h hw
  · rcases hc.next ht with ⟨-, rfl⟩ | ⟨-, v, -, -, rfl⟩ | ⟨-, -, x, -, hm, hroom, rfl⟩
    · exact .finish s _
    · exact .finish s v
    · exact .afterRead hm hroom
  · rcases hc.next ht with ⟨-, rfl⟩ | ⟨-, v, -, -, rfl⟩ | ⟨-, -, x, -, hm, hroom, rfl⟩
    · exact .finish s _
    · exact .finish s v
    · exact .afterWrite hm hroom
  · obtain ⟨-, ⟨v, -, -, rfl⟩ | ⟨-, rfl⟩⟩ := hc.next ht
    · exact .finish s v
    · exact ⟨[], [], .of_still rfl rfl, rfl, rfl⟩

/-- Settles O27: the INITs move nothing and clear their counter, every other command counts what it moved. -/
theorem countersAreExact : Obligations.CountersAreExact := by
  unfold Obligations.CountersAreExact
  intro i s t ht
  by_cases hri : i = .rdInit
  · subst hri
    cases ht
    obtain ⟨hpulled, htaken, hdelta, hle⟩ := Moved.of_still (s := s) (u := s.initReader) (v := .ok) rfl rfl
    exact ⟨[], [], hpulled, htaken, hdelta, hle, rfl, rfl⟩
  by_cases hwi : i = .wrInit
  · subst hwi
    cases ht
    obtain ⟨hpulled, htaken, hdelta, hle⟩ := Moved.of_still (s := s) (u := s.initWriter) (v := .ok) rfl rfl
    exact ⟨[], [], hpulled, htaken, hdelta, hle, rfl, rfl⟩
  obtain ⟨bs, ws, ⟨hpulled, htaken, hdelta, hle⟩, hr, hw⟩ := exec_countsMoved hri hwi ht
  exact ⟨bs, ws, hpulled, htaken, hdelta, hle, by rwa [if_neg hri], by rwa [if_neg hwi]⟩

end Sys2Proof.Machine
end

section
/-! Command words (30_encoding.md R60 to R70). A word decodes to a command exactly when its reserved bits are 0, its
low byte is the command's OPC and its W is the command's W field. That `decode` and `encode` invert each other, and
which words are illegal, follow from it. -/

namespace Sys2Proof

/-! ### The fields of a word -/

theorem unitOf_eq_div (c : Word) : unitOf c = bitField c 0 8 / 64 := by
  simp only [unitOf, bitField]
  omega

theorem opOf_eq_mod (c : Word) : opOf c = bitField c 0 8 % 64 := by
  simp only [opOf, bitField]
  omega

theorem widthOf_lt (c : Word) : widthOf c < 64 := Nat.mod_lt _ (by decide)

/-- The three fields make up the word. -/
theorem toNat_eq_fields (c : Word) : c.toNat = reservedOf c * 2 ^ 14 + (widthOf c * 256 + bitField c 0 8) := by
  have hc := c.isLt
  simp only [reservedOf, widthOf, bitField]
  omega

/-! ### The opcode table -/

theorem Instr.opc_lt (i : Instr) : i.opc < 256 := by
  cases i <;> simp [Instr.opc]

/-- A command that is not a width command carries W = 0 (30_encoding.md R62). -/
theorem Instr.wField_eq_zero {i : Instr} (h : i.takesWidth = false) : i.wField = 0 := by
  cases i
  case rdUb | rdSb | rdFb | wrUb | wrSb | wrFb => cases h
  all_goals rfl

/-- The width commands are OP 0x10 and up of the Reader and the Writer (30_encoding.md R65). -/
theorem Instr.takesWidth_iff (i : Instr) : i.takesWidth = true ↔ i.opc / 64 ≠ 0 ∧ 0x10 ≤ i.opc % 64 := by
  cases i <;> simp [Instr.takesWidth, Instr.opc]

/-- The table gives each command at its own OPC. -/
theorem selectOp_opc (i : Instr) : selectOp (i.opc / 64) (i.opc % 64) i.wField = some i := by
  cases i <;> simp [Instr.opc, Instr.wField, selectOp, sizeOp, readerOp, writerOp]

theorem sizeOp_some {op : Nat} {i : Instr} (h : sizeOp op = some i) : i.opc = op ∧ i.takesWidth = false := by
  unfold sizeOp at h
  split at h <;> cases h <;> exact ⟨rfl, rfl⟩

theorem readerOp_some {op w : Nat} {i : Instr} (h : readerOp op w = some i) :
    i.opc = 64 + op ∧ (i.takesWidth = true → i.wField = w) := by
  unfold readerOp at h
  split at h <;> cases h <;> simp [Instr.opc, Instr.takesWidth, Instr.wField]

theorem writerOp_some {op w : Nat} {i : Instr} (h : writerOp op w = some i) :
    i.opc = 128 + op ∧ (i.takesWidth = true → i.wField = w) := by
  unfold writerOp at h
  split at h <;> cases h <;> simp [Instr.opc, Instr.takesWidth, Instr.wField]

/-- What the table gives has the OPC it was looked up by and, where it is a width command, the width. -/
theorem selectOp_some {unit op w : Nat} {i : Instr} (h : selectOp unit op w = some i) :
    i.opc = unit * 64 + op ∧ (i.takesWidth = true → i.wField = w) := by
  unfold selectOp at h
  split at h
  · obtain ⟨hopc, hwidth⟩ := sizeOp_some h
    exact ⟨by omega, by simp [hwidth]⟩
  · exact readerOp_some h
  · exact writerOp_some h
  · cases h

theorem sizeOp_eq_none_iff (op : Nat) : sizeOp op = none ↔ op ∉ [0x0C, 0x10, 0x11, 0x12] := by
  unfold sizeOp
  split <;> simp_all

theorem readerOp_eq_none_iff (op w : Nat) : readerOp op w = none ↔ 0x12 < op := by
  unfold readerOp
  split
  case h_20 =>
    simp only [imp_false, true_iff] at *
    omega
  all_goals simp

theorem writerOp_eq_none_iff (op w : Nat) : writerOp op w = none ↔ 0x12 < op := by
  unfold writerOp
  split
  case h_20 =>
    simp only [imp_false, true_iff] at *
    omega
  all_goals simp

/-- The reserved places of the table (30_encoding.md R63, R64). -/
theorem selectOp_eq_none_iff : ∀ unit op w : Nat,
    selectOp unit op w = none ↔ 3 ≤ unit ∨ (unit = 0 ∧ op ∉ [0x0C, 0x10, 0x11, 0x12]) ∨ 0x12 < op
  | 0, op, _ => by
    have habove (h : 0x12 < op) : op ∉ [0x0C, 0x10, 0x11, 0x12] := by simp; omega
    simpa [selectOp, sizeOp_eq_none_iff] using habove
  | 1, op, w => (readerOp_eq_none_iff op w).trans (by simp)
  | 2, op, w => (writerOp_eq_none_iff op w).trans (by simp)
  | _ + 3, _, _ => by simp [selectOp]

/-! ### Decoding -/

/-- The checks of `decode` (30_encoding.md R68); UNIT = 0b11 selects nothing. -/
theorem decode_eq_ok_iff_selectOp {c : Word} {i : Instr} :
    decode c = .ok i ↔ reservedOf c = 0 ∧ selectOp (unitOf c) (opOf c) (widthOf c) = some i ∧
      ¬ (i.takesWidth = false ∧ widthOf c ≠ 0) := by
  unfold decode
  split_ifs with hreserved hunit
  · simp [hreserved]
  · simp [hunit, selectOp]
  · rw [not_not] at hreserved
    cases selectOp (unitOf c) (opOf c) (widthOf c) with
    | none => simp
    | some j =>
      simp only [hreserved, true_and, Option.some.injEq, ite_eq_iff, reduceCtorEq, and_false, false_or,
        Except.ok.injEq]
      rw [and_comm]
      exact and_congr_right fun hj => by rw [hj]

/-- A word decodes to the command whose fields it carries, and to no other. -/
theorem decode_eq_ok_iff {c : Word} {i : Instr} :
    decode c = .ok i ↔ reservedOf c = 0 ∧ bitField c 0 8 = i.opc ∧ widthOf c = i.wField := by
  rw [decode_eq_ok_iff_selectOp, unitOf_eq_div, opOf_eq_mod]
  refine and_congr_right fun _ => ⟨fun ⟨hsel, hwidth⟩ => ?_, fun ⟨hopc, hwidth⟩ => ?_⟩
  · obtain ⟨hopc, hw⟩ := selectOp_some hsel
    refine ⟨by omega, ?_⟩
    cases ht : i.takesWidth with
    | true => exact (hw ht).symm
    | false => rw [Instr.wField_eq_zero ht, not_not.1 fun h => hwidth ⟨ht, h⟩]
  · rw [hopc, hwidth]
    exact ⟨selectOp_opc i, fun ⟨ht, hw⟩ => hw (Instr.wField_eq_zero ht)⟩

/-- Settles O5: the word of a command carries the command's fields. -/
theorem decodeOfEncode : Obligations.DecodeOfEncode := by
  unfold Obligations.DecodeOfEncode
  exact fun i hi => decode_eq_ok_iff.2 (Laws.Encoding.fields_of_word (of_decide_eq_true hi) i.opc_lt)

/-- Settles O6: the fields a word decodes by are all of its bits. -/
theorem encodeOfDecode : Obligations.EncodeOfDecode := by
  unfold Obligations.EncodeOfDecode
  intro c i hc
  obtain ⟨hreserved, hopc, hwidth⟩ := decode_eq_ok_iff.1 hc
  refine ⟨decide_eq_true (hwidth ▸ widthOf_lt c), ?_⟩
  have hword := toNat_eq_fields c
  rw [hreserved, hopc, hwidth, Nat.zero_mul, Nat.zero_add] at hword
  rw [encode, ← hword, BitVec.ofNat_toNat, BitVec.setWidth_eq]

/-- Settles O8: each word is evaluated. -/
theorem wordsOfTheTableDecode : Obligations.WordsOfTheTableDecode := by
  unfold Obligations.WordsOfTheTableDecode
  decide

/-! ### Illegal words -/

/-- Where the table has a command, it is a width command unless UNIT is 0 or OP is below 0x10. -/
theorem selectOp_narrow_iff {unit op w : Nat} {i : Instr} (hop : op < 64) (h : selectOp unit op w = some i) :
    i.takesWidth = false ↔ unit = 0 ∨ op < 0x10 := by
  rw [← Bool.not_eq_true, Instr.takesWidth_iff, (selectOp_some h).1]
  omega

/-- The causes of 30_encoding.md R68: where the table has a command, the reserved bits and W remain; where it has none,
the place is reserved. -/
theorem decode_illegal_iff (c : Word) :
    (reservedOf c ≠ 0 ∨ unitOf c = 3 ∨ (unitOf c = 0 ∧ opOf c ∉ [0x0C, 0x10, 0x11, 0x12]) ∨ 0x12 < opOf c ∨
      (widthOf c ≠ 0 ∧ (unitOf c = 0 ∨ opOf c < 0x10))) ↔ ¬ ∃ i, decode c = .ok i := by
  have hunit : unitOf c < 4 := Nat.mod_lt _ (by decide)
  have hop : opOf c < 64 := Nat.mod_lt _ (by decide)
  have hnone := selectOp_eq_none_iff (unitOf c) (opOf c) (widthOf c)
  simp only [decode_eq_ok_iff_selectOp]
  cases hsel : selectOp (unitOf c) (opOf c) (widthOf c) with
  | none =>
    refine iff_of_true ?_ (by simp)
    obtain h | h | h := hnone.1 hsel
    · exact .inr (.inl (by omega))
    · exact .inr (.inr (.inl h))
    · exact .inr (.inr (.inr (.inl h)))
  | some i =>
    obtain ⟨hthree, hsize, hlast⟩ : ¬ 3 ≤ unitOf c ∧ ¬ (unitOf c = 0 ∧ opOf c ∉ [0x0C, 0x10, 0x11, 0x12]) ∧
        ¬ 0x12 < opOf c := by
      rw [← not_or, ← not_or, ← hnone, hsel]
      exact Option.some_ne_none i
    have hnarrow := selectOp_narrow_iff hop hsel
    simp only [Option.some.injEq, hsize, hlast, false_or, exists_and_left, exists_eq_left', hnarrow]
    omega

end Sys2Proof

namespace Sys2Proof.Machine

/-- Settles O7: the causes are those of `decode`, and Finish with ILLEGAL_COMMAND is all such a write does. -/
theorem illegalWordsAreExactlyTheListed : Obligations.IllegalWordsAreExactlyTheListed := by
  unfold Obligations.IllegalWordsAreExactlyTheListed
  refine fun c s rest hs => ⟨decode_illegal_iff c, fun hc => ?_⟩
  have hstep : step s = commandWrite c { s with host := rest } := step_of_event hs
  cases hd : decode c with
  | ok i => exact absurd ⟨i, hd⟩ hc
  | error e =>
    rw [hstep, commandWrite, hd]
    rfl

end Sys2Proof.Machine
end

section
/-! What the command cycle decides before a body runs (40_command_cycle.md R80, R81, R82, R95): the fault of an
unwritten DIN, the checks that let nothing move, and that nothing else keeps a command from a next state. -/

namespace Sys2Proof.Machine
open Sys2Proof.Claims

theorem isSize_shape {i : Instr} (h : IsSize i) : ∃ check size, IsSizeCycle i check size := by
  rcases exec_shape i with rfl | rfl | ⟨hu, -⟩ | ⟨hu, -⟩ | ⟨-, hc⟩
  · exact absurd h (by decide)
  · exact absurd h (by decide)
  · omega
  · omega
  · exact hc

/-! ### DIN unwritten -/

/-- Settles O20: both cycles that read DIN look at DIN.V before their check. -/
theorem unwrittenDinIsAHostFault : Obligations.UnwrittenDinIsAHostFault := by
  unfold Obligations.UnwrittenDinIsAHostFault
  rintro i s (⟨hi, hop⟩ | hi) hdin hlatch
  · obtain rfl | ⟨_, _, _, hc⟩ := onWriter_shape hi
    · exact absurd hop (by decide)
    · rw [hc.exec_eq, decide_eq_true hop, writerCycle_dinUnwritten (hlatch hi) hdin]
  · obtain ⟨_, _, hc⟩ := isSize_shape hi
    rw [hc.exec_eq, sizeCycle_dinUnwritten hdin]

/-! ### Every command completes -/

theorem counterRoom_of_far {total : Word} (d : Nat) (h : total.toNat + 9 < 2 ^ 64) : counterRoom total d = true := by
  rw [counterRoom, decide_eq_true h, Bool.true_or]

theorem readerCycle_completes {check : Option Verdict} {aligns : Bool} {body : RdCtx → Res RdCtx (Option Word)}
    {s : State} (hroom : s.r.total.toNat + 9 < 2 ^ 64) : ∃ t, readerCycle check aligns body s = .next t := by
  by_cases he : s.r.err = 0
  · cases check with
    | some v => exact ⟨_, readerCycle_rejected he⟩
    | none => exact ⟨_, (readerCycle_none he).trans (if_pos (counterRoom_of_far _ hroom))⟩
  · exact ⟨_, readerCycle_latched he⟩

theorem writerCycle_completes {readsDin : Bool} {check : Option Verdict} {aligns : Bool}
    {body : WrCtx → Res WrCtx Unit} {s : State} (hdin : readsDin = true → s.dinV = true)
    (hroom : s.w.total.toNat + 9 < 2 ^ 64) : ∃ t, writerCycle readsDin check aligns body s = .next t := by
  by_cases he : s.w.err = 0
  · cases check with
    | some v => exact ⟨_, writerCycle_rejected he hdin⟩
    | none => exact ⟨_, (writerCycle_none he hdin).trans (if_pos (counterRoom_of_far _ hroom))⟩
  · exact ⟨_, writerCycle_latched he⟩

theorem sizeCycle_completes {check : Option Verdict} {size : Nat} {s : State} (hdin : s.dinV = true) :
    ∃ t, sizeCycle check size s = .next t := by
  cases check with
  | some v => exact ⟨_, sizeCycle_rejected hdin⟩
  | none => exact ⟨_, sizeCycle_runs hdin⟩

/-- Settles O21: DIN and the counters are all that keeps a cycle from a next state. -/
theorem commandsComplete : Obligations.CommandsComplete := by
  unfold Obligations.CommandsComplete
  intro i s hdin hr hw
  rcases exec_shape i with rfl | rfl | ⟨-, -, _, _, _, hc⟩ | ⟨hi, -, _, _, _, hc⟩ | ⟨hi, _, _, hc⟩
  · exact ⟨_, rfl⟩
  · exact ⟨_, rfl⟩
  · rw [hc.exec_eq]
    exact readerCycle_completes hr
  · rw [hc.exec_eq]
    exact writerCycle_completes (fun ho => hdin (.inl ⟨hi, of_decide_eq_true ho⟩)) hw
  · rw [hc.exec_eq]
    exact sizeCycle_completes (hdin (.inr hi))

/-! ### Size commands -/

/-- Settles O25: a size cycle is a function of DIN, and each of its two ends writes only DOUT, DOUT.V and STATUS. -/
theorem sizeCommandsTouchNoUnit : Obligations.SizeCommandsTouchNoUnit := by
  unfold Obligations.SizeCommandsTouchNoUnit
  intro i s t hi ht
  obtain ⟨check, size, hc⟩ := isSize_shape hi
  obtain ⟨hv, ⟨v, hverdict, hcheck, rfl⟩ | ⟨hcheck, rfl⟩⟩ := hc.next ht
  · refine ⟨rfl, fun s' hdin hdinV => ⟨s'.finish v 0, ?_, rfl, ?_, fun hcode => ?_⟩⟩
    · rw [hc.exec_eq, hdin, hcheck, sizeCycle_rejected (hdinV.trans hv)]
    · obtain rfl | rfl | rfl := hverdict <;> rfl
    · rw [code_finish (Nat.zero_le 9), Verdict.isCheck_code hverdict] at hcode
      cases hcode
  · refine ⟨rfl, fun s' hdin hdinV => ⟨(s'.setDout (zextWord (size s.din))).finish .ok 0, ?_,
      rfl, rfl, fun _ => rfl⟩⟩
    rw [hc.exec_eq, hdin, hcheck, sizeCycle_runs (hdinV.trans hv)]

/-! ### Rejected commands -/

theorem State.finish_of_fail (s : State) {v : Verdict} (d : Nat) (hv : v ≠ .ok) :
    s.finish v d = { s with doutV := false, status := statusWord v d } := by
  cases v with
  | ok => exact absurd rfl hv
  | _ => rfl

theorem State.afterRead_code_le {s : State} {x : Res RdCtx (Option Word)} (hm : RdMoves 9 s.rdStart x) :
    code (s.afterRead x) ≤ 3 := by
  have hd := hm.delta_le
  rcases x with ⟨r, c⟩ | ⟨v, c⟩
  · exact (code_finish hd).trans_le (Nat.zero_le 3)
  · exact (code_finish hd).trans_le (Verdict.code_le_of_latches (hm.raised v c rfl).2)

theorem State.afterWrite_code_le {s : State} {x : Res WrCtx Unit} (hm : WrMoves 9 s.wrStart x) :
    code (s.afterWrite x) ≤ 3 := by
  have hd := hm.delta_le
  rcases x with ⟨_, c⟩ | ⟨v, c⟩
  · exact (code_finish hd).trans_le (Nat.zero_le 3)
  · obtain ⟨-, -, rfl⟩ := hm.raised v c rfl
    exact (code_finish hd).trans_le (by decide)

/-- Codes above 3 are given before any body runs (40_command_cycle.md R81). -/
theorem exec_rejected {i : Instr} {s t : State} (ht : exec i s = .next t) (hcode : 4 ≤ code t) :
    ∃ v, t = s.finish v 0 := by
  have hok (u : State) : ¬ 4 ≤ code (u.finish .ok 0) := by
    rw [code_finish (Nat.zero_le 9)]
    decide
  rcases exec_shape i with rfl | rfl | ⟨-, -, _, _, _, hc⟩ | ⟨-, -, _, _, _, hc⟩ | ⟨-, _, _, hc⟩
  · cases ht
    exact absurd hcode (hok _)
  · cases ht
    exact absurd hcode (hok _)
  · rcases hc.next ht with ⟨-, rfl⟩ | ⟨-, v, -, -, rfl⟩ | ⟨-, -, x, -, hm, -, rfl⟩
    · exact ⟨_, rfl⟩
    · exact ⟨v, rfl⟩
    · exact absurd hcode (by have := State.afterRead_code_le hm; omega)
  · rcases hc.next ht with ⟨-, rfl⟩ | ⟨-, v, -, -, rfl⟩ | ⟨-, -, x, -, hm, -, rfl⟩
    · exact ⟨_, rfl⟩
    · exact ⟨v, rfl⟩
    · exact absurd hcode (by have := State.afterWrite_code_le hm; omega)
  · obtain ⟨-, ⟨v, -, -, rfl⟩ | ⟨-, rfl⟩⟩ := hc.next ht
    · exact ⟨v, rfl⟩
    · exact absurd hcode (hok _)

/-- Every next state of a CMD write: the word was illegal, or the command it decodes to ran. -/
theorem commandWrite_next {c : Word} {s t : State} (h : commandWrite c s = .next t) :
    ((¬ ∃ i, decode c = .ok i) ∧ t = s.finish .illegalCommand 0) ∨ ∃ i, decode c = .ok i ∧ exec i s = .next t := by
  rw [commandWrite] at h
  cases hd : decode c with
  | error e =>
    rw [hd] at h
    exact .inl ⟨by simp, (Host.Outcome.next.inj h).symm⟩
  | ok i =>
    rw [hd] at h
    exact .inr ⟨i, rfl, h⟩

/-- Settles O18: codes above 3 are Finish alone, whether the word was illegal or a cycle stopped before its body. -/
theorem rejectedCommandsChangeNothing : Obligations.RejectedCommandsChangeNothing := by
  unfold Obligations.RejectedCommandsChangeNothing
  intro c s t ht hcode
  obtain ⟨v, rfl⟩ : ∃ v, t = s.finish v 0 := by
    obtain ⟨-, rfl⟩ | ⟨i, -, hi⟩ := commandWrite_next ht
    · exact ⟨_, rfl⟩
    · exact exec_rejected hi hcode
  refine ⟨s.finish_of_fail 0 ?_, delta_finish (Nat.zero_le 9)⟩
  rintro rfl
  rw [code_finish (Nat.zero_le 9)] at hcode
  cases hcode

end Sys2Proof.Machine
end

section
/-! The error latches (40_command_cycle.md R83, R84). How a command ends fixes its unit's latch: set by a stream error,
kept by every other end. A latch that is set outlives every event but the unit's INIT and reset. -/

namespace Sys2Proof.Machine
open Sys2Proof.Claims

/-! ### How a command ends and its unit's latch -/

theorem Verdict.latches_iff (v : Verdict) : v.latches = true ↔ v.code ∈ [1, 2, 3] := by
  simp [Verdict.latches, or_assoc]

theorem latch_of_latches (err : BitVec 8) {v : Verdict} (h : v.latches = true) :
    latch err v = BitVec.ofNat 8 v.code := if_pos h

theorem latch_of_not_latches (err : BitVec 8) {v : Verdict} (h : v.latches = false) : latch err v = err :=
  if_neg (by simp [h])

theorem Verdict.isCheck_latches {v : Verdict} (h : v.isCheck) : v.latches = false := by
  obtain rfl | rfl | rfl := h <;> rfl

/-- How a Reader command ends: with a verdict and a DELTA that STATUS holds and R.ERR follows, and with a stream error
only where its body raised it. -/
theorem IsReaderCycle.ended {i : Instr} {check : Option Verdict} {aligns : Bool}
    {body : RdCtx → Res RdCtx (Option Word)} (h : IsReaderCycle i check aligns body) {s t : State}
    (ht : exec i s = .next t) :
    ∃ v d, d ≤ 9 ∧ t.status = statusWord v d ∧ t.r.err = latch s.r.err v ∧
      (v.latches = true → ∃ c, readerRun aligns body s = .raised v c ∧ c.delta = d) := by
  rcases h.next ht with ⟨-, rfl⟩ | ⟨-, v, hv, -, rfl⟩ | ⟨-, -, x, hx, hm, -, rfl⟩
  · exact ⟨.streamBroken, 0, Nat.zero_le 9, rfl, rfl, nofun⟩
  · have hv := Verdict.isCheck_latches hv
    exact ⟨v, 0, Nat.zero_le 9, rfl, (latch_of_not_latches _ hv).symm, fun hl => by simp [hv] at hl⟩
  · have hd := hm.delta_le
    have herr : x.ctx.unit.err = s.r.err := hm.err
    rcases x with ⟨_ | _, c⟩ | ⟨v, c⟩
    · exact ⟨.ok, c.delta, hd, rfl, herr, nofun⟩
    · exact ⟨.ok, c.delta, hd, rfl, herr, nofun⟩
    · exact ⟨v, c.delta, hd, rfl, congrArg (latch · v) herr, fun _ => ⟨c, hx.symm, rfl⟩⟩

/-- How a Writer command ends: its only stream error is IO_ERROR(1). -/
theorem IsWriterCycle.ended {i : Instr} {check : Word → Option Verdict} {aligns : Bool}
    {body : Word → WrCtx → Res WrCtx Unit} (h : IsWriterCycle i check aligns body) {s t : State}
    (ht : exec i s = .next t) :
    ∃ v d, d ≤ 9 ∧ t.status = statusWord v d ∧ t.w.err = latch s.w.err v ∧
      (v.latches = true → v = .transport) := by
  rcases h.next ht with ⟨-, rfl⟩ | ⟨-, v, hv, -, rfl⟩ | ⟨-, -, x, -, hm, -, rfl⟩
  · exact ⟨.streamBroken, 0, Nat.zero_le 9, rfl, rfl, nofun⟩
  · have hv := Verdict.isCheck_latches hv
    exact ⟨v, 0, Nat.zero_le 9, rfl, (latch_of_not_latches _ hv).symm, fun hl => by simp [hv] at hl⟩
  · have hd := hm.delta_le
    have herr : x.ctx.unit.err = s.w.err := hm.err
    rcases x with ⟨_, c⟩ | ⟨v, c⟩
    · exact ⟨.ok, c.delta, hd, rfl, herr, nofun⟩
    · obtain ⟨-, -, hv⟩ := hm.raised v c rfl
      exact ⟨v, c.delta, hd, rfl, congrArg (latch · v) herr, fun _ => hv⟩

theorem code_of_status {t : State} {v : Verdict} {d : Nat} (hd : d ≤ 9) (h : t.status = statusWord v d) :
    code t = v.code := by
  rw [code, h, statusWord_code hd]

/-- The latch of a unit in `t`, where it was `old`, after a command of that unit. -/
def LatchFollows (old new : BitVec 8) (t : State) : Prop :=
  (code t ∈ [1, 2, 3] → new = BitVec.ofNat 8 (code t)) ∧ (code t ∉ [1, 2, 3] → new = old)

theorem LatchFollows.of_latch {old : BitVec 8} {t : State} {v : Verdict} {d : Nat} (hd : d ≤ 9)
    (hs : t.status = statusWord v d) : LatchFollows old (latch old v) t := by
  rw [LatchFollows, code_of_status hd hs, ← Verdict.latches_iff, Bool.not_eq_true]
  exact ⟨latch_of_latches old, latch_of_not_latches old⟩

theorem IsReaderCycle.latchFollows {i : Instr} {check : Option Verdict} {aligns : Bool}
    {body : RdCtx → Res RdCtx (Option Word)} (h : IsReaderCycle i check aligns body) {s t : State}
    (ht : exec i s = .next t) : LatchFollows s.r.err t.r.err t := by
  obtain ⟨v, d, hd, hs, herr, -⟩ := h.ended ht
  exact herr ▸ .of_latch hd hs

theorem IsWriterCycle.latchFollows {i : Instr} {check : Word → Option Verdict} {aligns : Bool}
    {body : Word → WrCtx → Res WrCtx Unit} (h : IsWriterCycle i check aligns body) {s t : State}
    (ht : exec i s = .next t) : LatchFollows s.w.err t.w.err t ∧ (code t ∈ [1, 2, 3] → code t = 2) := by
  obtain ⟨v, d, hd, hs, herr, hv⟩ := h.ended ht
  refine ⟨herr ▸ .of_latch hd hs, ?_⟩
  rw [code_of_status hd hs, ← Verdict.latches_iff]
  exact fun hl => congrArg Verdict.code (hv hl)

theorem exec_size_keeps_units {i : Instr} {s t : State} (hi : IsSize i) (ht : exec i s = .next t) :
    t.r = s.r ∧ t.w = s.w := by
  obtain ⟨_, _, hc⟩ := isSize_shape hi
  obtain ⟨-, ⟨v, -, -, rfl⟩ | ⟨-, rfl⟩⟩ := hc.next ht <;> exact ⟨rfl, rfl⟩

theorem code_finish_ok_not_stream (u : State) : code (u.finish .ok 0) ∉ [1, 2, 3] := by
  rw [code_finish (Nat.zero_le 9)]
  decide

theorem exec_reader_latch {i : Instr} {s t : State} (hi : OnReader i) (ht : exec i s = .next t)
    (hcode : code t ∈ [1, 2, 3]) : t.r.err.toNat = code t := by
  obtain rfl | ⟨_, _, _, hc⟩ := onReader_shape hi
  · cases ht
    exact absurd hcode (code_finish_ok_not_stream _)
  · rw [(hc.latchFollows ht).1 hcode, BitVec.toNat_ofNat]
    simp only [List.mem_cons, List.not_mem_nil, or_false] at hcode
    omega

theorem exec_writer_latch {i : Instr} {s t : State} (hi : OnWriter i) (ht : exec i s = .next t)
    (hcode : code t ∈ [1, 2, 3]) : code t = 2 ∧ t.w.err = 2 := by
  obtain rfl | ⟨_, _, _, hc⟩ := onWriter_shape hi
  · cases ht
    exact absurd hcode (code_finish_ok_not_stream _)
  · obtain ⟨⟨hset, -⟩, htwo⟩ := hc.latchFollows ht
    have h2 := htwo hcode
    exact ⟨h2, (hset hcode).trans (by rw [h2]; rfl)⟩

theorem exec_keeps_latches {i : Instr} {s t : State} (hr : i ≠ .rdInit) (hw : i ≠ .wrInit) (ht : exec i s = .next t)
    (hcode : code t ∉ [1, 2, 3]) : t.r.err = s.r.err ∧ t.w.err = s.w.err := by
  rcases exec_shape i with h | h | ⟨hi, -, _, _, _, hc⟩ | ⟨hi, -, _, _, _, hc⟩ | ⟨hi, -⟩
  · exact absurd h hr
  · exact absurd h hw
  · exact ⟨(hc.latchFollows ht).2 hcode, congrArg Writer.err (exec_keeps_writer hi ht).1⟩
  · obtain ⟨⟨-, hkept⟩, -⟩ := hc.latchFollows ht
    exact ⟨congrArg Reader.err (exec_keeps_reader hi ht).1, hkept hcode⟩
  · obtain ⟨hr, hw⟩ := exec_size_keeps_units hi ht
    exact ⟨congrArg Reader.err hr, congrArg Writer.err hw⟩

/-- Settles O16: a command's own latch follows its code, and the other unit is left alone. -/
theorem streamErrorsLatch : Obligations.StreamErrorsLatch := by
  unfold Obligations.StreamErrorsLatch
  refine ⟨fun i s t ht => ⟨fun hi hcode => ?_, fun hi hcode => ?_,
    fun hr hw => exec_keeps_latches hr hw ht, fun hi => ?_⟩, fun c s t hillegal ht => ?_⟩
  · exact ⟨exec_reader_latch hi ht hcode, congrArg Writer.err (exec_keeps_writer hi ht).1⟩
  · obtain ⟨htwo, hset⟩ := exec_writer_latch hi ht hcode
    exact ⟨htwo, hset, congrArg Reader.err (exec_keeps_reader hi ht).1⟩
  · obtain ⟨hr, hw⟩ := exec_size_keeps_units hi ht
    exact ⟨congrArg Reader.err hr, congrArg Writer.err hw⟩
  · obtain ⟨-, rfl⟩ | ⟨i, hd, -⟩ := commandWrite_next ht
    · exact ⟨rfl, rfl⟩
    · exact absurd ⟨i, hd⟩ hillegal

/-! ### A latch that is set -/

theorem exec_reader_latched {i : Instr} {s : State} (hi : OnReader i) (hinit : i ≠ .rdInit) (he : s.r.err ≠ 0) :
    exec i s = .next (s.finish .streamBroken 0) := by
  obtain h | ⟨_, _, _, hc⟩ := onReader_shape hi
  · exact absurd h hinit
  · rw [hc.exec_eq, readerCycle_latched he]

theorem exec_writer_latched {i : Instr} {s : State} (hi : OnWriter i) (hinit : i ≠ .wrInit) (he : s.w.err ≠ 0) :
    exec i s = .next (s.finish .streamBroken 0) := by
  obtain h | ⟨_, _, _, hc⟩ := onWriter_shape hi
  · exact absurd h hinit
  · rw [hc.exec_eq, writerCycle_latched he]

theorem exec_keeps_latched_reader {i : Instr} {s t : State} (hinit : i ≠ .rdInit) (he : s.r.err ≠ 0)
    (ht : exec i s = .next t) : t.r = s.r := by
  rcases exec_shape i with h | rfl | ⟨hi, -⟩ | ⟨hi, -⟩ | ⟨hi, -⟩
  · exact absurd h hinit
  · exact (exec_keeps_reader (by decide) ht).1
  · cases (exec_reader_latched hi hinit he).symm.trans ht
    rfl
  · exact (exec_keeps_reader hi ht).1
  · exact (exec_size_keeps_units hi ht).1

theorem exec_keeps_latched_writer {i : Instr} {s t : State} (hinit : i ≠ .wrInit) (he : s.w.err ≠ 0)
    (ht : exec i s = .next t) : t.w = s.w := by
  rcases exec_shape i with rfl | h | ⟨hi, -⟩ | ⟨hi, -⟩ | ⟨hi, -⟩
  · exact (exec_keeps_writer (by decide) ht).1
  · exact absurd h hinit
  · exact (exec_keeps_writer hi ht).1
  · cases (exec_writer_latched hi hinit he).symm.trans ht
    rfl
  · exact (exec_size_keeps_units hi ht).2

/-- The events that reach a unit are CMD writes and resets. -/
theorem hostEvent_units {e : HostEvent} {s t : State} (h : hostEvent e s = .next t) :
    (t.r = s.r ∧ t.w = s.w) ∨ (∃ c, e = .write 0x00 64 c ∧ commandWrite c s = .next t) ∨ e = .reset ∨
      ∃ c, e = .resetDuring c := by
  cases e with
  | write offset width v =>
    change hostWrite offset width v s = _ at h
    rw [hostWrite] at h
    split at h
    next hr =>
      obtain ⟨rfl, rfl⟩ := regAt_eq_some hr
      exact .inr (.inl ⟨v, rfl, h⟩)
    next =>
      cases h
      exact .inl ⟨rfl, rfl⟩
    all_goals cases h
  | read offset width =>
    obtain ⟨x, hx⟩ := hostRead_next h
    cases hx
    exact .inl ⟨rfl, rfl⟩
  | reset => exact .inr (.inr (.inl rfl))
  | resetDuring c => exact .inr (.inr (.inr ⟨c, rfl⟩))
  | attachSource | attachSink =>
    cases h
    exact .inl ⟨rfl, rfl⟩

theorem hostEvent_latched_reader {e : HostEvent} {s t : State} (he : s.r.err ≠ 0) (h : hostEvent e s = .next t) :
    t.r = s.r ∨ e = .write 0x00 64 0x40 ∨ e = .reset ∨ ∃ c, e = .resetDuring c := by
  obtain ⟨hr, -⟩ | ⟨c, rfl, hc⟩ | hreset := hostEvent_units h
  · exact .inl hr
  · obtain ⟨-, rfl⟩ | ⟨i, hd, hi⟩ := commandWrite_next hc
    · exact .inl rfl
    · by_cases hinit : i = .rdInit
      · exact .inr (.inl (by rw [← (encodeOfDecode c i hd).2, hinit]; rfl))
      · exact .inl (exec_keeps_latched_reader hinit he hi)
  · exact .inr (.inr hreset)

theorem hostEvent_latched_writer {e : HostEvent} {s t : State} (he : s.w.err ≠ 0) (h : hostEvent e s = .next t) :
    t.w = s.w ∨ e = .write 0x00 64 0x80 ∨ e = .reset ∨ ∃ c, e = .resetDuring c := by
  obtain ⟨-, hw⟩ | ⟨c, rfl, hc⟩ | hreset := hostEvent_units h
  · exact .inl hw
  · obtain ⟨-, rfl⟩ | ⟨i, hd, hi⟩ := commandWrite_next hc
    · exact .inl rfl
    · by_cases hinit : i = .wrInit
      · exact .inr (.inl (by rw [← (encodeOfDecode c i hd).2, hinit]; rfl))
      · exact .inl (exec_keeps_latched_writer hinit he hi)
  · exact .inr (.inr hreset)

/-- Settles O15: the latch is the first thing a cycle looks at, and no event but INIT's word and reset gets past it. -/
theorem latchedUnitRefusesAllButInit : Obligations.LatchedUnitRefusesAllButInit := by
  unfold Obligations.LatchedUnitRefusesAllButInit
  refine ⟨fun i s => ⟨exec_reader_latched, exec_writer_latched⟩, fun s t e rest hs ht => ?_⟩
  rw [step_of_event hs] at ht
  exact ⟨fun he => (hostEvent_latched_reader (s := { s with host := rest }) he ht).imp_left (congrArg Reader.err),
    fun he => (hostEvent_latched_writer (s := { s with host := rest }) he ht).imp_left (congrArg Writer.err)⟩

end Sys2Proof.Machine
end

section
/-! What a Reader's stream error says of the bytes pulled (40_command_cycle.md R93, 60_exceptions.md R201 to R203): a
body raises END_OF_STREAM before its first byte, TRUNCATED after it, and MALFORMED_VARINT at its fifth. -/

namespace Sys2Proof.Machine
open Sys2Proof.Claims

/-- The DELTAs an outcome goes with: none pulled for END_OF_STREAM, some for TRUNCATED, five for MALFORMED_VARINT. -/
def Verdict.FitsDelta (v : Verdict) (d : Nat) : Prop :=
  (v.code = 1 → d = 0) ∧ (v.code = 2 → v.info = 2 → 1 ≤ d) ∧ (v.code = 3 → d = 5)

theorem Verdict.FitsDelta.of_not_latches {v : Verdict} (d : Nat) (h : v.latches = false) : v.FitsDelta d := by
  simp only [Verdict.latches, Bool.or_eq_false_iff, beq_eq_false_iff_ne] at h
  obtain ⟨⟨h1, h2⟩, h3⟩ := h
  exact ⟨fun hc => absurd hc h1, fun hc => absurd hc h2, fun hc => absurd hc h3⟩

theorem malformedVarint_fitsDelta : Verdict.malformedVarint.FitsDelta 5 := ⟨nofun, nofun, fun _ => rfl⟩

/-- An answer that is no byte is classified by what was pulled before it. -/
theorem stopVerdict_fitsDelta (a : SrcAnswer) (d : Nat) : (stopVerdict a d).FitsDelta d := by
  cases a with
  | byte b => exact ⟨nofun, nofun, nofun⟩
  | endOfData =>
    rw [stopVerdict]
    split_ifs with hd
    · exact ⟨fun _ => hd, nofun, nofun⟩
    · exact ⟨nofun, fun _ _ => Nat.pos_of_ne_zero hd, nofun⟩
  | fail => exact ⟨nofun, nofun, nofun⟩

/-- Where `x` raised, its verdict goes with the bytes it had pulled. -/
def RaisesFitting {α : Type} (x : Res RdCtx α) : Prop :=
  ∀ v c, x = .raised v c → v.FitsDelta c.delta

theorem RaisesFitting.of_done {α : Type} (a : α) (c : RdCtx) : RaisesFitting (.done a c) := nofun

theorem RaisesFitting.of_raised {α : Type} {v : Verdict} {c : RdCtx} (h : v.FitsDelta c.delta) :
    RaisesFitting (.raised v c : Res RdCtx α) := by
  rintro _ _ ⟨⟩
  exact h

theorem RaisesFitting.andThen {α β : Type} {x : Res RdCtx α} {f : α → RdCtx → Res RdCtx β}
    (hx : RaisesFitting x) (hf : ∀ a d, x = .done a d → RaisesFitting (f a d)) : RaisesFitting (x.andThen f) := by
  rcases x with ⟨a, d⟩ | ⟨v, d⟩
  · exact hf a d rfl
  · exact .of_raised (hx v d rfl)

theorem RaisesFitting.map {α β : Type} {x : Res RdCtx α} (hx : RaisesFitting x) (f : α → β) :
    RaisesFitting (x.map f) := by
  rcases x with ⟨a, d⟩ | ⟨v, d⟩
  · exact .of_done _ _
  · exact .of_raised (hx v d rfl)

theorem readBit_raisesFitting (c : RdCtx) : RaisesFitting (readBit c) := by
  by_cases h0 : c.unit.cnt = 0
  · rcases hp : c.source.pull with ⟨b | _ | _, src⟩
    · rw [readBit_pull h0 hp]
      exact .of_done _ _
    · rw [readBit_stop h0 hp nofun]
      exact .of_raised (stopVerdict_fitsDelta _ _)
    · rw [readBit_stop h0 hp nofun]
      exact .of_raised (stopVerdict_fitsDelta _ _)
  · rw [readBit_pending h0]
    exact .of_done _ _

theorem readBits_raisesFitting (w : Nat) (c : RdCtx) : RaisesFitting (readBits w c) := by
  induction w with
  | zero => exact .of_done _ _
  | succ w ih => exact ih.andThen fun _ d _ => (readBit_raisesFitting d).map _

theorem readBytesLE_raisesFitting (k : Nat) (c : RdCtx) : RaisesFitting (readBytesLE k c) := by
  induction k with
  | zero => exact .of_done _ _
  | succ k ih => exact ih.andThen fun _ d _ => (readBits_raisesFitting 8 d).map _

theorem decodeHalf_raisesFitting (h : Nat) (c : RdCtx) : RaisesFitting (decodeHalf h c) := by
  rw [decodeHalf]
  split_ifs <;> exact .of_done _ _

theorem readBits8_delta {c d : RdCtx} {b : Nat} (h0 : c.unit.cnt = 0) (h : readBits 8 c = .done b d) :
    d.delta = c.delta + 1 := by
  rcases hp : c.source.pull with ⟨a | _ | _, src⟩
  · rw [readBits8_done h0 hp] at h
    cases h
    rfl
  · rw [readBits8_stop h0 hp nofun] at h
    cases h
  · rw [readBits8_stop h0 hp nofun] at h
    cases h

/-- The loop is at byte `i` when `i` bytes are pulled, and gives up when the fifth is. -/
theorem readVarint_raisesFitting {left i v : Nat} {c : RdCtx} (h0 : c.unit.cnt = 0) (hd : c.delta = i)
    (hi : i + left = 5) : RaisesFitting (readVarint left i v c) := by
  induction left generalizing i v c with
  | zero => exact .of_raised (hd.trans hi ▸ malformedVarint_fitsDelta)
  | succ left ih =>
    refine (readBits_raisesFitting 8 c).andThen fun b e he => ?_
    have hcnt := (readBits8_cnt h0 he).1
    have hdelta := readBits8_delta h0 he
    split_ifs with hfifth
    · have hfive : e.delta = 5 := by omega
      exact .of_raised (hfive ▸ malformedVarint_fitsDelta)
    · exact .of_done _ _
    · exact ih hcnt (by omega) (by omega)

/-- Command `i` is a Reader cycle whose body, run from DELTA 0, raises only what its DELTA says. -/
def IsFittingReader (i : Instr) : Prop :=
  ∃ check aligns body, IsReaderCycle i check aligns body ∧
    ∀ c : RdCtx, c.delta = 0 → (aligns = true → c.unit.cnt = 0) → RaisesFitting (body c)

theorem readFixed_isFitting {i : Instr} {k : Nat} {format : Nat → Word} (h : ∀ s, exec i s = readFixed k format s)
    (hi : k ≤ 9 ∧ 2 ≤ i.opc % 64 ∧ i.takesWidth = false) : IsFittingReader i :=
  ⟨_, _, _, readFixed_isCycle h hi.1 hi.2, fun c _ _ => (readBytesLE_raisesFitting k c).map _⟩

theorem readField_isFitting {i : Instr} {w : Nat} {format : Nat → Word} (h : ∀ s, exec i s = readField w format s)
    (hi : 2 ≤ i.opc % 64 ∧ i.takesWidth = true ∧ i.wField = w) : IsFittingReader i :=
  ⟨_, _, _, readField_isCycle h hi, fun c _ _ => (readBits_raisesFitting w c).map _⟩

theorem onReader_isFitting {i : Instr} (h : OnReader i) (hinit : i ≠ .rdInit) : IsFittingReader i := by
  cases i with
  | rdInit => exact absurd rfl hinit
  | rdAlign => exact ⟨_, _, _, rdAlign_isCycle, fun _ _ _ => .of_done _ _⟩
  | rdU8 | rdS8 | rdU16 | rdS16 | rdU32 | rdS32 | rdU64 | rdS64 | rdF32 | rdF64 | rdFx32 | rdFx8 =>
    exact readFixed_isFitting (fun _ => rfl) (by decide)
  | rdVu32 =>
    exact ⟨_, _, _, rdVu32_isCycle, fun c hd h0 => (readVarint_raisesFitting (h0 rfl) hd rfl).map _⟩
  | rdF16 =>
    exact ⟨_, _, _, rdF16_isCycle,
      fun c _ _ => (readBytesLE_raisesFitting 2 c).andThen fun a d _ => decodeHalf_raisesFitting a d⟩
  | rdUb | rdSb | rdFb =>
    exact readField_isFitting (fun _ => rfl) (by simp [Instr.opc, Instr.takesWidth, Instr.wField])
  | _ => simp [OnReader, Instr.opc] at h

theorem statusWord_info {v : Verdict} {d : Nat} (hd : d ≤ 9) : bitField (statusWord v d) 16 8 = v.info := by
  cases v <;> interval_cases d <;> decide

/-- STATUS after a Reader command holds a verdict and a DELTA that go together. -/
theorem exec_reader_fitsDelta {i : Instr} {s t : State} (hi : OnReader i) (ht : exec i s = .next t) :
    ∃ v d, d ≤ 9 ∧ t.status = statusWord v d ∧ v.FitsDelta d := by
  by_cases hinit : i = .rdInit
  · subst hinit
    cases ht
    exact ⟨.ok, 0, Nat.zero_le 9, rfl, .of_not_latches 0 rfl⟩
  obtain ⟨check, aligns, body, hc, hfits⟩ := onReader_isFitting hi hinit
  obtain ⟨v, d, hd, hs, -, hrun⟩ := hc.ended ht
  refine ⟨v, d, hd, hs, ?_⟩
  cases hv : v.latches with
  | false => exact .of_not_latches d hv
  | true =>
    obtain ⟨c, hx, rfl⟩ := hrun hv
    exact hfits _ (by cases aligns <;> rfl) (by rintro rfl; rfl) v c hx

theorem exec_pulled_of_delta_eq_zero {i : Instr} {s t : State} (ht : exec i s = .next t) (hd : delta t = 0) :
    t.source.pulled = s.source.pulled := by
  obtain ⟨bs, ws, hpulled, -, hdelta, -⟩ := countersAreExact i s t ht
  obtain rfl : bs = [] := List.length_eq_zero_iff.1 (by omega)
  simpa using hpulled

/-- Settles O19: the codes name the verdict, which goes with the DELTA, and DELTA 0 means nothing was pulled. -/
theorem endOfStreamPulledNothing : Obligations.EndOfStreamPulledNothing := by
  unfold Obligations.EndOfStreamPulledNothing
  intro i s t hi ht
  obtain ⟨v, d, hd, hs, hzero, hone, hfive⟩ := exec_reader_fitsDelta hi ht
  have hcode : code t = v.code := code_of_status hd hs
  have hinfo : info t = v.info := by rw [info, hs, statusWord_info hd]
  have hdelta : delta t = d := by rw [delta, hs, statusWord_delta hd]
  rw [hcode, hinfo, hdelta]
  exact ⟨fun h => ⟨hzero h, exec_pulled_of_delta_eq_zero ht (hdelta.trans (hzero h))⟩, hone, hfive⟩

end Sys2Proof.Machine
end

section
/-! The byte-level reads (41_byte_stream.md R100 to R109): the state a read leaves, for any value format, and the four
formats of 30_encoding.md R67 on values that fit their bytes. -/

namespace Sys2Proof.Machine
open Sys2Proof.Claims

/-! ### The states a Reader value command leaves -/

theorem ofNat_delta_eq_statusWord (d : Nat) : BitVec.ofNat 64 (256 * d) = statusWord .ok d := by
  simp [statusWord, Verdict.code, Verdict.info]

theorem afterRead_pulling_done (s : State) (bs : List Byte) (left : Nat) (src : Source) (x : Word) :
    s.afterRead (.done (some x) ((alignR s.rdStart).pulling bs left src)) = readDone s bs left src x := by
  simp [State.afterRead, State.finish, State.setDout, RdCtx.pulling, readDone, ofNat_delta_eq_statusWord]

theorem afterRead_pulling_raised (s : State) (bs : List Byte) (src : Source) {v : Verdict} (hv : v.latches = true) :
    s.afterRead (.raised v ((alignR s.rdStart).pulling bs 0 src)) = readStopped s bs src v := by
  have hok : v ≠ .ok := by rintro rfl; simp [Verdict.latches, Verdict.code] at hv
  simp [State.afterRead, State.finish_of_fail _ _ hok, RdCtx.pulling, readStopped, latch_of_latches _ hv, statusWord]

/-! ### A read of whole bytes -/

theorem leValue_lt (bs : List Byte) : leValue bs < 2 ^ (8 * bs.length) := by
  induction bs with
  | nil => simp [leValue]
  | cons b bs ih =>
    have hb := b.isLt
    rw [leValue, List.length_cons, Nat.mul_succ, pow_add]
    omega

/-- A read of `k` bytes obeys its rule; its format is looked at on values of `k` bytes only. -/
theorem readFixed_readRule {i : Instr} {word : Word} {k : Nat} {format format' : Nat → Word} (hword : encode i = word)
    (hexec : ∀ s, exec i s = readFixed k format s) (hformat : ∀ v < 2 ^ (8 * k), format v = format' v) :
    ReadRule i word k format' := by
  refine ⟨hword, fun s herr => ⟨fun bs src hbs hroom => ?_, fun bs a src hlt hstop hroom => ?_⟩⟩
  · have hlen := Source.takeBytes_length hbs
    have hread := readBytesLE_done (c := alignR s.rdStart) rfl hbs
    rw [← hformat _ (hlen ▸ leValue_lt bs), ← afterRead_pulling_done, hexec]
    exact readerCycle_runs herr (by rw [if_pos rfl, hread, Res.map_done]) (by simpa [hlen] using hroom)
  · obtain ⟨t, hbs, hpull, hnone⟩ := hstop
    have hread := readBytesLE_stop (c := alignR s.rdStart) rfl hlt hbs hpull hnone
    rw [alignR_delta, State.rdStart_delta, Nat.zero_add] at hread
    rw [← afterRead_pulling_raised s bs src (stopVerdict_latches hnone), hexec]
    exact readerCycle_runs herr (by rw [if_pos rfl, hread, Res.map_raised]) (by simpa using hroom)

/-! ### The formats -/

/-- `sext_N` is the two's-complement value of the pattern (00_scope.md R14). -/
theorem sext_eq_toInt {n v : Nat} (hv : v < 2 ^ n) : sext n v = (BitVec.ofNat n v).toInt := by
  rw [BitVec.toInt_eq_toNat_cond, BitVec.toNat_ofNat, Nat.mod_eq_of_lt hv, sext]
  cases n with
  | zero => simp_all
  | succ n =>
    have hp : 2 ^ (n + 1) = 2 * 2 ^ n := by ring
    by_cases h : 2 ^ n ≤ v
    · rw [if_pos ⟨n.succ_pos, h⟩, if_neg (by omega)]
    · rw [if_neg (fun hn => h hn.2), if_pos (by omega)]

theorem sextWord_sext {n v : Nat} (hv : v < 2 ^ n) : sextWord (sext n v) = (BitVec.ofNat n v).signExtend 64 := by
  rw [sext_eq_toInt hv]
  rfl

theorem zextWord_eq_setWidth {n v : Nat} (hv : v < 2 ^ n) : zextWord v = (BitVec.ofNat n v).setWidth 64 := by
  apply BitVec.eq_of_toNat_eq
  simp [zextWord, Nat.mod_eq_of_lt hv]

/-- Settles O33: the unsigned reads are reads of whole bytes, zero-extended. -/
theorem unsignedReads : Obligations.UnsignedReads := by
  unfold Obligations.UnsignedReads
  exact ⟨readFixed_readRule rfl (fun _ => rfl) fun _ _ => rfl, readFixed_readRule rfl (fun _ => rfl) fun _ _ => rfl,
    readFixed_readRule rfl (fun _ => rfl) fun _ _ => rfl, readFixed_readRule rfl (fun _ => rfl) fun _ _ => rfl⟩

/-- Settles O34: the signed reads are reads of whole bytes whose `sext_N` is the sign extension of the pattern. -/
theorem signedReads : Obligations.SignedReads := by
  unfold Obligations.SignedReads
  exact ⟨readFixed_readRule rfl (fun _ => rfl) fun _ => sextWord_sext,
    readFixed_readRule rfl (fun _ => rfl) fun _ => sextWord_sext,
    readFixed_readRule rfl (fun _ => rfl) fun _ => sextWord_sext,
    readFixed_readRule rfl (fun _ => rfl) fun _ => sextWord_sext⟩

/-- Settles O35: the float reads are reads of whole bytes whose pattern is moved unchanged. -/
theorem floatReads : Obligations.FloatReads := by
  unfold Obligations.FloatReads
  exact ⟨readFixed_readRule rfl (fun _ => rfl) fun _ => zextWord_eq_setWidth,
    readFixed_readRule rfl (fun _ => rfl) fun _ _ => rfl⟩

end Sys2Proof.Machine
end

section
/-! The byte-level writes (41_byte_stream.md R110 to R119): a body that sends given bytes from a byte boundary, the
padded pending bits before it (40_command_cycle.md R81, R92), and the state the command leaves. -/

namespace Sys2Proof.Machine
open Sys2Proof.Claims

/-! ### Bodies that send given bytes -/

/-- From `c` the piece of a body that ends in `x` sends exactly `bs`, or the part the sink takes, and leaves nothing
pending. -/
structure SendsFrom (c : WrCtx) (bs : List Byte) (x : Res WrCtx Unit) : Prop where
  done : ∀ snk, c.sink.takes bs = some snk → x = .done () (c.flushing bs 0 0 snk)
  fail : ∀ as b cs t snk, bs = as ++ b :: cs → c.sink.takes as = some t → t.push b = (.fail, snk) →
    x = .raised .transport (c.flushing as 0 0 snk)

theorem writeBytesLE_sends {k v : Nat} {c : WrCtx} (h0 : c.unit.cnt = 0) (hk : k ≠ 0) :
    SendsFrom c (leBytes k v) (writeBytesLE k v c) :=
  ⟨fun _ h => writeBytesLE_done h0 h hk, fun _ _ _ _ _ hbs h hpush => writeBytesLE_fail h0 hbs h hpush⟩

/-- An element that splits `ps ++ bs` lies in `ps` or in `bs`. -/
theorem mem_left_or_right_of_append_eq {α : Type} {ps bs as cs : List α} {b : α} (h : ps ++ bs = as ++ b :: cs) :
    (∃ cs', ps = as ++ b :: cs') ∨ ∃ as', as = ps ++ as' ∧ bs = as' ++ b :: cs := by
  obtain ⟨as', has, hbs⟩ | ⟨ds, hps, hds⟩ := List.append_eq_append_iff.1 h
  · exact .inr ⟨as', has, hbs⟩
  · obtain ⟨rfl, hbs⟩ | ⟨cs', rfl, -⟩ := List.cons_eq_append_iff.1 hds
    · exact .inr ⟨[], by simpa using hps.symm, by simpa using hbs⟩
    · exact .inl ⟨cs', hps⟩

/-- The implicit align puts the padded byte before the bytes of a body that sends `bs` from every byte boundary. -/
theorem writerBody_sends {body : WrCtx → Res WrCtx Unit} {bs : List Byte} (c : WrCtx)
    (h : ∀ d : WrCtx, d.unit.cnt = 0 → SendsFrom d bs (body d)) :
    SendsFrom c (padding c.unit ++ bs) (writerBody true body c) where
  done snk htakes := by
    obtain ⟨t, hpad, hbs⟩ := Sink.takes_append.1 htakes
    rw [writerBody_align_taken hpad, (h _ rfl).done snk hbs, WrCtx.flushing_flushing]
  fail as b cs t snk hsplit htakes hpush := by
    obtain ⟨cs', hpad⟩ | ⟨as', rfl, hbs⟩ := mem_left_or_right_of_append_eq hsplit
    · rw [writerBody, if_pos rfl, alignW_fail hpad htakes hpush, Res.andThen_raised]
    · obtain ⟨u, hpad, hrest⟩ := Sink.takes_append.1 htakes
      rw [writerBody_align_taken hpad, (h _ rfl).fail as' b cs t snk hbs hrest hpush, WrCtx.flushing_flushing]

/-! ### The states a Writer command leaves -/

theorem afterWrite_flushing_done (s : State) (bs : List Byte) (acc : Byte) (left : Nat) (snk : Sink) :
    s.afterWrite (.done () (s.wrStart.flushing bs acc left snk)) = writeDone s bs acc left snk := by
  simp [State.afterWrite, State.finish, writeDone, ofNat_delta_eq_statusWord]

theorem afterWrite_flushing_raised (s : State) (as : List Byte) (snk : Sink) :
    s.afterWrite (.raised .transport (s.wrStart.flushing as 0 0 snk)) = writeFailed s as snk := by
  simp [State.afterWrite, State.finish, writeFailed, statusWord, Verdict.code, Verdict.info, latch, Verdict.latches]

/-- A byte-level write that passes its check, by what its body sends from a byte boundary. -/
theorem sends_of_writerCycle {i : Instr} {s : State} {body : WrCtx → Res WrCtx Unit} {bs : List Byte}
    (hexec : exec i s = writerCycle true none true body s) (herr : s.w.err = 0) (hdin : s.dinV = true)
    (hbody : ∀ d : WrCtx, d.unit.cnt = 0 → SendsFrom d bs (body d)) : Sends i s (padding s.w ++ bs) := by
  have hsends := writerBody_sends s.wrStart hbody
  refine ⟨fun snk htakes hroom => ?_, fun as b cs t snk hsplit htakes hpush hroom => ?_⟩
  · rw [← afterWrite_flushing_done, hexec]
    exact writerCycle_runs herr (fun _ => hdin) (hsends.done snk htakes) (by simpa using hroom)
  · rw [← afterWrite_flushing_raised, hexec]
    exact writerCycle_runs herr (fun _ => hdin) (hsends.fail as b cs t snk hsplit htakes hpush) (by simpa using hroom)

/-- A write of the low `k` bytes of DIN obeys its rule. -/
theorem writeFixed_writeRule {i : Instr} {word : Word} {k : Nat} (hword : encode i = word)
    (hexec : ∀ s, exec i s = writeFixed k s) (hk : k ≠ 0) : WriteRule i word k := by
  refine ⟨hword, fun s herr => ⟨fun hdin => ?_, fun hdin => ?_⟩⟩
  · rw [hexec]
    exact writerCycle_dinUnwritten herr hdin
  · exact sends_of_writerCycle (hexec s) herr hdin fun _ h0 => writeBytesLE_sends h0 hk

/-- Settles O36: the integer writes are writes of the low bytes of DIN after the padded pending bits. -/
theorem integerWrites : Obligations.IntegerWrites := by
  unfold Obligations.IntegerWrites
  have write {i : Instr} {k : Nat} (hexec : ∀ s, exec i s = writeFixed k s) (hk : k ≠ 0) :=
    writeFixed_writeRule (word := encode i) rfl hexec hk
  exact ⟨write (fun _ => rfl) (by decide), write (fun _ => rfl) (by decide), write (fun _ => rfl) (by decide),
    write (fun _ => rfl) (by decide), write (fun _ => rfl) (by decide), write (fun _ => rfl) (by decide),
    write (fun _ => rfl) (by decide), write (fun _ => rfl) (by decide)⟩

/-- Settles O37: the float writes are writes of the low bytes of DIN, the pattern unchanged. -/
theorem floatWrites : Obligations.FloatWrites := by
  unfold Obligations.FloatWrites
  exact ⟨writeFixed_writeRule rfl (fun _ => rfl) (by decide), writeFixed_writeRule rfl (fun _ => rfl) (by decide)⟩

end Sys2Proof.Machine
end

section
/-! What a byte-level write sends, the matching read delivers (41_byte_stream.md R120). -/

namespace Sys2Proof.Machine
open Sys2Proof.Claims

theorem leValue_leBytes (k v : Nat) : leValue (leBytes k v) = v % 2 ^ (8 * k) := by
  induction k generalizing v with
  | zero => simp [leBytes, leValue, Nat.mod_one]
  | succ k ih =>
    rw [leBytes, leValue, ih, BitVec.toNat_ofNat, Nat.mul_succ, Nat.add_comm (8 * k), pow_add]
    exact (Nat.mod_mul (a := 2 ^ 8)).symm

/-- A byte-level write that ended OK sent the padded pending bits and all the bytes of its body. -/
theorem IsWriterCycle.sent {i : Instr} {check : Word → Option Verdict} {body : Word → WrCtx → Res WrCtx Unit}
    {s t : State} {bs : List Byte} (h : IsWriterCycle i check true body)
    (hbody : ∀ d : WrCtx, d.unit.cnt = 0 → SendsFrom d bs (body s.din d)) (ht : exec i s = .next t)
    (hcode : code t = 0) :
    ∃ snk, s.sink.takes (padding s.w ++ bs) = some snk ∧ t = writeDone s (padding s.w ++ bs) 0 0 snk := by
  have hsends : SendsFrom s.wrStart (padding s.w ++ bs) _ := writerBody_sends s.wrStart hbody
  obtain ⟨-, rfl⟩ | ⟨-, v, hv, -, rfl⟩ | ⟨-, -, x, rfl, hm, -, rfl⟩ := h.next ht
  · exact absurd hcode (by rw [code_finish (Nat.zero_le 9)]; decide)
  · exact absurd hcode (by rw [code_finish (Nat.zero_le 9), Verdict.isCheck_code hv]; decide)
  · obtain ⟨snk, htakes⟩ | ⟨as, b, cs, u, snk, hsplit, htakes, hpush⟩ :=
      Sink.takes_or_refuses (padding s.w ++ bs) s.sink
    · exact ⟨snk, htakes, by rw [hsends.done snk htakes, afterWrite_flushing_done]⟩
    · have hd := hm.delta_le
      rw [hsends.fail as b cs u snk hsplit htakes hpush] at hcode hd
      exact absurd ((code_finish (v := .transport) hd).symm.trans hcode) (by decide)

theorem padding_of_aligned {u : Writer} (h : u.cnt = 0) : padding u = [] := if_pos h

/-- What an aligned write of the low `k` bytes of DIN that ended OK added to the sink. -/
theorem writeFixed_taken {i : Instr} {k : Nat} (hexec : ∀ s, exec i s = writeFixed k s)
    (hi : (k ≤ 8 ∧ k ≠ 0) ∧ 2 ≤ i.opc % 64 ∧ i.takesWidth = false) {s t : State} (h0 : s.w.cnt = 0)
    (ht : exec i s = .next t) (hcode : code t = 0) :
    t.sink.taken.drop s.sink.taken.length = leBytes k s.din.toNat := by
  have hcycle := writeBytes_isCycle (check := fun _ => none) (f := BitVec.toNat) hexec (by simp) hi.1 hi.2
  obtain ⟨snk, htakes, rfl⟩ := hcycle.sent (fun _ hd => writeBytesLE_sends hd hi.1.2) ht hcode
  rw [padding_of_aligned h0, List.nil_append] at htakes
  rw [show (writeDone s _ 0 0 snk).sink = snk from rfl, Sink.takes_taken htakes, List.drop_left]

/-- The statement of O38 for one type: `wr` writes `k` bytes, and `rd` gives back `value` of DIN. -/
def RoundTrips (wr rd : Instr) (k : Nat) (value : Word → Word) : Prop :=
  ∀ (s t u : State) (src : Source), s.w.cnt = 0 → exec wr s = .next t → code t = 0 →
    u.r.err = 0 → u.r.cnt = 0 → u.r.total.toNat + k < 2 ^ 64 →
    u.source.takeBytes k = some (t.sink.taken.drop s.sink.taken.length, src) →
    ∃ v, exec rd u = .next v ∧ code v = 0 ∧ delta v = k ∧ v.source = src ∧ v.dout = value s.din

/-- A write and a read of `k` bytes, by the read's format of the low bytes of DIN. -/
theorem readFixed_roundTrips {wr rd : Instr} {k : Nat} {format : Nat → Word} {value : Word → Word}
    (hrd : ∀ s, exec rd s = readFixed k format s) (hexec : ∀ s, exec wr s = writeFixed k s)
    (hwr : (k ≤ 8 ∧ k ≠ 0) ∧ 2 ≤ wr.opc % 64 ∧ wr.takesWidth = false)
    (hvalue : ∀ x : Word, format (x.toNat % 2 ^ (8 * k)) = value x) : RoundTrips wr rd k value := by
  intro s t u src h0 ht hcode herr _ hroom htakes
  rw [writeFixed_taken hexec hwr h0 ht hcode] at htakes
  obtain ⟨-, hread⟩ := readFixed_readRule rfl hrd fun _ _ => rfl
  obtain ⟨hdone, -⟩ := hread u herr
  have hk : (leBytes k s.din.toNat).length ≤ 9 := by rw [leBytes_length]; omega
  have hstatus := ofNat_delta_eq_statusWord (leBytes k s.din.toNat).length
  refine ⟨_, hdone _ src htakes hroom, code_of_status (v := .ok) hk hstatus, ?_, rfl, ?_⟩
  · exact (congrArg (bitField · 8 8) hstatus).trans ((statusWord_delta hk).trans (leBytes_length _ _))
  · exact (congrArg format (leValue_leBytes _ _)).trans (hvalue s.din)

/-- The signed reads' format of the low `n` bits of DIN. -/
theorem sextWord_low (n : Nat) (x : Word) :
    sextWord (sext n (x.toNat % 2 ^ n)) = BitVec.ofInt 64 (x.setWidth n).toInt := by
  rw [sext_eq_toInt (Nat.mod_lt _ (Nat.two_pow_pos n)), sextWord]
  congr 2
  apply BitVec.eq_of_toNat_eq
  simp

/-- Settles O38: each type's read formats the low bytes of DIN, which are the bytes its write sends. -/
theorem byteRoundTrip : Obligations.ByteRoundTrip := by
  unfold Obligations.ByteRoundTrip
  have unsigned {wr rd : Instr} {k : Nat} (hrd : ∀ s, exec rd s = readFixed k zextWord s)
      (hexec : ∀ s, exec wr s = writeFixed k s)
      (hwr : (k ≤ 8 ∧ k ≠ 0) ∧ 2 ≤ wr.opc % 64 ∧ wr.takesWidth = false) :
      RoundTrips wr rd k fun x => BitVec.ofNat 64 (x.toNat % 2 ^ (8 * k)) :=
    readFixed_roundTrips hrd hexec hwr fun _ => rfl
  have signed {wr rd : Instr} {k : Nat} (hrd : ∀ s, exec rd s = readFixed k (fun v => sextWord (sext (8 * k) v)) s)
      (hexec : ∀ s, exec wr s = writeFixed k s)
      (hwr : (k ≤ 8 ∧ k ≠ 0) ∧ 2 ≤ wr.opc % 64 ∧ wr.takesWidth = false) :
      RoundTrips wr rd k fun x => BitVec.ofInt 64 (x.setWidth (8 * k)).toInt :=
    readFixed_roundTrips hrd hexec hwr (sextWord_low (8 * k))
  simp only [List.forall_mem_cons, List.not_mem_nil, false_imp_iff, implies_true, and_true]
  exact ⟨unsigned (fun _ => rfl) (fun _ => rfl) (by decide), signed (fun _ => rfl) (fun _ => rfl) (by decide),
    unsigned (fun _ => rfl) (fun _ => rfl) (by decide), signed (fun _ => rfl) (fun _ => rfl) (by decide),
    unsigned (fun _ => rfl) (fun _ => rfl) (by decide), signed (fun _ => rfl) (fun _ => rfl) (by decide),
    unsigned (fun _ => rfl) (fun _ => rfl) (by decide), signed (fun _ => rfl) (fun _ => rfl) (by decide),
    unsigned (fun _ => rfl) (fun _ => rfl) (by decide), unsigned (fun _ => rfl) (fun _ => rfl) (by decide)⟩

end Sys2Proof.Machine
end

section
/-! The bit position of a unit and how the control commands move it (42_bit_stream.md R130 to R136): what a command
that ran leaves in R.CNT and W.CNT, ALIGN and INIT as whole next states, and fields that cross a byte boundary. -/

namespace Sys2Proof.Machine
open Sys2Proof.Claims

/-! ### Commands whose body ran -/

/-- A Reader command whose code is at most 3 was neither refused nor rejected. -/
theorem IsReaderCycle.ran {i : Instr} {check : Option Verdict} {aligns : Bool}
    {body : RdCtx → Res RdCtx (Option Word)} (h : IsReaderCycle i check aligns body) {s t : State}
    (ht : exec i s = .next t) (hcode : code t ≤ 3) :
    s.r.err = 0 ∧ RdMoves 9 s.rdStart (readerRun aligns body s) ∧ t = s.afterRead (readerRun aligns body s) := by
  rcases h.next ht with ⟨-, rfl⟩ | ⟨-, v, hv, -, rfl⟩ | ⟨he, -, x, rfl, hm, -, ht⟩
  · rw [code_finish (Nat.zero_le 9)] at hcode
    exact absurd hcode (by decide)
  · rw [code_finish (Nat.zero_le 9), Verdict.isCheck_code hv] at hcode
    exact absurd hcode (by decide)
  · exact ⟨he, hm, ht⟩

/-- A Writer command whose code is at most 3 was neither refused nor rejected. -/
theorem IsWriterCycle.ran {i : Instr} {check : Word → Option Verdict} {aligns : Bool}
    {body : Word → WrCtx → Res WrCtx Unit} (h : IsWriterCycle i check aligns body) {s t : State}
    (ht : exec i s = .next t) (hcode : code t ≤ 3) :
    s.w.err = 0 ∧ WrMoves 9 s.wrStart (writerBody aligns (body s.din) s.wrStart) ∧
      t = s.afterWrite (writerBody aligns (body s.din) s.wrStart) := by
  rcases h.next ht with ⟨-, rfl⟩ | ⟨-, v, hv, -, rfl⟩ | ⟨he, -, x, rfl, hm, -, ht⟩
  · rw [code_finish (Nat.zero_le 9)] at hcode
    exact absurd hcode (by decide)
  · rw [code_finish (Nat.zero_le 9), Verdict.isCheck_code hv] at hcode
    exact absurd hcode (by decide)
  · exact ⟨he, hm, ht⟩

theorem State.afterRead_done_r (s : State) (r : Option Word) (c : RdCtx) : (s.afterRead (.done r c)).r = c.unit := by
  cases r <;> rfl

/-- The code of a Reader command whose body ran is 0 exactly where the body did not raise. -/
theorem State.afterRead_code_eq_zero {s : State} {x : Res RdCtx (Option Word)} (hm : RdMoves 9 s.rdStart x) :
    code (s.afterRead x) = 0 ↔ ∃ r c, x = .done r c := by
  have hd := hm.delta_le
  rcases x with ⟨r, c⟩ | ⟨v, c⟩
  · exact iff_of_true (code_finish hd) ⟨r, c, rfl⟩
  · have hv := Verdict.code_ne_zero_of_latches (hm.raised v c rfl).2
    exact iff_of_false (fun h => hv ((code_finish hd).symm.trans h)) nofun

/-- The code of a Writer command whose body ran is 0 exactly where the body did not raise. -/
theorem State.afterWrite_code_eq_zero {s : State} {x : Res WrCtx Unit} (hm : WrMoves 9 s.wrStart x) :
    code (s.afterWrite x) = 0 ↔ ∃ c, x = .done () c := by
  have hd := hm.delta_le
  rcases x with ⟨_, c⟩ | ⟨v, c⟩
  · exact iff_of_true (code_finish hd) ⟨c, rfl⟩
  · obtain ⟨-, -, rfl⟩ := hm.raised v c rfl
    exact iff_of_false (fun h => absurd ((code_finish (v := .transport) hd).symm.trans h) (by decide)) nofun

/-! ### The bit position after a command -/

/-- A Reader command that ended with OK leaves its unit unlatched, byte-aligned unless it is a width command. -/
theorem exec_reader_ok {i : Instr} {s t : State} (hi : OnReader i) (ht : exec i s = .next t) (hcode : code t = 0) :
    t.r.err = 0 ∧ t.r.cnt.toNat = if i.takesWidth then bitsLeft i.wField s.r.cnt else 0 := by
  obtain rfl | ⟨check, aligns, body, hc⟩ := onReader_shape hi
  · cases ht
    exact ⟨rfl, rfl⟩
  obtain ⟨he, hm, rfl⟩ := hc.ran ht (by omega)
  obtain ⟨r, c, hx⟩ := (State.afterRead_code_eq_zero hm).1 hcode
  have herr := hm.err
  rw [hx] at herr ⊢
  rw [State.afterRead_done_r]
  refine ⟨herr.trans he, (hc.cnt _ r c (by rintro rfl; rfl) hx).trans ?_⟩
  cases hw : i.takesWidth with
  | true => rw [hc.width hw]; rfl
  | false => rfl

/-- A Writer command that ended with OK leaves its unit unlatched, with nothing pending unless it is a width command. -/
theorem exec_writer_ok {i : Instr} {s t : State} (hi : OnWriter i) (ht : exec i s = .next t) (hcode : code t = 0) :
    t.w.err = 0 ∧ t.w.cnt.toNat = if i.takesWidth then (s.w.cnt.toNat + i.wField) % 8 else 0 := by
  obtain rfl | ⟨check, aligns, body, hc⟩ := onWriter_shape hi
  · cases ht
    exact ⟨rfl, rfl⟩
  obtain ⟨he, hm, rfl⟩ := hc.ran ht (by omega)
  obtain ⟨c, hx⟩ := (State.afterWrite_code_eq_zero hm).1 hcode
  have herr := hm.err
  rw [hx] at herr ⊢
  exact ⟨herr.trans he, hc.cnt _ _ c hx⟩

theorem exec_reader_ok_aligned {i : Instr} {s t : State} (hi : OnReader i) (hw : i.takesWidth = false)
    (ht : exec i s = .next t) (hcode : code t = 0) : t.r.cnt = 0 := by
  obtain ⟨-, hcnt⟩ := exec_reader_ok hi ht hcode
  rw [hw] at hcnt
  exact BitVec.eq_of_toNat_eq hcnt

theorem exec_writer_ok_aligned {i : Instr} {s t : State} (hi : OnWriter i) (hw : i.takesWidth = false)
    (ht : exec i s = .next t) (hcode : code t = 0) : t.w.cnt = 0 := by
  obtain ⟨-, hcnt⟩ := exec_writer_ok hi ht hcode
  rw [hw] at hcnt
  exact BitVec.eq_of_toNat_eq hcnt

theorem stream_code_bounds {n : Nat} (h : n ∈ [1, 2, 3]) : n ≠ 0 ∧ n ≤ 3 := by
  simp only [List.mem_cons, List.not_mem_nil, or_false] at h
  omega

theorem exec_reader_stopped {i : Instr} {s t : State} (hi : OnReader i) (ht : exec i s = .next t)
    (hcode : code t ∈ [1, 2, 3]) : t.r.cnt = 0 ∧ t.r.err ≠ 0 := by
  obtain ⟨hne, hle⟩ := stream_code_bounds hcode
  refine ⟨?_, fun he => hne (by rw [← exec_reader_latch hi ht hcode, he]; rfl)⟩
  obtain rfl | ⟨check, aligns, body, hc⟩ := onReader_shape hi
  · cases ht
    rfl
  obtain ⟨-, hm, rfl⟩ := hc.ran ht hle
  rcases hx : readerRun aligns body s with ⟨r, c⟩ | ⟨v, c⟩
  · exact absurd ((State.afterRead_code_eq_zero hm).2 ⟨r, c, hx⟩) hne
  · exact (hm.raised v c hx).1

theorem exec_writer_stopped {i : Instr} {s t : State} (hi : OnWriter i) (ht : exec i s = .next t)
    (hcode : code t ∈ [1, 2, 3]) : t.w.cnt = 0 ∧ t.w.err ≠ 0 := by
  obtain ⟨hne, hle⟩ := stream_code_bounds hcode
  refine ⟨?_, by rw [(exec_writer_latch hi ht hcode).2]; decide⟩
  obtain rfl | ⟨check, aligns, body, hc⟩ := onWriter_shape hi
  · cases ht
    rfl
  obtain ⟨-, hm, rfl⟩ := hc.ran ht hle
  rcases hx : writerBody aligns (body s.din) s.wrStart with ⟨_, c⟩ | ⟨v, c⟩
  · exact absurd ((State.afterWrite_code_eq_zero hm).2 ⟨c, hx⟩) hne
  · exact (hm.raised v c hx).1

theorem takesWidth_of_byteLevel {i : Instr} (h : ByteLevel i) : i.takesWidth = false := by
  rw [← Bool.not_eq_true, Instr.takesWidth_iff]
  omega

/-- R.CNT after `w` bits is the position modulo 8, the way 42_bit_stream.md R135 counts it. -/
theorem bitsLeft_eq_emod (w : Nat) (cnt : BitVec 3) : (bitsLeft w cnt : ℤ) = ((cnt.toNat : ℤ) - w) % 8 := by
  have := cnt.isLt
  simp only [bitsLeft, bytesNeeded]
  omega

/-- Settles O28: a body that ended with OK leaves the position its cycle states, one that raised leaves 0, and the unit
is latched then. -/
theorem modeTransitions : Obligations.ModeTransitions := by
  unfold Obligations.ModeTransitions
  refine fun i s t ht => ⟨fun hcode hi => ?_, fun hcode hi => ?_, fun hcode hi hw => ?_, fun hcode hi hw => ?_,
    fun hcode hi => exec_reader_stopped hi ht hcode, fun hcode hi => exec_writer_stopped hi ht hcode⟩
  · obtain rfl | rfl | ⟨hi, hbyte⟩ := hi
    · exact exec_reader_ok_aligned (by decide) rfl ht hcode
    · exact exec_reader_ok_aligned (by decide) rfl ht hcode
    · exact exec_reader_ok_aligned hi (takesWidth_of_byteLevel hbyte) ht hcode
  · obtain rfl | rfl | ⟨hi, hbyte⟩ := hi
    · exact exec_writer_ok_aligned (by decide) rfl ht hcode
    · exact exec_writer_ok_aligned (by decide) rfl ht hcode
    · exact exec_writer_ok_aligned hi (takesWidth_of_byteLevel hbyte) ht hcode
  · rw [(exec_reader_ok hi ht hcode).2, if_pos hw, bitsLeft_eq_emod]
  · rw [(exec_writer_ok hi ht hcode).2, if_pos hw]

/-! ### INIT and ALIGN -/

/-- Settles O29: INIT is its unit's start state and Finish(OK, 0), whatever the state was. -/
theorem initStartsAUnit : Obligations.InitStartsAUnit := by
  unfold Obligations.InitStartsAUnit
  exact ⟨rfl, rfl, fun s => ⟨rfl, rfl⟩⟩

theorem rdAlign_unlatched {s : State} (he : s.r.err = 0) :
    exec .rdAlign s = .next { s with r := { s.r with cnt := 0 }, status := 0 } :=
  readerCycle_runs (aligns := false) (body := fun c => .done none (alignR c)) he rfl s.r.total.isLt

theorem alignW_of_aligned {c : WrCtx} (h0 : c.unit.cnt = 0) : alignW c = .done () c := if_pos h0

theorem wrAlign_aligned {s : State} (he : s.w.err = 0) (h0 : s.w.cnt = 0) :
    exec .wrAlign s = .next { s with status := 0 } :=
  writerCycle_runs (x := .done () s.wrStart) he nofun (alignW_of_aligned h0) s.w.total.isLt

theorem padding_of_pending {u : Writer} {b : Byte} (h0 : u.cnt ≠ 0)
    (hb : b = BitVec.ofNat 8 (u.acc.toNat * 2 ^ (8 - u.cnt.toNat))) : padding u = [b] := by
  rw [padding, if_neg h0, hb]

theorem Sink.takes_singleton {snk snk' : Sink} {b : Byte} (h : snk.push b = (.ok, snk')) :
    snk.takes [b] = some snk' := by
  rw [Sink.takes, h]
  rfl

theorem wrAlign_flushes {s : State} {b : Byte} {snk : Sink} (he : s.w.err = 0) (h0 : s.w.cnt ≠ 0)
    (hb : b = BitVec.ofNat 8 (s.w.acc.toNat * 2 ^ (8 - s.w.cnt.toNat))) (hpush : s.sink.push b = (.ok, snk))
    (hroom : s.w.total.toNat + 1 < 2 ^ 64) : exec .wrAlign s = .next (writeDone s [b] 0 0 snk) := by
  have hpad : padding s.w = [b] := padding_of_pending h0 hb
  have halign : alignW s.wrStart = .done () (s.wrStart.flushing [b] 0 0 snk) := by
    rw [alignW_done (snk := snk) (by simpa [hpad] using Sink.takes_singleton hpush), State.wrStart_unit, if_neg h0,
      hpad]
  rw [← afterWrite_flushing_done]
  exact writerCycle_runs he nofun halign hroom

theorem wrAlign_refused {s : State} {b : Byte} {snk : Sink} (he : s.w.err = 0) (h0 : s.w.cnt ≠ 0)
    (hb : b = BitVec.ofNat 8 (s.w.acc.toNat * 2 ^ (8 - s.w.cnt.toNat))) (hpush : s.sink.push b = (.fail, snk)) :
    exec .wrAlign s = .next (writeFailed s [] snk) := by
  have hpad : padding s.w = [] ++ b :: [] := padding_of_pending h0 hb
  rw [← afterWrite_flushing_raised]
  exact writerCycle_runs he nofun (alignW_fail (c := s.wrStart) hpad rfl hpush) s.w.total.isLt

/-- Settles O30: the align is all that ALIGN does, with nothing pulled, and one byte pushed only where bits are
pending. -/
theorem alignEndsThePartialByte : Obligations.AlignEndsThePartialByte := by
  unfold Obligations.AlignEndsThePartialByte
  refine ⟨rfl, rfl, fun s => rdAlign_unlatched, fun s => exec_reader_latched (by decide) (by decide), fun s he => ?_,
    fun s => exec_writer_latched (by decide) (by decide)⟩
  exact ⟨wrAlign_aligned he, fun b h0 hb =>
    ⟨fun snk => wrAlign_flushes he h0 hb, fun snk => wrAlign_refused he h0 hb⟩⟩

theorem Reader.align_of_aligned {u : Reader} (h : u.cnt = 0) : { u with cnt := 0 } = u := by
  rw [← h]

/-- Settles O31: a unit that ALIGN left with OK is unlatched and byte-aligned, and there an align is the identity. -/
theorem alignIsIdempotent : Obligations.AlignIsIdempotent := by
  unfold Obligations.AlignIsIdempotent
  refine ⟨fun s t ht hcode => ?_, fun s t ht hcode => ?_, fun c h0 => ?_, fun c => alignW_of_aligned⟩
  · have h0 : t.r.cnt = 0 := exec_reader_ok_aligned (by decide) rfl ht hcode
    rw [rdAlign_unlatched (exec_reader_ok (by decide) ht hcode).1, Reader.align_of_aligned h0]
  · have h0 : t.w.cnt = 0 := exec_writer_ok_aligned (by decide) rfl ht hcode
    exact wrAlign_aligned (exec_writer_ok (by decide) ht hcode).1 h0
  · rw [alignR, Reader.align_of_aligned h0]

/-! ### One bit and an align -/

/-- WR.UB 1 at a byte boundary leaves the bit pending and pushes nothing. -/
theorem wrUb_one_pending {s : State} {b : Bool} (he : s.w.err = 0) (h0 : s.w.cnt = 0) (hacc : s.w.acc = 0)
    (hdinV : s.dinV = true) (hdin : s.din = if b then 1 else 0) :
    exec (.wrUb 1) s = .next (writeDone s [] (if b then 1 else 0) 1 s.sink) := by
  have hcheck : firstFailure (checkWidth 1) (checkValue (fitsU s.din.toNat 1)) = none := by
    rw [hdin]
    cases b <;> rfl
  have hbit : writeBits 1 s.din.toNat s.wrStart =
      .done () (s.wrStart.flushing [] (if b then 1 else 0) 1 s.sink) := by
    rw [hdin, writeBits, writeBit_pending (by simp [h0]), Res.andThen_done, writeBits]
    cases b <;> simp [h0, hacc, WrCtx.flushing]
  rw [← afterWrite_flushing_done]
  change writerCycle true _ false _ s = _
  rw [hcheck]
  exact writerCycle_runs he (fun _ => hdinV) hbit s.w.total.isLt

/-- Settles O32: the bit stays pending in the first command, and the align pads it with seven zeros. -/
theorem oneBitThenAlignIsOneByte : Obligations.OneBitThenAlignIsOneByte := by
  unfold Obligations.OneBitThenAlignIsOneByte
  intro s b snk hw hdinV hdin hroom hpush
  have he : s.w.err = 0 := congrArg Writer.err hw
  have hone : (1 : BitVec 3) ≠ 0 := by decide
  refine ⟨_, _, wrUb_one_pending he (congrArg Writer.cnt hw) (congrArg Writer.acc hw) hdinV hdin, rfl, rfl,
    wrAlign_flushes he hone ?_ hpush ?_, rfl, ?_, rfl⟩
  · cases b <;> rfl
  · simpa [writeDone] using hroom
  · exact Sink.takes_taken (Sink.takes_singleton hpush)

/-! ### Fields that cross a byte boundary -/

theorem beValue_lt (bs : List Byte) : beValue bs < 256 ^ bs.length := by
  induction bs using List.reverseRecOn with
  | nil => exact Nat.one_pos
  | append_singleton bs b ih =>
    have hb := b.isLt
    rw [beValue_snoc, List.length_append, List.length_singleton, pow_succ]
    omega

/-- A field that starts with fewer unread bits than it has: the unread bits, then the leading bits of the bytes. -/
theorem fieldValue_eq_of_spans {w : Nat} {r : Reader} {bs : List Byte} (hw : r.cnt.toNat < w)
    (hlen : bs.length = bytesNeeded w r.cnt) :
    fieldValue w r bs = r.byte.toNat % 2 ^ r.cnt.toNat * 2 ^ (w - r.cnt.toNat) +
      beValue bs / 2 ^ (8 * bs.length - (w - r.cnt.toNat)) := by
  have hleft : bitsLeft w r.cnt = 8 * bs.length - (w - r.cnt.toNat) := by
    rw [bitsLeft, hlen]
    omega
  have hbits : w - r.cnt.toNat + (8 * bs.length - (w - r.cnt.toNat)) = 8 * bs.length := by
    rw [hlen, bytesNeeded]
    omega
  have hpow : 256 ^ bs.length = 2 ^ (w - r.cnt.toNat) * 2 ^ (8 * bs.length - (w - r.cnt.toNat)) := by
    rw [← pow_add, hbits, pow_mul]
    rfl
  rw [fieldValue, ← hlen, hleft, hpow, ← mul_assoc, Nat.add_comm, Nat.add_mul_div_right _ _ (Nat.two_pow_pos _),
    Nat.add_comm]

/-- A field has no more than its `w` bits. -/
theorem fieldValue_lt {w : Nat} {r : Reader} {bs : List Byte} (hlen : bs.length = bytesNeeded w r.cnt) :
    fieldValue w r bs < 2 ^ w := by
  have hbe : beValue bs < 256 ^ bytesNeeded w r.cnt := hlen ▸ beValue_lt bs
  have hbyte : r.byte.toNat % 2 ^ r.cnt.toNat + 1 ≤ 2 ^ r.cnt.toNat := Nat.mod_lt _ (Nat.two_pow_pos _)
  have hbits : w + bitsLeft w r.cnt = r.cnt.toNat + 8 * bytesNeeded w r.cnt := by
    rw [bitsLeft, bytesNeeded]
    omega
  rw [fieldValue, Nat.div_lt_iff_lt_mul (Nat.two_pow_pos _), ← pow_add, hbits, pow_add, pow_mul]
  calc r.byte.toNat % 2 ^ r.cnt.toNat * 256 ^ bytesNeeded w r.cnt + beValue bs
      < (r.byte.toNat % 2 ^ r.cnt.toNat + 1) * 256 ^ bytesNeeded w r.cnt := by rw [Nat.succ_mul]; omega
    _ ≤ 2 ^ r.cnt.toNat * 256 ^ bytesNeeded w r.cnt := Nat.mul_le_mul_right _ hbyte

/-- A width read whose bytes the source delivers (43_packed_numeric.md R141, R144, R147). -/
theorem readField_done {w : Nat} {format : Nat → Word} {s : State} {bs : List Byte} {src : Source} (hw : w ≤ 32)
    (he : s.r.err = 0) (htakes : s.source.takeBytes (bytesNeeded w s.r.cnt) = some (bs, src))
    (hroom : s.r.total.toNat + bs.length < 2 ^ 64) :
    readField w format s = .next (readDone s bs (bitsLeft w s.r.cnt) src (format (fieldValue w s.r bs))) := by
  have hread : readBits w s.rdStart = _ := readBits_done htakes
  rw [← afterRead_pulling_done, readField, checkWidth, if_pos hw]
  exact readerCycle_runs he (by rw [if_neg Bool.false_ne_true, hread]; rfl) (by simpa using hroom)

/-- Settles O40: DOUT is the field, which fits in its 64 bits. -/
theorem fieldSpansBytes : Obligations.FieldSpansBytes := by
  unfold Obligations.FieldSpansBytes
  intro w s bs src hw hspans he htakes hroom
  have hlen : bs.length = bytesNeeded w s.r.cnt := Source.takeBytes_length htakes
  refine ⟨_, readField_done hw he htakes hroom, ?_⟩
  have hfits : fieldValue w s.r bs < 2 ^ 64 :=
    (fieldValue_lt hlen).trans_le (Nat.pow_le_pow_right (by decide) (hw.trans (by decide)))
  rw [← fieldValue_eq_of_spans hspans hlen]
  exact Nat.mod_eq_of_lt hfits

end Sys2Proof.Machine
end

section
/-! The packed-field reads (43_packed_numeric.md R141, R144, R147): the width check, the field from the current bit
position for any value format, and the 16.16 values, which binary64 holds exactly. -/

namespace Sys2Proof.Machine
open Sys2Proof.Claims

/-- A command that an operand check ends did nothing (40_command_cycle.md R81). -/
theorem finish_of_check (s : State) {v : Verdict} (hv : v.isCheck) : s.finish v 0 = rejected s 4 v.info := by
  have hok : v ≠ .ok := by
    rintro rfl
    exact absurd (Verdict.isCheck_code hv) (by decide)
  rw [State.finish_of_fail s 0 hok, statusWord, Verdict.isCheck_code hv]
  rfl

theorem checkWidth_of_le {w : Nat} (hw : w ≤ 32) : checkWidth w = none := if_pos hw

theorem checkWidth_of_lt {w : Nat} (hw : 32 < w) : checkWidth w = some .badWidth := if_neg hw.not_ge

/-- A width read whose source stops before it delivered the bytes the field needs. -/
theorem readField_stop {w : Nat} {format : Nat → Word} {s : State} {bs : List Byte} {a : SrcAnswer} {src : Source}
    (hw : w ≤ 32) (he : s.r.err = 0) (hlt : bs.length < bytesNeeded w s.r.cnt) (hstop : StopsAfter s bs a src)
    (hroom : s.r.total.toNat + bs.length < 2 ^ 64) :
    readField w format s = .next (readStopped s bs src (stopVerdict a bs.length)) := by
  obtain ⟨t, hbs, hpull, hnone⟩ := hstop
  have hread : readBits w s.rdStart = _ := readBits_stop hlt hbs hpull hnone
  rw [State.rdStart_delta, Nat.zero_add] at hread
  rw [← afterRead_pulling_raised s bs src (stopVerdict_latches hnone), readField, checkWidth_of_le hw]
  exact readerCycle_runs he (by rw [if_neg Bool.false_ne_true, hread]; rfl) (by simpa using hroom)

/-- A width read obeys its rule; its format is looked at on values of `w` bits only. -/
theorem readField_fieldReadRule {mk : Nat → Instr} {opc : Nat} {format format' : Nat → Nat → Word}
    (hword : ∀ w, encode (mk w) = BitVec.ofNat 64 (w * 256 + opc))
    (hexec : ∀ w s, exec (mk w) s = readField w (format w) s) (hformat : ∀ w v, v < 2 ^ w → format w v = format' w v) :
    FieldReadRule mk opc format' := by
  refine fun w => ⟨fun _ => hword w, fun s he => ⟨fun hw => ?_, fun hw => ⟨fun bs src hbs hroom => ?_,
    fun bs a src hlt hstop hroom => ?_⟩⟩⟩
  · rw [hexec, readField, checkWidth_of_lt hw, readerCycle_rejected he]
    exact congrArg _ (finish_of_check s (.inl rfl))
  · rw [hexec, readField_done hw he hbs hroom, hformat w _ (fieldValue_lt (Source.takeBytes_length hbs))]
  · rw [hexec, readField_stop hw he hlt hstop hroom]

/-- A signed field of up to 32 bits is in the range that `bits64` holds exactly. -/
theorem natAbs_toInt_le {w : Nat} (hw : w ≤ 32) (x : BitVec w) : x.toInt.natAbs ≤ 2 ^ 31 := by
  have hlo : -2 ^ w ≤ 2 * x.toInt := BitVec.le_two_mul_toInt
  have hhi : 2 * x.toInt < 2 ^ w := BitVec.two_mul_toInt_lt
  have hpow : (2 : ℤ) ^ w ≤ 2 ^ 32 := pow_le_pow_right₀ (by decide) hw
  omega

theorem bits64_zero (k : Nat) : bits64 0 k = 0 := rfl

/-- Settles O39: the three reads are reads of one field, whose `sext_N` is the two's-complement value of the pattern. -/
theorem fieldReads : Obligations.FieldReads := by
  unfold Obligations.FieldReads
  refine ⟨readField_fieldReadRule (fun _ => rfl) (fun _ _ => rfl) fun _ _ _ => rfl,
    readField_fieldReadRule (fun _ => rfl) (fun _ _ => rfl) fun _ _ hv => congrArg sextWord (sext_eq_toInt hv),
    readField_fieldReadRule (fun _ => rfl) (fun _ _ => rfl) fun _ _ hv => congrArg (bits64 · 16) (sext_eq_toInt hv),
    fun w v hw => ?_⟩
  obtain ⟨hfinite, hvalue⟩ := bits64_exact (k := 16) (natAbs_toInt_le hw (BitVec.ofNat w v)) le_rfl
  refine ⟨hfinite, by rw [hvalue]; norm_num, fun h0 => by rw [h0, bits64_zero]⟩

end Sys2Proof.Machine
end

section
/-! The packed-field writes and sizes (43_packed_numeric.md R142 to R151): one operand check a type, at any width, which
the write asks at W and the size command at 32; what the write sends; the size as the least width the check accepts. -/

namespace Sys2Proof.Machine
open Sys2Proof.Claims

/-! ### Operand checks and the INFO they give -/

/-- An operand check that ends a command with the INFOs `rejects` names, and with no other. -/
structure Decides (check : Option Verdict) (rejects : Nat → Prop) : Prop where
  isCheck : ∀ v, check = some v → v.isCheck
  info_iff : ∀ info, rejects info ↔ check.map Verdict.info = some info

theorem Decides.some_of_rejects {check : Option Verdict} {rejects : Nat → Prop} (h : Decides check rejects) {info : Nat}
    (hr : rejects info) : ∃ v, check = some v ∧ v.isCheck ∧ v.info = info := by
  obtain ⟨v, hv, hinfo⟩ := Option.map_eq_some_iff.1 ((h.info_iff info).1 hr)
  exact ⟨v, hv, h.isCheck v hv, hinfo⟩

theorem Decides.none_of_accepts {check : Option Verdict} {rejects : Nat → Prop} (h : Decides check rejects)
    (hr : ∀ info, ¬ rejects info) : check = none := by
  cases check with
  | none => rfl
  | some v => exact absurd ((h.info_iff v.info).2 rfl) (hr _)

theorem checkValue_decides {fits : Bool} {p : Prop} (h : fits = false ↔ p) :
    Decides (checkValue fits) (fun info => p ∧ info = 2) := by
  refine ⟨fun _ => checkValue_isCheck, fun info => ?_⟩
  rw [← h]
  cases fits <;> simp [checkValue, Verdict.info, eq_comm]

theorem checkFinite_of_finite {x : Word} (h : f64Finite x = true) : checkFinite x = none := if_pos h

theorem checkFinite_of_not_finite {x : Word} (h : f64Finite x = false) : checkFinite x = some .nonFinite :=
  if_neg (by simp [h])

theorem fitsU_eq_false_iff (v n : Nat) : fitsU v n = false ↔ 2 ^ n ≤ v := by
  rw [fitsU, decide_eq_false_iff_not, not_lt]

/-- `fitsS` is FitsS of 00_scope.md R14. -/
theorem fitsS_iff (v : ℤ) (n : Nat) : fitsS v n = true ↔ FitsSigned v n := by
  cases n with
  | zero => simp [fitsS, FitsSigned]
  | succ n => simp [fitsS, FitsSigned]

theorem fitsS_eq_false_iff (v : ℤ) (n : Nat) : fitsS v n = false ↔ ¬ FitsSigned v n := by
  rw [← fitsS_iff, Bool.not_eq_true]

/-- The check of fixed-point values: finiteness first, then the range of the truncated value. -/
theorem fixedCheck_decides (k n : Nat) (x : Word) :
    Decides (firstFailure (checkFinite x) (checkValue (fitsS (fxRaw x k) n))) (fixedRejects k n x) := by
  refine ⟨fun _ => firstFailure_isCheck (fun _ => checkFinite_isCheck) (fun _ => checkValue_isCheck), fun info => ?_⟩
  rw [fixedRejects]
  cases hfinite : f64Finite x with
  | false => simp [checkFinite_of_not_finite hfinite, Verdict.info, eq_comm]
  | true =>
    rw [checkFinite_of_finite hfinite, firstFailure_none, fxRaw_eq_trunc0,
      ← (checkValue_decides (fitsS_eq_false_iff _ n)).info_iff]
    simp

/-- The value check of UB at width `w` (R142, R143). -/
def ubCheck (w : Nat) (x : Word) : Option Verdict := checkValue (fitsU x.toNat w)

/-- The value check of SB at width `w` (R145, R146). -/
def sbCheck (w : Nat) (x : Word) : Option Verdict := checkValue (fitsS (s64 x) w)

/-- The value checks of FB at width `w` (R148, R149). -/
def fbCheck (w : Nat) (x : Word) : Option Verdict :=
  firstFailure (checkFinite x) (checkValue (fitsS (fxRaw x 16) w))

theorem ubCheck_decides (w : Nat) (x : Word) : Decides (ubCheck w x) (fun info => 2 ^ w ≤ x.toNat ∧ info = 2) :=
  checkValue_decides (fitsU_eq_false_iff _ w)

theorem sbCheck_decides (w : Nat) (x : Word) :
    Decides (sbCheck w x) (fun info => ¬ FitsSigned x.toInt w ∧ info = 2) :=
  checkValue_decides (fitsS_eq_false_iff _ w)

/-! ### The width writes -/

/-- A family of width writes: the value check and the bits that are written, by width and DIN. -/
structure IsFieldWrite (mk : Nat → Instr) (check : Nat → Word → Option Verdict) (bits : Nat → Word → Nat) : Prop where
  exec_eq : ∀ w s, exec (mk w) s =
    writerCycle true (firstFailure (checkWidth w) (check w s.din)) false (writeBits w (bits w s.din)) s
  isCheck : ∀ w x v, check w x = some v → v.isCheck
  fields : ∀ w, 2 ≤ (mk w).opc % 64 ∧ (mk w).takesWidth = true ∧ (mk w).wField = w

theorem wrUb_isFieldWrite : IsFieldWrite .wrUb ubCheck (fun _ x => x.toNat) :=
  ⟨fun _ _ => rfl, fun w x => (ubCheck_decides w x).isCheck, fun _ => ⟨by simp [Instr.opc], rfl, rfl⟩⟩

theorem wrSb_isFieldWrite : IsFieldWrite .wrSb sbCheck (fun w x => bitsK w (s64 x)) :=
  ⟨fun _ _ => rfl, fun w x => (sbCheck_decides w x).isCheck, fun _ => ⟨by simp [Instr.opc], rfl, rfl⟩⟩

theorem wrFb_isFieldWrite : IsFieldWrite .wrFb fbCheck (fun w x => bitsK w (fxRaw x 16)) :=
  ⟨fun _ _ => rfl, fun w x => (fixedCheck_decides 16 w x).isCheck, fun _ => ⟨by simp [Instr.opc], rfl, rfl⟩⟩

section
variable {mk : Nat → Instr} {check : Nat → Word → Option Verdict} {bits : Nat → Word → Nat}

theorem IsFieldWrite.isCycle (h : IsFieldWrite mk check bits) (w : Nat) :
    IsWriterCycle (mk w) (fun x => firstFailure (checkWidth w) (check w x)) false (fun x => writeBits w (bits w x)) :=
  writeBits_isCycle (h.exec_eq w) (h.isCheck w) (h.fields w)

theorem IsFieldWrite.exec_rejected (h : IsFieldWrite mk check bits) {w : Nat} {s : State} {v : Verdict}
    (hcheck : firstFailure (checkWidth w) (check w s.din) = some v) (he : s.w.err = 0) (hdin : s.dinV = true) :
    exec (mk w) s = .next (rejected s 4 v.info) := by
  rw [h.exec_eq, hcheck, writerCycle_rejected he fun _ => hdin, finish_of_check s ((h.isCycle w).rejects _ v hcheck)]

/-- A width write that passes its checks. -/
theorem IsFieldWrite.sendsField (h : IsFieldWrite mk check bits) {w : Nat} {s : State} (hw : w ≤ 32)
    (hcheck : check w s.din = none) (he : s.w.err = 0) (hdin : s.dinV = true) :
    SendsField (mk w) s w (bits w s.din) := by
  have hexec : exec (mk w) s = writerCycle true none false (writeBits w (bits w s.din)) s := by
    rw [h.exec_eq, checkWidth_of_le hw, hcheck, firstFailure_none]
  refine ⟨fun snk htakes hroom => ?_, fun as b cs t snk hsplit htakes hpush hroom => ?_⟩
  · rw [← afterWrite_flushing_done, hexec]
    exact writerCycle_runs he (fun _ => hdin) (writeBits_done (c := s.wrStart) htakes) (by simpa using hroom)
  · rw [← afterWrite_flushing_raised, hexec]
    exact writerCycle_runs he (fun _ => hdin) (writeBits_fail (c := s.wrStart) hsplit htakes hpush)
      (by simpa using hroom)

/-- A family of width writes obeys its rule, by what its check decides. -/
theorem IsFieldWrite.fieldWriteRule (h : IsFieldWrite mk check bits) {opc : Nat} {rejects : Nat → Word → Nat → Prop}
    (hword : ∀ w, encode (mk w) = BitVec.ofNat 64 (w * 256 + opc))
    (hdecides : ∀ w x, Decides (check w x) (rejects w x)) : FieldWriteRule mk opc rejects bits := by
  refine fun w => ⟨fun _ => hword w, fun s he => ⟨fun hdin => ?_, fun hdin => ⟨fun hw => ?_, fun hw =>
    ⟨fun info hr => ?_, fun hr => h.sendsField hw ((hdecides w s.din).none_of_accepts hr) he hdin⟩⟩⟩⟩
  · rw [h.exec_eq, writerCycle_dinUnwritten he hdin]
  · exact h.exec_rejected (v := .badWidth) (by rw [checkWidth_of_lt hw, firstFailure_some]) he hdin
  · obtain ⟨v, hv, -, rfl⟩ := (hdecides w s.din).some_of_rejects hr
    exact h.exec_rejected (by rw [checkWidth_of_le hw, firstFailure_none, hv]) he hdin

end

theorem bitsK_eq (n : Nat) (i : ℤ) : bitsK n i = (i % 2 ^ n).toNat := by
  rw [bitsK, Nat.cast_pow, Nat.cast_ofNat]

/-- Settles O41: the three writes are one cycle, each with the check that decides its rejections. -/
theorem fieldWrites : Obligations.FieldWrites := by
  unfold Obligations.FieldWrites
  refine ⟨wrUb_isFieldWrite.fieldWriteRule (fun _ => rfl) ubCheck_decides, ?_, ?_⟩
  · simp only [← bitsK_eq]
    exact wrSb_isFieldWrite.fieldWriteRule (fun _ => rfl) sbCheck_decides
  · simp only [← fxRaw_eq_trunc0, ← bitsK_eq]
    exact wrFb_isFieldWrite.fieldWriteRule (fun _ => rfl) (fixedCheck_decides 16)

/-! ### Sizes -/

theorem bitLen_le_iff (v n : Nat) : bitLen v ≤ n ↔ v < 2 ^ n := by
  rw [bitLen]
  split_ifs with h0
  · simp [h0]
  · exact Nat.log2_lt h0

theorem one_le_ubSize (v : Nat) : 1 ≤ ubSize v := le_max_left ..

/-- UBSize is the least width of at least 1 that holds the value (R140). -/
theorem ubSize_le_iff (v : Nat) {n : Nat} (hn : 1 ≤ n) : ubSize v ≤ n ↔ v < 2 ^ n := by
  rw [ubSize, max_le_iff, bitLen_le_iff]
  exact and_iff_right hn

theorem one_le_sbSize (i : ℤ) : 1 ≤ sbSize i := Nat.succ_pos _

/-- SBSize is the least width of at least 1 that holds the value as two's complement (R140). -/
theorem sbSize_le_iff (i : ℤ) {n : Nat} (hn : 1 ≤ n) : sbSize i ≤ n ↔ FitsSigned i n := by
  obtain ⟨m, rfl⟩ : ∃ m, n = m + 1 := ⟨n - 1, by omega⟩
  have hcast : ((2 ^ m : Nat) : ℤ) = 2 ^ m := by norm_num
  rw [sbSize, Nat.add_le_add_iff_right, bitLen_le_iff, FitsSigned, or_iff_right (by omega), and_iff_right hn,
    Nat.add_sub_cancel, ← hcast]
  split_ifs <;> omega

/-- VarintSize is the least number of 7-bit groups that hold the value (44_variable_width.md R170). -/
theorem varintSize_le_iff {v n : Nat} (hv : v < 2 ^ 32) (hn : 1 ≤ n) : varintSize v ≤ n ↔ v < 128 ^ n := by
  by_cases h5 : 5 ≤ n
  · have hpow : 128 ^ 5 ≤ 128 ^ n := Nat.pow_le_pow_right (by decide) h5
    exact iff_of_true ((varintSize_le v).2.trans h5) (by omega)
  · rw [varintSize]
    interval_cases n <;> split_ifs <;> omega

theorem isLeast_size {p : Nat → Prop} {n : Nat} (hpos : 1 ≤ n) (h : ∀ m, 1 ≤ m → (n ≤ m ↔ p m)) :
    IsLeast (fun m => 1 ≤ m ∧ p m) n :=
  ⟨⟨hpos, (h n hpos).1 le_rfl⟩, fun m hm => (h m hm.1).2 hm.2⟩

/-- A size command obeys its rule, by what its check decides. -/
theorem sizeCycle_sizeRule {i : Instr} {word : Word} {check : Word → Option Verdict} {size : Word → Nat}
    {rejects isSize : Word → Nat → Prop} (hword : encode i = word)
    (hexec : ∀ s, exec i s = sizeCycle (check s.din) (size s.din) s) (hdecides : ∀ x, Decides (check x) (rejects x))
    (hsize : ∀ x, (∀ info, ¬ rejects x info) → isSize x (size x)) : SizeRule i word rejects isSize := by
  refine ⟨hword, fun s => ⟨fun hdin => ?_, fun hdin => ⟨fun info hr => ?_, fun hr => ⟨_, hsize _ hr, ?_⟩⟩⟩⟩
  · rw [hexec, sizeCycle_dinUnwritten hdin]
  · obtain ⟨v, hv, hcheck, rfl⟩ := (hdecides s.din).some_of_rejects hr
    rw [hexec, hv, sizeCycle_rejected hdin, finish_of_check s hcheck]
  · rw [hexec, (hdecides s.din).none_of_accepts hr, sizeCycle_runs hdin]
    rfl

/-- Settles O42: each size function is at most `n` exactly where the value fits `n`, for every `n` of at least 1. -/
theorem sizeCommands : Obligations.SizeCommands := by
  unfold Obligations.SizeCommands
  refine ⟨sizeCycle_sizeRule rfl (fun _ => rfl) (ubCheck_decides 32) fun x _ =>
      isLeast_size (one_le_ubSize _) fun m => ubSize_le_iff x.toNat,
    sizeCycle_sizeRule rfl (fun _ => rfl) (sbCheck_decides 32) fun x _ =>
      isLeast_size (one_le_sbSize _) fun m => sbSize_le_iff (s64 x), ?_,
    sizeCycle_sizeRule rfl (fun _ => rfl) (ubCheck_decides 32) fun x hr =>
      isLeast_size (varintSize_le _).1 fun m => varintSize_le_iff (not_le.1 fun hx => hr 2 ⟨hx, rfl⟩)⟩
  simp only [← fxRaw_eq_trunc0]
  exact sizeCycle_sizeRule rfl (fun _ => rfl) (fixedCheck_decides 16 32) fun x _ =>
    isLeast_size (one_le_sbSize _) fun m => sbSize_le_iff (fxRaw x 16)

/-! ### The size is the least width the write accepts -/

/-- Where its check passes, a Writer command is not rejected: its body's codes are 0 to 3. -/
theorem IsWriterCycle.code_le {i : Instr} {check : Word → Option Verdict} {aligns : Bool}
    {body : Word → WrCtx → Res WrCtx Unit} (h : IsWriterCycle i check aligns body) {s t : State}
    (hcheck : check s.din = none) (he : s.w.err = 0) (ht : exec i s = .next t) : code t ≤ 3 := by
  obtain ⟨hne, -⟩ | ⟨-, v, -, hv, -⟩ | ⟨-, -, x, -, hm, -, rfl⟩ := h.next ht
  · exact absurd he hne
  · exact absurd (hcheck.symm.trans hv) nofun
  · exact State.afterWrite_code_le hm

/-- A size command and the write of its type: what the size command accepts with `size`, the write's check accepts
from the width `size` on. -/
structure IsFieldSize (sz : Instr) (check : Nat → Word → Option Verdict) (size : Word → Nat) : Prop where
  exec_eq : ∀ s, exec sz s = sizeCycle (check 32 s.din) (size s.din) s
  isCheck : ∀ x v, check 32 x = some v → v.isCheck
  one_le : ∀ x, 1 ≤ size x
  check_eq : ∀ x, check 32 x = none → ∀ w, 1 ≤ w → check w x = checkValue (decide (size x ≤ w))

theorem ubSize_isFieldSize : IsFieldSize .szUb ubCheck (fun x => ubSize x.toNat) where
  exec_eq := fun _ => rfl
  isCheck := fun x => (ubCheck_decides 32 x).isCheck
  one_le := fun x => one_le_ubSize _
  check_eq := fun x _ w hw => by simp only [ubSize_le_iff _ hw]; rfl

theorem fitsS_eq_decide (i : ℤ) {w : Nat} (hw : 1 ≤ w) : fitsS i w = decide (sbSize i ≤ w) := by
  rw [Bool.eq_iff_iff, fitsS_iff, decide_eq_true_iff, sbSize_le_iff i hw]

theorem sbSize_isFieldSize : IsFieldSize .szSb sbCheck (fun x => sbSize (s64 x)) where
  exec_eq := fun _ => rfl
  isCheck := fun x => (sbCheck_decides 32 x).isCheck
  one_le := fun x => one_le_sbSize _
  check_eq := fun x _ w hw => by rw [sbCheck, fitsS_eq_decide _ hw]

theorem fbSize_isFieldSize : IsFieldSize .szFb fbCheck (fun x => sbSize (fxRaw x 16)) where
  exec_eq := fun _ => rfl
  isCheck := fun x => (fixedCheck_decides 16 32 x).isCheck
  one_le := fun x => one_le_sbSize _
  check_eq := fun x hx w hw => by
    rw [fbCheck, (none_of_firstFailure hx).1, firstFailure_none, fitsS_eq_decide _ hw]

theorem IsFieldSize.next_ok {sz : Instr} {check : Nat → Word → Option Verdict} {size : Word → Nat}
    (h : IsFieldSize sz check size) {s t : State} (ht : exec sz s = .next t) (hcode : code t = 0) :
    s.dinV = true ∧ check 32 s.din = none ∧ size s.din ≤ 32 ∧ t.dout.toNat = size s.din := by
  rw [h.exec_eq] at ht
  obtain ⟨hdin, ⟨v, hv, rfl⟩ | ⟨hnone, rfl⟩⟩ := sizeCycle_next ht
  · rw [code_finish (Nat.zero_le 9), Verdict.isCheck_code (h.isCheck _ v hv)] at hcode
    exact absurd hcode (by decide)
  · have hle : size s.din ≤ 32 := by
      by_contra hlt
      have hcheck := h.check_eq s.din hnone 32 (by decide)
      rw [hnone, decide_eq_false hlt] at hcheck
      exact absurd hcheck nofun
    exact ⟨hdin, hnone, hle, Nat.mod_eq_of_lt (by omega)⟩

/-- The statement of O43 for one type. -/
theorem IsFieldSize.isMinimal {sz : Instr} {wr : Nat → Instr} {check : Nat → Word → Option Verdict} {size : Word → Nat}
    {bits : Nat → Word → Nat} (hsz : IsFieldSize sz check size) (hwr : IsFieldWrite wr check bits) {s t : State}
    (ht : exec sz s = .next t) (hcode : code t = 0) (he : s.w.err = 0) :
    1 ≤ t.dout.toNat ∧ t.dout.toNat ≤ 32 ∧
      ∀ w, 1 ≤ w → w ≤ 32 → (exec (wr w) s = .next (rejected s 4 2) ↔ w < t.dout.toNat) := by
  obtain ⟨hdin, hnone, hle, hdout⟩ := hsz.next_ok ht hcode
  rw [hdout]
  refine ⟨hsz.one_le _, hle, fun w h1 h32 => ?_⟩
  have hcheck : firstFailure (checkWidth w) (check w s.din) = checkValue (decide (size s.din ≤ w)) := by
    rw [checkWidth_of_le h32, firstFailure_none, hsz.check_eq _ hnone w h1]
  by_cases hfits : size s.din ≤ w
  · rw [decide_eq_true hfits] at hcheck
    refine iff_of_false (fun hr => ?_) (by omega)
    have hfour : code (rejected s 4 2) = 4 := code_of_status (v := .badValue) (Nat.zero_le 9) rfl
    exact absurd ((hwr.isCycle w).code_le hcheck he hr) (by rw [hfour]; decide)
  · rw [decide_eq_false hfits] at hcheck
    exact iff_of_true (hwr.exec_rejected hcheck he hdin) (by omega)

/-- Settles O43: the write asks at W the check that the size command asks at 32, and it passes from the size on. -/
theorem sizesAreMinimal : Obligations.SizesAreMinimal := by
  unfold Obligations.SizesAreMinimal
  simp only [List.forall_mem_cons, List.not_mem_nil, false_imp_iff, implies_true, and_true]
  exact ⟨fun _ _ => ubSize_isFieldSize.isMinimal wrUb_isFieldWrite,
    fun _ _ => sbSize_isFieldSize.isMinimal wrSb_isFieldWrite,
    fun _ _ => fbSize_isFieldSize.isMinimal wrFb_isFieldWrite⟩

end Sys2Proof.Machine
end

section
/-! A field written at any bit position and read back from the same position (43_packed_numeric.md R150). The Writer's
pending bits and the field are one number, which the flushed bytes hold; the Reader reads it as two fields in a row. -/

namespace Sys2Proof.Machine
open Sys2Proof.Claims

/-! ### Two fields in a row are one -/

theorem readBits_add (k w : Nat) (c : RdCtx) :
    readBits (k + w) c = (readBits k c).andThen fun x d => (readBits w d).map fun y => x * 2 ^ w + y := by
  induction w with
  | zero => rcases hx : readBits k c with ⟨x, d⟩ | ⟨v, d⟩ <;> simp [readBits]
  | succ w ih =>
    rw [← Nat.add_assoc, readBits, ih]
    rcases readBits k c with ⟨x, d⟩ | ⟨v, d⟩
    · rw [Res.andThen_done, Res.andThen_done, readBits]
      rcases readBits w d with ⟨y, e⟩ | ⟨v, e⟩
      · rw [Res.map_done, Res.andThen_done, Res.andThen_done]
        rcases readBit e with ⟨b, f⟩ | ⟨v, f⟩
        · rw [Res.map_done, Res.map_done, Res.map_done, pow_succ]
          congr 1
          ring
        · rfl
      · rfl
    · rfl

/-- `ReadBits(w)` that did not raise pulled the bytes it needs. -/
theorem readBits_eq_done {w v : Nat} {c d : RdCtx} (h : readBits w c = .done v d) :
    ∃ bs src, c.source.takeBytes (bytesNeeded w c.unit.cnt) = some (bs, src) ∧ v = fieldValue w c.unit bs ∧
      d = c.pulling bs (bitsLeft w c.unit.cnt) src := by
  obtain ⟨bs, src, htakes⟩ | ⟨j, hj, bs, t, a, src, htakes, hpull, hnone⟩ :=
    Source.takeBytes_or_stops (bytesNeeded w c.unit.cnt) c.source
  · rw [readBits_done htakes] at h
    cases h
    exact ⟨bs, src, htakes, rfl, rfl⟩
  · rw [readBits_stop hj htakes hpull hnone] at h
    cases h

/-- Where `ReadBits(k + w)` finds its bytes, `k` bits and then `w` bits are the high and the low part of its field. -/
theorem fieldValue_split {k w : Nat} {c : RdCtx} {bs : List Byte} {src : Source}
    (h : c.source.takeBytes (bytesNeeded (k + w) c.unit.cnt) = some (bs, src)) :
    ∃ as cs mid, c.source.takeBytes (bytesNeeded k c.unit.cnt) = some (as, mid) ∧
      mid.takeBytes (bytesNeeded w (BitVec.ofNat 3 (bitsLeft k c.unit.cnt))) = some (cs, src) ∧
      as.length + cs.length = bs.length ∧
      BitVec.ofNat 3 (bitsLeft w (BitVec.ofNat 3 (bitsLeft k c.unit.cnt))) =
        BitVec.ofNat 3 (bitsLeft (k + w) c.unit.cnt) ∧
      fieldValue k c.unit as = fieldValue (k + w) c.unit bs / 2 ^ w ∧
      fieldValue w (c.pulling as (bitsLeft k c.unit.cnt) mid).unit cs = fieldValue (k + w) c.unit bs % 2 ^ w := by
  have hread := readBits_done h
  rw [readBits_add] at hread
  rcases hx : readBits k c with ⟨x, d⟩ | ⟨v, d⟩
  · rcases hy : readBits w d with ⟨y, e⟩ | ⟨v, e⟩
    · rw [hx, Res.andThen_done, hy, Res.map_done] at hread
      obtain ⟨hvalue, hctx⟩ := Res.done.inj hread
      obtain ⟨as, mid, has, rfl, rfl⟩ := readBits_eq_done hx
      obtain ⟨cs, src', hcs, rfl, rfl⟩ := readBits_eq_done hy
      rw [RdCtx.pulling_pulling] at hctx
      obtain rfl : src' = src := congrArg RdCtx.source hctx
      have hdelta : c.delta + (as ++ cs).length = c.delta + bs.length := congrArg RdCtx.delta hctx
      have hlow := fieldValue_lt (Source.takeBytes_length hcs)
      rw [List.length_append] at hdelta
      refine ⟨as, cs, mid, has, hcs, by omega, congrArg (·.unit.cnt) hctx, ?_, ?_⟩
      · rw [← hvalue, Nat.add_comm, Nat.add_mul_div_right _ _ (Nat.two_pow_pos w), Nat.div_eq_of_lt hlow, Nat.zero_add]
      · rw [← hvalue, Nat.mul_add_mod', Nat.mod_eq_of_lt hlow]
    · rw [hx, Res.andThen_done, hy] at hread
      cases hread
  · rw [hx] at hread
    cases hread

theorem code_readDone {s : State} {bs : List Byte} {left : Nat} {src : Source} {x : Word} (h : bs.length ≤ 9) :
    code (readDone s bs left src x) = 0 :=
  code_of_status (v := .ok) h (ofNat_delta_eq_statusWord _)

theorem length_le_of_takeBytes {w : Nat} {cnt : BitVec 3} {s t : Source} {bs : List Byte} (hw : w ≤ 32)
    (h : s.takeBytes (bytesNeeded w cnt) = some (bs, t)) : bs.length ≤ 9 := by
  rw [Source.takeBytes_length h, bytesNeeded]
  omega

/-- RD.UB k and then a read of `w` bits, where the source holds the bytes of both. -/
theorem readField_readField {k w : Nat} {a : State} {bs : List Byte} {src : Source} (hk : k ≤ 32) (hw : w ≤ 32)
    (he : a.r.err = 0) (htakes : a.source.takeBytes (bytesNeeded (k + w) a.r.cnt) = some (bs, src))
    (hroom : a.r.total.toNat + bs.length < 2 ^ 64) :
    ∃ b, exec (.rdUb k) a = .next b ∧ code b = 0 ∧ b.dout.toNat = fieldValue (k + w) a.r bs / 2 ^ w ∧
      ∀ format, ∃ d, readField w format b = .next d ∧ code d = 0 ∧
        d.dout = format (fieldValue (k + w) a.r bs % 2 ^ w) ∧ d.source = src ∧
        d.r.cnt.toNat = bitsLeft (k + w) a.r.cnt := by
  obtain ⟨as, cs, mid, has, hcs, hlen, hleft, hhigh, hlow⟩ := fieldValue_split (c := a.rdStart) htakes
  refine ⟨_, readField_done hk he has (by omega), code_readDone (length_le_of_takeBytes hk has), ?_, fun format =>
    ⟨_, readField_done hw (s := readDone ..) he hcs ?_, code_readDone (length_le_of_takeBytes hw hcs),
      congrArg format hlow, rfl, ?_⟩⟩
  · have hlt := fieldValue_lt (r := a.r) (Source.takeBytes_length has)
    have hpow : 2 ^ k ≤ 2 ^ 64 := Nat.pow_le_pow_right (by decide) (by omega)
    exact (Nat.mod_eq_of_lt (hlt.trans_le hpow)).trans hhigh
  · have htotal := toNat_add_ofNat_of_lt (x := a.r.total) (n := as.length) (by omega)
    exact (congrArg (· + cs.length) htotal).trans_lt (by omega)
  · exact (congrArg BitVec.toNat hleft).trans (Nat.mod_eq_of_lt (bitsLeft_lt _ _))

/-! ### The bytes a field and an align flush -/

theorem beValue_cons (b : Byte) (bs : List Byte) : beValue (b :: bs) = b.toNat * 256 ^ bs.length + beValue bs := by
  induction bs using List.reverseRecOn with
  | nil => simp [beValue]
  | append_singleton bs c ih =>
    rw [← List.cons_append, beValue_snoc, beValue_snoc, ih, List.length_append, List.length_singleton, pow_succ]
    ring

theorem beValue_beBytes (k v : Nat) : beValue (beBytes k v) = v % 256 ^ k := by
  induction k with
  | zero => simp [beBytes, Nat.mod_one]
  | succ k ih =>
    rw [beBytes, beValue_cons, ih, beBytes_length, BitVec.toNat_ofNat, Nat.mod_pow_succ (b := 256)]
    ring

theorem pendingThen_lt {u : Writer} (w v : Nat) (h : u.acc.toNat < 2 ^ u.cnt.toNat) :
    pendingThen w v u < 2 ^ (u.cnt.toNat + w) := by
  have hv : v % 2 ^ w < 2 ^ w := Nat.mod_lt _ (Nat.two_pow_pos w)
  have hacc : (u.acc.toNat + 1) * 2 ^ w ≤ 2 ^ u.cnt.toNat * 2 ^ w := Nat.mul_le_mul_right _ h
  rw [pendingThen, pow_add]
  rw [Nat.succ_mul] at hacc
  omega

theorem pendingThen_div (w v : Nat) (u : Writer) : pendingThen w v u / 2 ^ w = u.acc.toNat := by
  rw [pendingThen, Nat.add_comm, Nat.add_mul_div_right _ _ (Nat.two_pow_pos w),
    Nat.div_eq_of_lt (Nat.mod_lt _ (Nat.two_pow_pos w)), Nat.zero_add]

theorem pendingThen_mod (w v : Nat) (u : Writer) : pendingThen w v u % 2 ^ w = v % 2 ^ w := by
  rw [pendingThen, Nat.mul_add_mod', Nat.mod_mod]

/-- W.ACC after a field is the low bits of the pending bits and the field. -/
theorem accAfter_toNat {u : Writer} (w v : Nat) (h : u.acc.toNat < 2 ^ u.cnt.toNat) :
    (accAfter w v u).toNat = pendingThen w v u % 2 ^ ((u.cnt.toNat + w) % 8) := by
  have hpow : 2 ^ ((u.cnt.toNat + w) % 8) ≤ 2 ^ 8 := Nat.pow_le_pow_right (by decide) (by omega)
  have hlow : (if u.cnt.toNat + w < 8 then pendingThen w v u else pendingThen w v u % 2 ^ ((u.cnt.toNat + w) % 8)) =
      pendingThen w v u % 2 ^ ((u.cnt.toNat + w) % 8) := by
    split_ifs with h8
    · rw [Nat.mod_eq_of_lt h8, Nat.mod_eq_of_lt (pendingThen_lt w v h)]
    · rfl
  rw [accAfter, hlow, BitVec.toNat_ofNat]
  exact Nat.mod_eq_of_lt ((Nat.mod_lt _ (Nat.two_pow_pos _)).trans_le hpow)

theorem beValue_flushedBy {u : Writer} (w v : Nat) (h : u.acc.toNat < 2 ^ u.cnt.toNat) :
    beValue (flushedBy w v u) = pendingThen w v u / 2 ^ ((u.cnt.toNat + w) % 8) := by
  have hlt : pendingThen w v u < 256 ^ ((u.cnt.toNat + w) / 8) * 2 ^ ((u.cnt.toNat + w) % 8) := by
    rw [show 256 = 2 ^ 8 by rfl, ← pow_mul, ← pow_add, Nat.div_add_mod]
    exact pendingThen_lt w v h
  rw [flushedBy, beValue_beBytes]
  exact Nat.mod_eq_of_lt ((Nat.div_lt_iff_lt_mul (Nat.two_pow_pos _)).2 hlt)

theorem bitsLeft_aligned (n : Nat) : bitsLeft n 0 = (8 - n % 8) % 8 := by
  have h0 : (0 : BitVec 3).toNat = 0 := rfl
  rw [bitsLeft, bytesNeeded, h0]
  omega

/-- The bytes of a field and of the align after it: the pending bits and the field, then zeros to the byte boundary. -/
theorem beValue_written {u u' : Writer} (w v : Nat) (h : u.acc.toNat < 2 ^ u.cnt.toNat)
    (hacc : u'.acc = accAfter w v u) (hcnt : u'.cnt.toNat = (u.cnt.toNat + w) % 8) :
    beValue (flushedBy w v u ++ padding u') = pendingThen w v u * 2 ^ bitsLeft (u.cnt.toNat + w) 0 := by
  have hbytes := beValue_flushedBy w v h
  have hpend := accAfter_toNat w v h
  rw [bitsLeft_aligned]
  rw [← hcnt] at hbytes hpend ⊢
  generalize pendingThen w v u = p at hbytes hpend ⊢
  by_cases h0 : u'.cnt = 0
  · have hz : u'.cnt.toNat = 0 := by rw [h0]; rfl
    rw [padding_of_aligned h0, List.append_nil, hbytes, hz]
    simp
  · have hne : u'.cnt.toNat ≠ 0 := fun hz => h0 (BitVec.eq_of_toNat_eq hz)
    have hlt := u'.cnt.isLt
    have hpow : 2 ^ u'.cnt.toNat * 2 ^ (8 - u'.cnt.toNat) = 256 := by
      rw [← pow_add, Nat.add_sub_cancel' (by omega)]
      rfl
    have hpad : p % 2 ^ u'.cnt.toNat * 2 ^ (8 - u'.cnt.toNat) < 256 := by
      rw [← hpow]
      exact Nat.mul_lt_mul_of_pos_right (Nat.mod_lt _ (Nat.two_pow_pos _)) (Nat.two_pow_pos _)
    rw [padding, if_neg h0, beValue_snoc, hbytes, BitVec.toNat_ofNat, hacc, hpend, Nat.mod_eq_of_lt hpad,
      Nat.mod_eq_of_lt (a := 8 - u'.cnt.toNat) (by omega), ← hpow]
    calc _ = (2 ^ u'.cnt.toNat * (p / 2 ^ u'.cnt.toNat) + p % 2 ^ u'.cnt.toNat) * 2 ^ (8 - u'.cnt.toNat) := by ring
      _ = _ := by rw [Nat.div_add_mod]

/-- A Reader at a byte boundary that is given these bytes finds the pending bits and the field. -/
theorem fieldValue_written {n p : Nat} {r : Reader} {bs : List Byte} (h0 : r.cnt = 0)
    (hbs : beValue bs = p * 2 ^ bitsLeft n 0) : fieldValue n r bs = p := by
  rw [fieldValue, h0, hbs]
  simp [Nat.mod_one]

/-! ### What the commands put on the sink -/

section
variable {mk : Nat → Instr} {check : Nat → Word → Option Verdict} {bits : Nat → Word → Nat}

/-- A width write that ended OK passed its check and appended its field. -/
theorem IsFieldWrite.sent (h : IsFieldWrite mk check bits) {w : Nat} {s t : State} (ht : exec (mk w) s = .next t)
    (hcode : code t = 0) :
    check w s.din = none ∧ t.sink.taken = s.sink.taken ++ flushedBy w (bits w s.din) s.w ∧
      t.w.acc = accAfter w (bits w s.din) s.w ∧ t.w.cnt.toNat = (s.w.cnt.toNat + w) % 8 := by
  obtain ⟨-, rfl⟩ | ⟨-, v, hv, -, rfl⟩ | ⟨-, hcheck, x, hx, hm, -, rfl⟩ := (h.isCycle w).next ht
  · exact absurd hcode (by rw [code_finish (Nat.zero_le 9)]; decide)
  · exact absurd hcode (by rw [code_finish (Nat.zero_le 9), Verdict.isCheck_code hv]; decide)
  · obtain ⟨c, rfl⟩ := (State.afterWrite_code_eq_zero hm).1 hcode
    obtain ⟨hcnt, hacc⟩ := writeBits_left hx.symm
    refine ⟨(none_of_firstFailure hcheck).2, ?_, hacc, hcnt⟩
    obtain ⟨snk, htakes⟩ | ⟨as, b, cs, u, snk, hsplit, htakes, hpush⟩ :=
      Sink.takes_or_refuses (flushedBy w (bits w s.din) s.w) s.sink
    · have hdone : writeBits w (bits w s.din) s.wrStart = _ := writeBits_done htakes
      rw [State.afterWrite_sink, hx]
      exact (congrArg (·.ctx.sink.taken) hdone).trans (Sink.takes_taken htakes)
    · have hfail : writeBits w (bits w s.din) s.wrStart = _ := writeBits_fail hsplit htakes hpush
      exact absurd (hx.trans hfail) nofun

end

/-- WR.ALIGN that ended OK put the padded byte on the sink, where bits were pending. -/
theorem wrAlign_sent {s t : State} (ht : exec .wrAlign s = .next t) (hcode : code t = 0) :
    t.sink.taken = s.sink.taken ++ padding s.w := by
  obtain ⟨-, hm, rfl⟩ := wrAlign_isCycle.ran ht (by omega)
  obtain ⟨c, hx⟩ := (State.afterWrite_code_eq_zero hm).1 hcode
  obtain ⟨snk, htakes⟩ | ⟨as, b, cs, u, snk, hsplit, htakes, hpush⟩ := Sink.takes_or_refuses (padding s.w) s.sink
  · have hdone : alignW s.wrStart = _ := alignW_done htakes
    rw [State.afterWrite_sink]
    exact (congrArg (·.ctx.sink.taken) hdone).trans (Sink.takes_taken htakes)
  · have hfail : alignW s.wrStart = _ := alignW_fail hsplit htakes hpush
    exact absurd (hx.symm.trans hfail) nofun

/-! ### What the reads make of the bits the writes put -/

theorem bitsK_lt (n : Nat) (i : ℤ) : bitsK n i < 2 ^ n := by
  have hpos : (0 : ℤ) < (2 ^ n : Nat) := by positivity
  rw [bitsK, Int.toNat_lt (Int.emod_nonneg _ hpos.ne')]
  exact Int.emod_lt_of_pos _ hpos

/-- A value that fits `n` bits is the `sext_N` of its `bits_N` (00_scope.md R14). -/
theorem sext_bitsK {n : Nat} {i : ℤ} (h : FitsSigned i n) : sext n (bitsK n i) = i := by
  obtain ⟨rfl, rfl⟩ | ⟨hn, hlo, hhi⟩ := h
  · rfl
  obtain ⟨m, rfl⟩ : ∃ m, n = m + 1 := ⟨n - 1, by omega⟩
  rw [Nat.add_sub_cancel] at hlo hhi
  have hcast : ((2 ^ m : Nat) : ℤ) = 2 ^ m := by norm_num
  have hpow : 2 ^ (m + 1) = 2 * 2 ^ m := by ring
  rw [← hcast] at hlo hhi
  rw [sext, bitsK, Nat.add_sub_cancel, hpow]
  generalize 2 ^ m = p at *
  by_cases hneg : i < 0
  · have hmod : i % (2 * p : Nat) = i + 2 * p := by
      rw [← Int.add_emod_right, Int.emod_eq_of_lt] <;> push_cast <;> omega
    rw [hmod, if_pos ⟨m.succ_pos, by omega⟩]
    omega
  · rw [Int.emod_eq_of_lt (by omega) (by push_cast; omega), if_neg (by omega)]
    omega

/-- A value that fits `w ≤ 32` bits is in the range that `bits64` holds exactly. -/
theorem natAbs_le_of_fitsSigned {w : Nat} {i : ℤ} (hw : w ≤ 32) (h : FitsSigned i w) : i.natAbs ≤ 2 ^ 31 := by
  rw [← sext_bitsK h, sext_eq_toInt (bitsK_lt w i)]
  exact natAbs_toInt_le hw _

theorem fitsU_of_ubCheck {w : Nat} {x : Word} (h : ubCheck w x = none) : x.toNat < 2 ^ w := by
  by_contra hx
  have hr := ((ubCheck_decides w x).info_iff 2).1 ⟨not_lt.1 hx, rfl⟩
  rw [h] at hr
  cases hr

theorem fitsS_of_checkValue {w : Nat} {i : ℤ} (h : checkValue (fitsS i w) = none) : FitsSigned i w := by
  by_contra hi
  rw [(fitsS_eq_false_iff i w).2 hi] at h
  cases h

/-- WR.UB then RD.UB (R150). -/
theorem zextWord_written {w : Nat} {x : Word} (h : ubCheck w x = none) : zextWord (x.toNat % 2 ^ w) = x := by
  rw [Nat.mod_eq_of_lt (fitsU_of_ubCheck h), zextWord, BitVec.ofNat_toNat, BitVec.setWidth_eq]

/-- WR.SB then RD.SB (R150). -/
theorem sextWord_written {w : Nat} {x : Word} (h : sbCheck w x = none) :
    sextWord (sext w (bitsK w (s64 x) % 2 ^ w)) = x := by
  rw [Nat.mod_eq_of_lt (bitsK_lt w _), sext_bitsK (fitsS_of_checkValue h), sextWord, s64, BitVec.ofInt_toInt]

theorem trunc0_intCast (z : ℤ) : trunc0 z = z := by
  rw [trunc0, Int.floor_intCast, Int.ceil_intCast, ite_self]

/-- WR.FB then RD.FB: FBRaw over 2^16, the value itself exactly where it is a multiple of 2^-16 (R150). -/
theorem bits64_written {w : Nat} {x : Word} (hw : w ≤ 32) (h : fbCheck w x = none) :
    sext w (bitsK w (fxRaw x 16) % 2 ^ w) = trunc0 (f64Value x * 2 ^ 16) ∧
      f64Value (bits64 (trunc0 (f64Value x * 2 ^ 16)) 16) = trunc0 (f64Value x * 2 ^ 16) / 65536 ∧
      (f64Value (bits64 (trunc0 (f64Value x * 2 ^ 16)) 16) = f64Value x ↔ ∃ z : ℤ, f64Value x * 2 ^ 16 = z) := by
  have hfits : FitsSigned (fxRaw x 16) w := fitsS_of_checkValue (none_of_firstFailure h).2
  rw [Nat.mod_eq_of_lt (bitsK_lt w _), sext_bitsK hfits, fxRaw_eq_trunc0]
  rw [fxRaw_eq_trunc0] at hfits
  obtain ⟨-, hvalue⟩ := bits64_exact (k := 16) (natAbs_le_of_fitsSigned hw hfits) le_rfl
  refine ⟨rfl, by rw [hvalue]; norm_num, ?_⟩
  rw [hvalue, div_eq_iff (by norm_num)]
  refine ⟨fun hx => ⟨_, hx.symm⟩, ?_⟩
  rintro ⟨z, hz⟩
  rw [hz, trunc0_intCast]

/-! ### The round trip -/

section
variable {mk : Nat → Instr} {check : Nat → Word → Option Verdict} {bits : Nat → Word → Nat}

/-- A width write that ended OK, and an align after it: the position moved by `w` bits, and a Reader at a byte boundary
finds the pending bits and the field in the bytes flushed. -/
theorem IsFieldWrite.found (h : IsFieldWrite mk check bits) {w : Nat} {s t u : State} {r : Reader} (hfits : AccFits s)
    (h0 : r.cnt = 0) (ht : exec (mk w) s = .next t) (hcode : code t = 0) (hu : exec .wrAlign t = .next u)
    (hucode : code u = 0) :
    check w s.din = none ∧ t.w.cnt.toNat = (s.w.cnt.toNat + w) % 8 ∧
      fieldValue (s.w.cnt.toNat + w) r (u.sink.taken.drop s.sink.taken.length) =
        pendingThen w (bits w s.din) s.w := by
  obtain ⟨hcheck, htaken, hacc, hcnt⟩ := h.sent ht hcode
  refine ⟨hcheck, hcnt, ?_⟩
  rw [wrAlign_sent hu hucode, htaken, List.append_assoc, List.drop_left]
  exact fieldValue_written h0 (beValue_written w _ hfits hacc hcnt)

end

/-- Settles O44: the Reader's two fields are the high and the low part of the number the Writer appended to, and each
read undoes the format of its write. -/
theorem fieldRoundTrip : Obligations.FieldRoundTrip := by
  unfold Obligations.FieldRoundTrip
  intro w s t u a src hfits hw haerr h0 hroom hwr hcode hu hucode htakes
  have hk : s.w.cnt.toNat < 8 := s.w.cnt.isLt
  have hneeded : (s.w.cnt.toNat + w + 7) / 8 = bytesNeeded (s.w.cnt.toNat + w) a.r.cnt := by rw [h0]; rfl
  have hleft : bitsLeft (s.w.cnt.toNat + w) a.r.cnt = (8 - (s.w.cnt.toNat + w) % 8) % 8 := by
    rw [h0, bitsLeft_aligned]
  rw [hneeded] at htakes
  have hlen := Source.takeBytes_length htakes
  obtain ⟨b, hb, hbcode, hbdout, hread⟩ := readField_readField (by omega) hw haerr htakes (by omega)
  have found {mk : Nat → Instr} {check : Nat → Word → Option Verdict} {bits : Nat → Word → Nat}
      (hmk : IsFieldWrite mk check bits) (ht : exec (mk w) s = .next t) :=
    hmk.found hfits h0 ht hcode hu hucode
  obtain ⟨v, hcnt, hv⟩ : ∃ v, t.w.cnt.toNat = (s.w.cnt.toNat + w) % 8 ∧
      fieldValue (s.w.cnt.toNat + w) a.r (u.sink.taken.drop s.sink.taken.length) = pendingThen w v s.w := by
    obtain h | h | h := hwr
    · exact ⟨_, (found wrUb_isFieldWrite h).2⟩
    · exact ⟨_, (found wrSb_isFieldWrite h).2⟩
    · exact ⟨_, (found wrFb_isFieldWrite h).2⟩
  rw [hleft] at hread
  refine ⟨hcnt, b, hb, hbcode, by rw [hbdout, hv, pendingThen_div], fun h => ?_, fun h => ?_, fun h => ?_⟩
  · obtain ⟨hcheck, -, hfield⟩ := found wrUb_isFieldWrite h
    obtain ⟨d, hd, hdcode, hdout, hend⟩ := hread zextWord
    rw [hfield, pendingThen_mod, zextWord_written hcheck] at hdout
    exact ⟨d, hd, hdcode, hdout, hend⟩
  · obtain ⟨hcheck, -, hfield⟩ := found wrSb_isFieldWrite h
    obtain ⟨d, hd, hdcode, hdout, hend⟩ := hread fun v => sextWord (sext w v)
    rw [hfield, pendingThen_mod, sextWord_written hcheck] at hdout
    exact ⟨d, hd, hdcode, hdout, hend⟩
  · obtain ⟨hcheck, -, hfield⟩ := found wrFb_isFieldWrite h
    obtain ⟨hraw, hvalue, hexact⟩ := bits64_written hw hcheck
    obtain ⟨d, hd, hdcode, hdout, hsrc, hdcnt⟩ := hread fun v => bits64 (sext w v) 16
    rw [hfield, pendingThen_mod, hraw] at hdout
    exact ⟨d, hd, hdcode, hdout, hsrc, hdcnt, hdout ▸ hvalue, hdout ▸ hexact⟩

end Sys2Proof.Machine
end

section
/-! EncodedU32 (44_variable_width.md R170 to R172, R189): the loop of RD.VU32 over the bytes the source delivers, the
bytes WR.VU32 sends, and that the loop undoes them. -/

namespace Sys2Proof.Machine
open Sys2Proof.Claims

/-! ### A byte-level read, by what its body pulls -/

theorem readDone_of_readerCycle {i : Instr} {s : State} {body : RdCtx → Res RdCtx (Option Word)} {bs : List Byte}
    {src : Source} {x : Word} (hexec : exec i s = readerCycle none true body s) (he : s.r.err = 0)
    (hbody : body (alignR s.rdStart) = .done (some x) ((alignR s.rdStart).pulling bs 0 src))
    (hroom : s.r.total.toNat + bs.length < 2 ^ 64) : exec i s = .next (readDone s bs 0 src x) := by
  rw [← afterRead_pulling_done, hexec]
  exact readerCycle_runs he hbody (by simpa using hroom)

theorem readStopped_of_readerCycle {i : Instr} {s : State} {body : RdCtx → Res RdCtx (Option Word)} {bs : List Byte}
    {src : Source} {v : Verdict} (hexec : exec i s = readerCycle none true body s) (he : s.r.err = 0)
    (hv : v.latches = true) (hbody : body (alignR s.rdStart) = .raised v ((alignR s.rdStart).pulling bs 0 src))
    (hroom : s.r.total.toNat + bs.length < 2 ^ 64) : exec i s = .next (readStopped s bs src v) := by
  rw [← afterRead_pulling_raised s bs src hv, hexec]
  exact readerCycle_runs he hbody (by simpa using hroom)

/-! ### The read -/

section
variable {s : State} {as : List Byte} {b : Byte} {src : Source}

/-- RD.VU32 on bytes that continue and one that ends the loop. -/
theorem rdVu32_done (he : s.r.err = 0) (has : ∀ a ∈ as, 128 ≤ a.toNat) (hlen : as.length ≤ 4) (hb : b.toNat < 128)
    (hfifth : as.length = 4 → b.toNat ≤ 15) (htakes : s.source.takeBytes (as.length + 1) = some (as ++ [b], src))
    (hroom : s.r.total.toNat + (as.length + 1) < 2 ^ 64) :
    exec .rdVu32 s = .next (readDone s (as ++ [b]) 0 src (BitVec.ofNat 64 (varintValue (as ++ [b])))) := by
  have hread : readVarint 5 0 0 (alignR s.rdStart) = _ :=
    readVarint_done rfl (by omega) (by omega) has hb (by omega) htakes
  refine readDone_of_readerCycle (rdVu32_isCycle.exec_eq s) he ?_ (by simpa using hroom)
  rw [hread, Res.map_done]
  simp [zextWord]

/-- RD.VU32 on four bytes that continue and a fifth that is out of range. -/
theorem rdVu32_malformed (he : s.r.err = 0) (has : ∀ a ∈ as, 128 ≤ a.toNat) (hlen : as.length = 4) (hb : 15 < b.toNat)
    (htakes : s.source.takeBytes (as.length + 1) = some (as ++ [b], src))
    (hroom : s.r.total.toNat + (as.length + 1) < 2 ^ 64) :
    exec .rdVu32 s = .next (readStopped s (as ++ [b]) src .malformedVarint) := by
  have hread : readVarint 5 0 0 (alignR s.rdStart) = _ :=
    readVarint_malformed rfl (by omega) (by omega) has hb htakes
  exact readStopped_of_readerCycle (rdVu32_isCycle.exec_eq s) he rfl (by rw [hread, Res.map_raised])
    (by simpa using hroom)

/-- RD.VU32 on a source that stops before the loop ends. -/
theorem rdVu32_stop {a : SrcAnswer} (he : s.r.err = 0) (has : ∀ a ∈ as, 128 ≤ a.toNat) (hlen : as.length ≤ 4)
    (hstop : StopsAfter s as a src) (hroom : s.r.total.toNat + as.length < 2 ^ 64) :
    exec .rdVu32 s = .next (readStopped s as src (stopVerdict a as.length)) := by
  obtain ⟨t, htakes, hpull, hnone⟩ := hstop
  have hread : readVarint 5 0 0 (alignR s.rdStart) = _ :=
    readVarint_stop rfl (by omega) (by omega) has htakes hpull hnone
  rw [alignR_delta, State.rdStart_delta, Nat.zero_add] at hread
  exact readStopped_of_readerCycle (rdVu32_isCycle.exec_eq s) he (stopVerdict_latches hnone)
    (by rw [hread, Res.map_raised]) hroom

end

/-- Settles O45: the decode loop on the bytes of each of its three ends, from a byte boundary. -/
theorem varintRead : Obligations.VarintRead := by
  unfold Obligations.VarintRead
  exact ⟨rfl, fun s he as has hlen => ⟨fun b src => rdVu32_done he has hlen,
    fun b src => rdVu32_malformed he has, fun a src => rdVu32_stop he has hlen⟩⟩

/-! ### The write -/

theorem writeVarint_sends {left i v : Nat} {c : WrCtx} (h0 : c.unit.cnt = 0) :
    SendsFrom c (varintTail left i v) (writeVarint left i v c) :=
  ⟨fun _ h => writeVarint_done h0 h, fun _ _ _ _ _ hbs h hpush => writeVarint_fail h0 hbs h hpush⟩

/-- A Writer command whose check fails. -/
theorem writerCycle_rejected_check {check : Option Verdict} {aligns : Bool} {body : WrCtx → Res WrCtx Unit} {s : State}
    {v : Verdict} (he : s.w.err = 0) (hdin : s.dinV = true) (hcheck : check = some v) (hv : v.isCheck) :
    writerCycle true check aligns body s = .next (rejected s 4 v.info) := by
  rw [hcheck, writerCycle_rejected he fun _ => hdin, finish_of_check s hv]

/-- Settles O46: the range check of DIN, then the encode loop from a byte boundary. -/
theorem varintWrite : Obligations.VarintWrite := by
  unfold Obligations.VarintWrite
  refine ⟨rfl, fun s he => ⟨writerCycle_dinUnwritten he, fun hdin hbig => ?_, fun hdin hsmall => ?_⟩⟩
  · have hcheck : checkValue (fitsU s.din.toNat 32) = some .badValue := by
      rw [(fitsU_eq_false_iff _ 32).2 hbig]
      rfl
    exact writerCycle_rejected_check he hdin hcheck (.inr (.inl rfl))
  · have hcheck : checkValue (fitsU s.din.toNat 32) = none := if_pos (decide_eq_true hsmall)
    rw [varintBytes_eq]
    exact sends_of_writerCycle (by rw [wrVu32_isCycle.exec_eq, hcheck]; rfl) he hdin fun _ => writeVarint_sends

/-! ### The loop undoes the bytes -/

theorem pow_seven_mul (i : Nat) : 2 ^ (7 * i) = 128 ^ i := pow_mul 2 7 i

/-- The groups of an EncodedU32 are the digits of its value to the base 128. -/
theorem varintValue_varintTail (left i v : Nat) :
    varintValue (varintTail left i v) = v / 128 ^ i % 128 ^ (left + 1) := by
  induction left generalizing i with
  | zero =>
    simp only [varintTail, varintValue, pow_seven_mul, BitVec.toNat_ofNat]
    omega
  | succ left ih =>
    have hgroup : (v / 128 ^ i % 128 + 128) % 2 ^ 8 % 128 = v / 128 ^ i % 128 := by omega
    rw [varintTail, varintValue, ih, pow_seven_mul, BitVec.toNat_ofNat, hgroup, pow_succ 128 i,
      ← Nat.div_div_eq_div_mul, pow_succ' 128 (left + 1), Nat.mod_mul]

/-- All groups but the last carry the continuation bit. -/
theorem varintTail_eq_snoc (left i v : Nat) :
    ∃ as b, varintTail left i v = as ++ [b] ∧ as.length = left ∧ (∀ a ∈ as, 128 ≤ a.toNat) ∧
      b.toNat = v / 128 ^ (i + left) % 128 := by
  induction left generalizing i with
  | zero =>
    refine ⟨[], _, rfl, rfl, nofun, ?_⟩
    rw [pow_seven_mul, BitVec.toNat_ofNat, Nat.add_zero]
    omega
  | succ left ih =>
    obtain ⟨as, b, htail, hlen, has, hb⟩ := ih (i + 1)
    refine ⟨_ :: as, b, by rw [varintTail, htail]; rfl, by rw [List.length_cons, hlen], ?_, by rw [hb]; congr 3; omega⟩
    rw [List.forall_mem_cons]
    refine ⟨?_, has⟩
    rw [BitVec.toNat_ofNat]
    omega

theorem varintBytes_length (v : Nat) : (varintBytes v).length = varintSize v := by
  rw [varintBytes, List.length_map, List.length_range]

theorem lt_pow_varintSize {v : Nat} (hv : v < 2 ^ 32) : v < 128 ^ varintSize v :=
  (varintSize_le_iff hv (varintSize_le v).1).1 le_rfl

theorem varintValue_varintBytes {v : Nat} (hv : v < 2 ^ 32) : varintValue (varintBytes v) = v := by
  rw [varintBytes_eq, varintValue_varintTail, pow_zero, Nat.div_one, Nat.sub_add_cancel (varintSize_le v).1,
    Nat.mod_eq_of_lt (lt_pow_varintSize hv)]

/-- RD.VU32 on the bytes of `v`. -/
theorem rdVu32_varintBytes {u : State} {v : Nat} {src : Source} (hv : v < 2 ^ 32) (he : u.r.err = 0)
    (hroom : u.r.total.toNat + 9 < 2 ^ 64)
    (htakes : u.source.takeBytes (varintSize v) = some (varintBytes v, src)) :
    exec .rdVu32 u = .next (readDone u (varintBytes v) 0 src (BitVec.ofNat 64 v)) := by
  obtain ⟨hpos, hle⟩ := varintSize_le v
  obtain ⟨as, b, hbytes, hlen, has, hb⟩ := varintTail_eq_snoc (varintSize v - 1) 0 v
  rw [← varintBytes_eq] at hbytes
  have hvalue := varintValue_varintBytes hv
  have hsize : as.length + 1 = varintSize v := by omega
  rw [hbytes] at htakes hvalue ⊢
  rw [← hsize] at htakes
  have hfifth : as.length = 4 → b.toNat ≤ 15 := fun h4 => by
    rw [hb, ← hlen, h4]
    omega
  have hdone := rdVu32_done he has (by omega) (by omega) hfifth htakes (by omega)
  rwa [hvalue] at hdone

/-! ### What is rejected -/

/-- A Writer command that was neither refused nor rejected passed its check. -/
theorem IsWriterCycle.accepted {i : Instr} {check : Word → Option Verdict} {aligns : Bool}
    {body : Word → WrCtx → Res WrCtx Unit} (h : IsWriterCycle i check aligns body) {s t : State}
    (ht : exec i s = .next t) (hcode : code t = 0) : check s.din = none := by
  obtain ⟨-, rfl⟩ | ⟨-, v, hv, -, rfl⟩ | ⟨-, hcheck, -⟩ := h.next ht
  · exact absurd hcode (by rw [code_finish (Nat.zero_le 9)]; decide)
  · exact absurd hcode (by rw [code_finish (Nat.zero_le 9), Verdict.isCheck_code hv]; decide)
  · exact hcheck

theorem stopVerdict_ne_malformedVarint (a : SrcAnswer) (n : Nat) : stopVerdict a n ≠ .malformedVarint := by
  cases a with
  | byte b => nofun
  | endOfData => rw [stopVerdict]; split_ifs <;> nofun
  | fail => nofun

/-- Where the loop raises MALFORMED_VARINT, its next byte was delivered. -/
theorem pull_of_readVarint_malformed {left i v : Nat} {c d : RdCtx} (h0 : c.unit.cnt = 0)
    (h : readVarint (left + 1) i v c = .raised .malformedVarint d) : ∃ b t, c.source.pull = (.byte b, t) := by
  rcases hpull : c.source.pull with ⟨a, t⟩
  by_contra hnone
  have hread := readBits8_stop h0 hpull fun b hb => hnone ⟨b, t, by rw [hb]⟩
  rw [readVarint, hread, Res.andThen_raised] at h
  exact stopVerdict_ne_malformedVarint _ _ (Res.raised.inj h).1

/-- The loop raises MALFORMED_VARINT only where the fifth byte is reached and is out of range. -/
theorem readVarint_eq_malformed {left i v : Nat} {c d : RdCtx} (h0 : c.unit.cnt = 0) (hi : i + left = 4)
    (h : readVarint (left + 1) i v c = .raised .malformedVarint d) :
    ∃ as b src, as.length = left ∧ (∀ a ∈ as, 128 ≤ a.toNat) ∧ 15 < b.toNat ∧
      c.source.takeBytes (as.length + 1) = some (as ++ [b], src) := by
  induction left generalizing i v c with
  | zero =>
    obtain ⟨b, t, hpull⟩ := pull_of_readVarint_malformed h0 h
    rw [readVarint, readBits8_done h0 hpull, Res.andThen_done] at h
    split_ifs at h with hbig
    · exact ⟨[], b, t, rfl, nofun, hbig.2, Source.takeBytes_cons.2 ⟨t, hpull, rfl⟩⟩
    · omega
  | succ left ih =>
    obtain ⟨b, t, hpull⟩ := pull_of_readVarint_malformed h0 h
    by_cases hcont : 128 ≤ b.toNat
    · rw [readVarint_continue h0 hpull hcont (by omega)] at h
      obtain ⟨as, b', src, hlen, has, hb', htakes⟩ := ih rfl (by omega) h
      exact ⟨b :: as, b', src, by rw [List.length_cons, hlen], List.forall_mem_cons.2 ⟨hcont, has⟩, hb',
        Source.takeBytes_cons.2 ⟨t, hpull, htakes⟩⟩
    · rw [readVarint, readBits8_done h0 hpull, Res.andThen_done, if_neg (by omega), if_pos (by omega)] at h
      cases h

theorem Verdict.eq_malformedVarint_of_code {v : Verdict} (h : v.code = 3) : v = .malformedVarint := by
  revert h
  cases v <;> decide

/-- RD.VU32 ends with code 3 exactly where its loop raises MALFORMED_VARINT. -/
theorem rdVu32_code_eq_three {u v : State} (hv : exec .rdVu32 u = .next v) (he : u.r.err = 0) :
    code v = 3 ↔ ∃ d, readVarint 5 0 0 (alignR u.rdStart) = .raised .malformedVarint d := by
  obtain ⟨hne, -⟩ | ⟨-, w, -, hcheck, -⟩ | ⟨-, -, x, hx, hm, -, rfl⟩ := rdVu32_isCycle.next hv
  · exact absurd he hne
  · cases hcheck
  · have hd := hm.delta_le
    rw [if_pos rfl] at hx
    rcases hread : readVarint 5 0 0 (alignR u.rdStart) with ⟨a, d⟩ | ⟨w, d⟩ <;> rw [hread] at hx <;> subst hx
    · exact iff_of_false (fun h => absurd ((code_finish (v := .ok) hd).symm.trans h) (by decide)) nofun
    · have hcode : code (u.afterRead (.raised w d)) = w.code := code_finish hd
      rw [Res.map_raised, hcode]
      refine ⟨fun h => ⟨d, by rw [Verdict.eq_malformedVarint_of_code h]⟩, ?_⟩
      rintro ⟨d, h⟩
      cases h
      rfl

/-! ### The round trip -/

theorem delta_writeDone {s : State} {bs : List Byte} {acc : Byte} {left : Nat} {snk : Sink} (h : bs.length ≤ 9) :
    delta (writeDone s bs acc left snk) = bs.length :=
  (congrArg (bitField · 8 8) (ofNat_delta_eq_statusWord _)).trans (statusWord_delta h)

theorem delta_readDone {s : State} {bs : List Byte} {left : Nat} {src : Source} {x : Word} (h : bs.length ≤ 9) :
    delta (readDone s bs left src x) = bs.length :=
  (congrArg (bitField · 8 8) (ofNat_delta_eq_statusWord _)).trans (statusWord_delta h)

/-- A byte-level write at a byte boundary that ended OK, by what its body sends: its state, and the sink's new bytes. -/
theorem IsWriterCycle.sent_aligned {i : Instr} {check : Word → Option Verdict} {body : Word → WrCtx → Res WrCtx Unit}
    {s t : State} {bs : List Byte} (h : IsWriterCycle i check true body)
    (hbody : ∀ d : WrCtx, d.unit.cnt = 0 → SendsFrom d bs (body s.din d)) (h0 : s.w.cnt = 0)
    (ht : exec i s = .next t) (hcode : code t = 0) :
    (∃ snk, t = writeDone s bs 0 0 snk) ∧ t.sink.taken.drop s.sink.taken.length = bs := by
  obtain ⟨snk, htakes, rfl⟩ := h.sent hbody ht hcode
  rw [padding_of_aligned h0, List.nil_append] at htakes ⊢
  exact ⟨⟨snk, rfl⟩, by rw [show (writeDone s bs 0 0 snk).sink = snk from rfl, Sink.takes_taken htakes, List.drop_left]⟩

/-- WR.VU32 at a byte boundary. -/
theorem wrVu32_sent {s t : State} (h0 : s.w.cnt = 0) (ht : exec .wrVu32 s = .next t) (hcode : code t = 0) :
    s.din.toNat < 2 ^ 32 ∧ t.sink.taken.drop s.sink.taken.length = varintBytes s.din.toNat ∧
      delta t = varintSize s.din.toNat := by
  have hle := (varintSize_le s.din.toNat).2
  have hlen := varintBytes_length s.din.toNat
  obtain ⟨⟨snk, rfl⟩, htaken⟩ := wrVu32_isCycle.sent_aligned (bs := varintBytes s.din.toNat)
    (fun _ hd => by rw [varintBytes_eq]; exact writeVarint_sends hd) h0 ht hcode
  refine ⟨fitsU_of_ubCheck (wrVu32_isCycle.accepted ht hcode), htaken, ?_⟩
  rw [delta_writeDone (by omega), hlen]

/-- Settles O47: the loop's digits to the base 128 undo the groups, and the loop raises MALFORMED_VARINT at the fifth
byte alone. -/
theorem varintRoundTrip : Obligations.VarintRoundTrip := by
  unfold Obligations.VarintRoundTrip
  refine ⟨fun s t u src n h0 ht hcode hleast => ?_, fun u v he hv => ?_⟩
  · obtain ⟨hfits, htaken, hdelta⟩ := wrVu32_sent h0 ht hcode
    have hle := (varintSize_le s.din.toNat).2
    have hlen := varintBytes_length s.din.toNat
    have hsize : varintSize s.din.toNat = n :=
      (isLeast_size (varintSize_le _).1 fun m => varintSize_le_iff hfits).unique hleast
    rw [htaken, hdelta, hlen, ← hsize]
    refine ⟨rfl, rfl, fun he hroom htakes => ⟨_, rdVu32_varintBytes hfits he hroom htakes, code_readDone (by omega), ?_,
      by rw [delta_readDone (by omega), hlen], rfl⟩⟩
    exact (BitVec.ofNat_toNat ..).trans (BitVec.setWidth_eq _)
  · rw [rdVu32_code_eq_three hv he]
    constructor
    · rintro ⟨d, hread⟩
      obtain ⟨as, b, src, hlen, has, hb, htakes⟩ := readVarint_eq_malformed rfl rfl hread
      exact ⟨as, b, src, hlen, has, hb, by rwa [hlen] at htakes⟩
    · rintro ⟨as, b, src, hlen, has, hb, htakes⟩
      exact ⟨_, readVarint_malformed rfl (by omega) (by omega) has hb (by rw [hlen]; exact htakes)⟩

end Sys2Proof.Machine
end

section
/-! Fixed and Fixed8 (44_variable_width.md R184 to R188, R190 part b): reads of whole bytes whose signed value binary64
holds exactly over 2^16 or 2^8, writes of the truncated value behind its check, and one after the other. -/

namespace Sys2Proof.Machine
open Sys2Proof.Claims

/-! ### The reads -/

/-- Settles O52: reads of 4 and 2 bytes, whose `sext_N` is the two's-complement value; an integer of 32 bits over 2^16
or 2^8 is a binary64 datum. -/
theorem fixedReads : Obligations.FixedReads := by
  unfold Obligations.FixedReads
  refine ⟨readFixed_readRule rfl (fun _ => rfl) fun _ hv => congrArg (bits64 · 16) (sext_eq_toInt hv),
    readFixed_readRule rfl (fun _ => rfl) fun _ hv => congrArg (bits64 · 8) (sext_eq_toInt hv),
    fun r k hlo hhi hk => ?_⟩
  obtain ⟨hfinite, hvalue⟩ := bits64_exact (r := r) (k := k) (by omega) (by omega)
  exact ⟨hfinite, hvalue, fun h0 => by rw [h0, bits64_zero]⟩

/-! ### The writes -/

/-- The checks of a fixed-point write with `k` fraction bits on `n` bytes (R186, R188). -/
def fxCheck (k n : Nat) (x : Word) : Option Verdict :=
  firstFailure (checkFinite x) (checkValue (fitsS (fxRaw x k) (8 * n)))

theorem fxCheck_decides (k n : Nat) (x : Word) : Decides (fxCheck k n x) (fixedRejects k (8 * n) x) :=
  fixedCheck_decides k (8 * n) x

theorem writeFixedPoint_eq (k n : Nat) (s : State) :
    writeFixedPoint k n s =
      writerCycle true (fxCheck k n s.din) true (writeBytesLE n (bitsK (8 * n) (fxRaw s.din k))) s := rfl

/-- A fixed-point write obeys its rule. -/
theorem writeFixedPoint_fixedWriteRule {i : Instr} {word : Word} {k n : Nat} (hword : encode i = word)
    (hexec : ∀ s, exec i s = writeFixedPoint k n s) (hn : n ≠ 0) : FixedWriteRule i word k n := by
  refine ⟨hword, fun s he => ⟨fun hdin => ?_, fun hdin => ⟨fun info hr => ?_, fun hr => ?_⟩⟩⟩
  · rw [hexec, writeFixedPoint_eq, writerCycle_dinUnwritten he hdin]
  · obtain ⟨v, hv, hcheck, rfl⟩ := (fxCheck_decides k n s.din).some_of_rejects hr
    rw [hexec, writeFixedPoint_eq, writerCycle_rejected_check he hdin hv hcheck]
  · have hcheck := (fxCheck_decides k n s.din).none_of_accepts hr
    rw [← fxRaw_eq_trunc0, ← bitsK_eq]
    exact sends_of_writerCycle (by rw [hexec, writeFixedPoint_eq, hcheck]) he hdin fun _ hd => writeBytesLE_sends hd hn

/-- Settles O53: both writes are one cycle, whose checks decide the rejections. -/
theorem fixedWrites : Obligations.FixedWrites := by
  unfold Obligations.FixedWrites
  exact ⟨writeFixedPoint_fixedWriteRule rfl (fun _ => rfl) (by decide),
    writeFixedPoint_fixedWriteRule rfl (fun _ => rfl) (by decide)⟩

/-! ### The round trip -/

theorem writeFixedPoint_isCycle {i : Instr} {k n : Nat} (hexec : ∀ s, exec i s = writeFixedPoint k n s)
    (hi : (n ≤ 8 ∧ n ≠ 0) ∧ 2 ≤ i.opc % 64 ∧ i.takesWidth = false) :
    IsWriterCycle i (fxCheck k n) true (fun x => writeBytesLE n (bitsK (8 * n) (fxRaw x k))) :=
  writeBytes_isCycle hexec (fun x => (fxCheck_decides k n x).isCheck) hi.1 hi.2

/-- What a fixed-point write that ended OK at a byte boundary added to the sink: the truncated value, in range. -/
theorem writeFixedPoint_sent {i : Instr} {k n : Nat} (hexec : ∀ s, exec i s = writeFixedPoint k n s)
    (hi : (n ≤ 8 ∧ n ≠ 0) ∧ 2 ≤ i.opc % 64 ∧ i.takesWidth = false) {s t : State} (h0 : s.w.cnt = 0)
    (ht : exec i s = .next t) (hcode : code t = 0) :
    FitsSigned (fxRaw s.din k) (8 * n) ∧
      t.sink.taken.drop s.sink.taken.length = leBytes n (bitsK (8 * n) (fxRaw s.din k)) := by
  have hcycle := writeFixedPoint_isCycle hexec hi
  refine ⟨fitsS_of_checkValue (none_of_firstFailure (hcycle.accepted ht hcode)).2, ?_⟩
  exact (hcycle.sent_aligned (fun _ hd => writeBytesLE_sends hd hi.1.2) h0 ht hcode).2

/-- The read's format of the bytes of an integer that fits. -/
theorem sext_leValue_leBytes {n : Nat} {r : ℤ} (h : FitsSigned r (8 * n)) :
    sext (8 * n) (leValue (leBytes n (bitsK (8 * n) r))) = r := by
  rw [leValue_leBytes, Nat.mod_eq_of_lt (bitsK_lt _ r), sext_bitsK h]

/-- `bits64` of a truncated value in range: exact, and the value itself where it is a multiple of 2^-k. -/
theorem f64Value_bits64_fxRaw {k n : Nat} {x : Word} (hk : k ≤ 16) (hn : n ≤ 4)
    (h : FitsSigned (fxRaw x k) (8 * n)) :
    f64Value (bits64 (fxRaw x k) k) = trunc0 (f64Value x * 2 ^ k) / 2 ^ k ∧
      ((∃ z : ℤ, f64Value x * 2 ^ k = z) → f64Value (bits64 (fxRaw x k) k) = f64Value x) := by
  have hpow : (2 : ℚ) ^ k ≠ 0 := by positivity
  obtain ⟨-, hvalue⟩ := bits64_exact (natAbs_le_of_fitsSigned (by omega) h) hk
  rw [hvalue, fxRaw_eq_trunc0]
  refine ⟨rfl, ?_⟩
  rintro ⟨z, hz⟩
  rw [div_eq_iff hpow, hz, trunc0_intCast]

/-- The statement of O54 for one type. -/
theorem fixedPoint_roundTrips {wr rd : Instr} {k n : Nat} (hwr : ∀ s, exec wr s = writeFixedPoint k n s)
    (hi : (n ≤ 8 ∧ n ≠ 0) ∧ 2 ≤ wr.opc % 64 ∧ wr.takesWidth = false)
    (hrd : ∀ s, exec rd s = readFixed n (fun v => bits64 (sext (8 * n) v) k) s) (hk : k ≤ 16) (hn : n ≤ 4)
    {s t u : State} {src : Source} (h0 : s.w.cnt = 0) (ht : exec wr s = .next t) (hcode : code t = 0)
    (he : u.r.err = 0) (hroom : u.r.total.toNat + n < 2 ^ 64)
    (htakes : u.source.takeBytes n = some (t.sink.taken.drop s.sink.taken.length, src)) :
    ∃ v, exec rd u = .next v ∧ code v = 0 ∧ v.source = src ∧
      f64Value v.dout = trunc0 (f64Value s.din * 2 ^ k) / 2 ^ k ∧
      ((∃ z : ℤ, f64Value s.din * 2 ^ k = z) → f64Value v.dout = f64Value s.din) := by
  obtain ⟨hfits, htaken⟩ := writeFixedPoint_sent hwr hi h0 ht hcode
  obtain ⟨-, hread⟩ := readFixed_readRule (word := encode rd) rfl hrd fun _ _ => rfl
  obtain ⟨hdone, -⟩ := hread u he
  rw [htaken] at htakes
  have hnext := hdone _ src htakes hroom
  simp only [sext_leValue_leBytes hfits] at hnext
  exact ⟨_, hnext, code_readDone (by rw [leBytes_length]; omega), rfl, f64Value_bits64_fxRaw hk hn hfits⟩

/-- Settles O54: the bytes sent hold the truncated value, which the read's `sext_N` and `bits64` give back exactly. -/
theorem fixedRoundTrip : Obligations.FixedRoundTrip := by
  unfold Obligations.FixedRoundTrip
  simp only [List.forall_mem_cons, List.not_mem_nil, false_imp_iff, implies_true, and_true]
  exact ⟨fun _ _ _ _ => fixedPoint_roundTrips (fun _ => rfl) (by decide) (fun _ => rfl) (by decide) (by decide),
    fun _ _ _ _ => fixedPoint_roundTrips (fun _ => rfl) (by decide) (fun _ => rfl) (by decide) (by decide)⟩

end Sys2Proof.Machine
end

section
/-! The Float16 conversions (44_variable_width.md R174 to R181, R190 part a): the encoder's integers against the exact
rationals of R180 and R181, and the binary32 datum of a Float16 word, which the encoder gives back. -/

namespace Sys2Proof.Machine
open Sys2Proof.Claims

/-! ### RoundInt (R181) -/

/-- RoundInt on integers is RoundInt on their quotient. -/
theorem roundRat_div (ties : F16Ties) (num : Nat) {den : Nat} (hden : 0 < den) :
    roundRat ties ((num : ℚ) / den) = roundInt ties num den := by
  have hpos : (0 : ℚ) < den := by exact_mod_cast hden
  have hfract : (num : ℚ) / den - ((num / den : Nat) : ℤ) = (num % den : Nat) / (den : ℚ) := by
    rw [eq_div_iff hpos.ne', sub_mul, div_mul_cancel₀ _ hpos.ne', sub_eq_iff_eq_add, Int.cast_natCast]
    exact_mod_cast (Nat.mod_add_div' num den).symm
  have hbelow : ((num % den : Nat) : ℚ) / den < 1 / 2 ↔ 2 * (num % den) < den := by
    rw [div_lt_div_iff₀ hpos two_pos, one_mul, mul_comm]
    exact_mod_cast Iff.rfl
  have habove : 1 / 2 < ((num % den : Nat) : ℚ) / den ↔ den < 2 * (num % den) := by
    rw [div_lt_div_iff₀ two_pos hpos, one_mul, mul_comm]
    exact_mod_cast Iff.rfl
  unfold roundRat roundInt
  simp only [floor_nat_div, hfract, hbelow, habove]
  cases ties <;> dsimp only <;> split_ifs <;> omega

theorem le_roundInt (ties : F16Ties) (num den : Nat) : num / den ≤ roundInt ties num den := by
  unfold roundInt
  cases ties <;> dsimp only <;> split_ifs <;> omega

/-- RoundInt leaves an integer as it is. -/
theorem roundInt_mul (ties : F16Ties) (q : Nat) {den : Nat} (hden : 0 < den) : roundInt ties (q * den) den = q := by
  unfold roundInt
  rw [Nat.mul_mod_left, if_pos hden]
  exact Nat.mul_div_cancel q hden

/-! ### The encoder on exact rationals (R180) -/

theorem log2_mul_pow {m : Nat} (hm : m ≠ 0) (k : Nat) : Nat.log2 (m * 2 ^ k) = Nat.log2 m + k := by
  rw [Nat.log2_eq_iff (by positivity), show Nat.log2 m + k + 1 = Nat.log2 m + 1 + k by omega, pow_add, pow_add]
  exact ⟨Nat.mul_le_mul_right _ (Nat.log2_self_le hm), Nat.mul_lt_mul_of_pos_right Nat.lt_log2_self (Nat.two_pow_pos k)⟩

theorem intLog_div_pow {a : Nat} (ha : a ≠ 0) (k : Nat) : Int.log 2 ((a : ℚ) / 2 ^ k) = (Nat.log2 a : ℤ) - k := by
  have hpos : (0 : ℚ) < a / 2 ^ k := by positivity
  have hpow (z : ℤ) : ((2 : Nat) : ℚ) ^ (z - k) = 2 ^ z / 2 ^ k := by
    rw [Nat.cast_ofNat, zpow_sub₀ two_ne_zero, zpow_natCast]
  refine le_antisymm ?_ ?_
  · rw [← Int.lt_add_one_iff, ← Int.lt_zpow_iff_log_lt one_lt_two hpos, sub_add_eq_add_sub, hpow]
    refine div_lt_div_of_pos_right ?_ (by positivity)
    exact_mod_cast Nat.lt_log2_self
  · rw [← Int.zpow_le_iff_le_log one_lt_two hpos, hpow]
    refine div_le_div_of_nonneg_right ?_ (by positivity)
    exact_mod_cast Nat.log2_self_le ha

/-- In the normal range the rounded significand has its leading one. -/
theorem le_roundInt_normal (ties : F16Ties) {a e : Nat} (ha : a ≠ 0) (he : Nat.log2 a = e + 134) :
    1024 ≤ roundInt ties (a * 2 ^ 25) (2 ^ 149 * 2 ^ e) := by
  have hle : 2 ^ (e + 134) ≤ a := he ▸ Nat.log2_self_le ha
  refine le_trans ?_ (le_roundInt ties _ _)
  rw [Nat.le_div_iff_mul_le (by positivity)]
  calc 1024 * (2 ^ 149 * 2 ^ e) = 2 ^ (e + 134) * 2 ^ 25 := by ring
    _ ≤ a * 2 ^ 25 := Nat.mul_le_mul_right _ hle

/-- R180 before the clamp at the infinity, on the rational `a / 2^149`. -/
def unclampedHalf (ties : F16Ties) (a : Nat) : Nat :=
  if Nat.log2 a < 135 then roundInt ties (a * 2 ^ 24) (2 ^ 149)
  else
    (Nat.log2 a - 134) * 1024 + (roundInt ties (a * 2 ^ 25) (2 ^ 149 * 2 ^ (Nat.log2 a - 134)) - 1024)

theorem real2HalfMag_eq_min (ties : F16Ties) (a : Nat) :
    real2HalfMag ties a = min 0x7C00 (unclampedHalf ties a) := rfl

theorem realToHalfMag_eq_min (ties : F16Ties) (a : ℚ) :
    realToHalfMag ties a = min 0x7C00
      (if Int.log 2 a < -14 then roundRat ties (a / 2 ^ (-24 : ℤ))
       else (Int.log 2 a + 15) * 1024 + (roundRat ties (a / 2 ^ (Int.log 2 a - 10)) - 1024)) :=
  (min_def _ _).symm

/-- The integer encoder is R180 on the rational `a / 2^149`. -/
theorem realToHalfMag_div (ties : F16Ties) {a : Nat} (ha : a ≠ 0) :
    realToHalfMag ties ((a : ℚ) / 2 ^ 149) = real2HalfMag ties a := by
  rw [realToHalfMag_eq_min, real2HalfMag_eq_min, Nat.cast_min, unclampedHalf, intLog_div_pow ha]
  congr 1
  by_cases hsub : Nat.log2 a < 135
  · have hscaled : (a : ℚ) / 2 ^ 149 / 2 ^ (-24 : ℤ) = ((a * 2 ^ 24 : Nat) : ℚ) / (2 ^ 149 : Nat) := by
      rw [zpow_neg, div_inv_eq_mul, scaled_cast]
      norm_num
    rw [if_pos (by omega), if_pos hsub, hscaled, roundRat_div ties _ (by positivity)]
  · obtain ⟨e, he⟩ : ∃ e, Nat.log2 a = e + 134 := ⟨Nat.log2 a - 134, by omega⟩
    have hlead := le_roundInt_normal ties ha he
    rw [he, Nat.add_sub_cancel]
    have hscaled : (a : ℚ) / 2 ^ 149 / 2 ^ (((e + 134 : Nat) : ℤ) - (149 : Nat) - 10) =
        ((a * 2 ^ 25 : Nat) : ℚ) / (2 ^ 149 * 2 ^ e : Nat) := by
      rw [show ((e + 134 : Nat) : ℤ) - (149 : Nat) - 10 = (e : ℤ) - (25 : Nat) by omega, zpow_sub₀ two_ne_zero,
        zpow_natCast, zpow_natCast, div_div_eq_mul_div, div_mul_eq_mul_div, div_div]
      norm_cast
    rw [if_neg (by omega), if_neg (by omega), hscaled, roundRat_div ties _ (by positivity)]
    omega

theorem abs_f32Value (x : BitVec 32) : |f32Value x| = (f32Mag x : ℚ) / 2 ^ 149 := by
  have hpos : (0 : ℚ) ≤ (f32Mag x : ℚ) / 2 ^ 149 := by positivity
  rw [f32Value_eq]
  cases f32Sign x
  · rw [if_neg Bool.false_ne_true, one_mul, abs_of_nonneg hpos]
  · rw [if_pos rfl, neg_one_mul, abs_neg, abs_of_nonneg hpos]

theorem real2Half_of_finite (ties : F16Ties) {x : BitVec 32} (hx : f32Exp x ≠ 255) (h0 : f32Mag x ≠ 0) :
    real2Half ties x = (if f32Sign x then 0x8000 else 0) + real2HalfMag ties (f32Mag x) := by
  rw [real2Half, if_neg hx, if_neg h0]

theorem real2Half_of_zero (ties : F16Ties) {x : BitVec 32} (hx : f32Exp x ≠ 255) (h0 : f32Mag x = 0) :
    real2Half ties x = if f32Sign x then 0x8000 else 0 := by
  rw [real2Half, if_neg hx, if_pos h0, Nat.add_zero]

theorem real2Half_of_infinite (ties : F16Ties) {x : BitVec 32} (hx : f32Exp x = 255) :
    real2Half ties x = (if f32Sign x then 0x8000 else 0) + 0x7C00 := by
  rw [real2Half, if_pos hx]

/-- Settles O49: the integers of the encoder are the numerators of R180's rationals, and rounding agrees. -/
theorem halfEncodingIsOneRounding : Obligations.HalfEncodingIsOneRounding := by
  unfold Obligations.HalfEncodingIsOneRounding
  exact fun ties x hx h0 =>
    ⟨by rw [abs_f32Value, realToHalfMag_div ties h0], real2Half_of_finite ties hx h0⟩

/-! ### The binary32 datum of a Float16 word (R175, R176) -/

theorem f16Mag_eq_zero {h : Nat} (h0 : f16Mag h = 0) : f16Exp h = 0 ∧ f16Frac h = 0 := by
  rw [f16Mag] at h0
  split_ifs at h0 with hz
  · exact ⟨hz, h0⟩
  · exact absurd h0 (by positivity)

/-- A subnormal magnitude has at most ten bits. -/
theorem log2_f16Mag_subnormal {h : Nat} (hz : f16Exp h = 0) : Nat.log2 (f16Mag h) ≤ 9 := by
  rw [f16Mag, if_pos hz]
  exact log2_le_of_lt (Nat.mod_lt _ (by decide))

/-- The leading bit of a normal magnitude tells its exponent. -/
theorem log2_f16Mag_normal {h : Nat} (hz : f16Exp h ≠ 0) : Nat.log2 (f16Mag h) = f16Exp h + 9 := by
  obtain ⟨e, he⟩ : ∃ e, f16Exp h = e + 1 := ⟨f16Exp h - 1, by omega⟩
  have hfrac : f16Frac h < 1024 := Nat.mod_lt _ (by decide)
  rw [f16Mag, if_neg hz, he, Nat.add_sub_cancel, Nat.log2_eq_iff (by positivity), show e + 1 + 9 = 10 + e by omega,
    show 10 + e + 1 = 11 + e by omega, pow_add, pow_add]
  exact ⟨Nat.mul_le_mul_right _ (by omega), Nat.mul_lt_mul_of_pos_right (by omega) (Nat.two_pow_pos e)⟩

/-- A Float16 magnitude has at most 24 significant bits, and is below 2^41. -/
theorem pow_log2_dvd_f16Mag (h : Nat) :
    2 ^ Nat.log2 (f16Mag h) ∣ f16Mag h * 2 ^ 23 ∧ Nat.log2 (f16Mag h) ≤ 40 := by
  have hexp : f16Exp h < 32 := Nat.mod_lt _ (by decide)
  by_cases hz : f16Exp h = 0
  · have hlog := log2_f16Mag_subnormal hz
    exact ⟨Dvd.dvd.mul_left (pow_dvd_pow 2 (by omega)) _, by omega⟩
  · rw [log2_f16Mag_normal hz, f16Mag, if_neg hz, mul_assoc, ← pow_add]
    exact ⟨Dvd.dvd.mul_left (pow_dvd_pow 2 (by omega)) _, by omega⟩

/-- A finite Float16 word becomes a finite datum of the same sign and of exactly its magnitude. -/
theorem half2Bits32_finite {h : Nat} (h31 : f16Exp h ≠ 31) :
    f32Sign (BitVec.ofNat 32 (half2Bits32 h)) = f16Sign h ∧ f32Exp (BitVec.ofNat 32 (half2Bits32 h)) < 255 ∧
      f32Mag (BitVec.ofNat 32 (half2Bits32 h)) = f16Mag h * 2 ^ 125 := by
  rw [half2Bits32, if_neg h31]
  by_cases h0 : f16Mag h = 0
  · have hbits : ieeeBits 23 8 127 24 (f16Sign h) (f16Mag h) =
        (if f16Sign h then 2 ^ (23 + 8) else 0) + 0 * 2 ^ 23 + 0 := by simp [ieeeBits, h0]
    obtain ⟨hs, he, hf⟩ := f32_fields (neg := f16Sign h) (e := 0) (f := 0) (by decide) (by decide)
    rw [hbits, f32Mag, hs, he, hf, h0]
    exact ⟨rfl, by decide, rfl⟩
  · obtain ⟨hdvd, hlog⟩ := pow_log2_dvd_f16Mag h
    obtain ⟨f, hf, hfrac, hbits⟩ := ieeeBits_fields (eb := 8) (bias := 127) (k := 24) (neg := f16Sign h) h0 hdvd
    obtain ⟨hs, he, hff⟩ := f32_fields (neg := f16Sign h) (e := Nat.log2 (f16Mag h) + 127 - 24) (by omega) hf
    rw [hbits, f32Mag, hs, he, hff, if_neg (by omega)]
    refine ⟨rfl, by omega, ?_⟩
    rw [show Nat.log2 (f16Mag h) + 127 - 24 - 1 = Nat.log2 (f16Mag h) + 102 by omega, pow_add, ← mul_assoc, hfrac,
      mul_assoc, ← pow_add]

/-- A Float16 infinity becomes the binary32 infinity of the same sign. -/
theorem half2Bits32_infinite {h : Nat} (h31 : f16Exp h = 31) :
    f32Sign (BitVec.ofNat 32 (half2Bits32 h)) = f16Sign h ∧ f32Exp (BitVec.ofNat 32 (half2Bits32 h)) = 255 := by
  have hbits : half2Bits32 h = (if f16Sign h then 2 ^ (23 + 8) else 0) + 255 * 2 ^ 23 + 0 := by
    rw [half2Bits32, if_pos h31, Nat.add_zero]
  obtain ⟨hs, he, -⟩ := f32_fields (neg := f16Sign h) (e := 255) (f := 0) (by decide) (by decide)
  rw [hbits]
  exact ⟨hs, he⟩

/-! ### The round trip (R190 part a) -/

theorem f16_fields (h : BitVec 16) :
    h.toNat = (if f16Sign h.toNat then 0x8000 else 0) + (f16Exp h.toNat * 1024 + f16Frac h.toNat) := by
  have hlt := h.isLt
  rw [f16Sign, Nat.testBit_eq_decide_div_mod_eq, f16Exp, f16Frac]
  split_ifs with hs <;> simp only [decide_eq_true_eq] at hs <;> omega

/-- The encoder before its clamp gives back the exponent and the mantissa of a finite word. -/
theorem unclampedHalf_f16Mag (ties : F16Ties) {h : Nat} (h0 : f16Mag h ≠ 0) :
    unclampedHalf ties (f16Mag h * 2 ^ 125) = f16Exp h * 1024 + f16Frac h := by
  rw [unclampedHalf, log2_mul_pow h0]
  by_cases hz : f16Exp h = 0
  · have hlog := log2_f16Mag_subnormal hz
    rw [if_pos (by omega), mul_assoc, ← pow_add, roundInt_mul ties _ (by positivity), f16Mag, if_pos hz, hz]
    omega
  · obtain ⟨e, he⟩ : ∃ e, f16Exp h = e + 1 := ⟨f16Exp h - 1, by omega⟩
    have hlog := log2_f16Mag_normal hz
    have hscaled : f16Mag h * 2 ^ 125 * 2 ^ 25 = (1024 + f16Frac h) * (2 ^ 149 * 2 ^ (e + 1)) := by
      rw [f16Mag, if_neg hz, he, Nat.add_sub_cancel]
      ring
    rw [if_neg (by omega), hlog, he, show e + 1 + 9 + 125 - 134 = e + 1 by omega, hscaled,
      roundInt_mul ties _ (by positivity), Nat.add_sub_cancel_left]

/-- Settles O51: an infinity keeps its fields; a finite word's datum has its sign and exact magnitude, of which the
encoder rounds nothing away. -/
theorem halfRoundTrip : Obligations.HalfRoundTrip := by
  unfold Obligations.HalfRoundTrip
  intro ties h hnan
  have hfields := f16_fields h
  by_cases h31 : f16Exp h.toNat = 31
  · have hfrac : f16Frac h.toNat = 0 := by
      by_contra hne
      exact hnan ⟨h31, hne⟩
    obtain ⟨hs, he⟩ := half2Bits32_infinite h31
    rw [real2Half_of_infinite ties he, hs]
    rw [h31, hfrac] at hfields
    exact hfields.symm
  · obtain ⟨hs, he, hmag⟩ := half2Bits32_finite h31
    by_cases h0 : f16Mag h.toNat = 0
    · rw [h0, Nat.zero_mul] at hmag
      obtain ⟨hexp, hfrac⟩ := f16Mag_eq_zero h0
      rw [hexp, hfrac] at hfields
      rw [real2Half_of_zero ties he.ne hmag, hs]
      exact hfields.symm
    · have hexp : f16Exp h.toNat < 32 := Nat.mod_lt _ (by decide)
      have hfrac : f16Frac h.toNat < 1024 := Nat.mod_lt _ (by decide)
      rw [real2Half_of_finite ties he.ne (by rw [hmag]; positivity), hs, hmag, real2HalfMag_eq_min,
        unclampedHalf_f16Mag ties h0, min_eq_right (by omega)]
      exact hfields.symm

end Sys2Proof.Machine
end

section
/-! RD.F16 and WR.F16 (44_variable_width.md R176, R182): the datum of the word read, a drawn NaN for a NaN word; the word
written for each kind of datum, a drawn NaN word for a NaN, and the count of draws it leaves. -/

namespace Sys2Proof.Machine
open Sys2Proof.Claims

/-! ### The datum RD.F16 gives for a word -/

/-- `x` is a binary32 datum that R176 allows for the Float16 word `h`. -/
def IsHalfDatum (h : Nat) (x : BitVec 32) : Prop :=
  (f16Exp h ≠ 31 → f32Exp x ≠ 255 ∧ f32Value x = halfValue h ∧ f32Sign x = f16Sign h) ∧
    (f16Exp h = 31 → f16Frac h = 0 → x = if f16Sign h then 0xFF800000 else 0x7F800000) ∧
    (f16Exp h = 31 → f16Frac h ≠ 0 → IsNan32 x)

theorem f16IsNan_iff (h : Nat) : f16IsNan h = true ↔ f16Exp h = 31 ∧ f16Frac h ≠ 0 := decide_eq_true_iff

/-- The datum of a finite Float16 word has exactly its value. -/
theorem f32Value_half2Bits32 {h : Nat} (h31 : f16Exp h ≠ 31) :
    f32Value (BitVec.ofNat 32 (half2Bits32 h)) = halfValue h := by
  obtain ⟨hs, -, hmag⟩ := half2Bits32_finite h31
  rw [f32Value_eq, halfValue_eq, hs, hmag, show 149 = 24 + 125 by rfl, pow_add, Nat.cast_mul, Nat.cast_pow,
    Nat.cast_ofNat, mul_div_mul_right _ _ (by positivity)]

theorem half2Bits32_isHalfDatum {h : Nat} (hn : ¬ f16IsNan h = true) :
    IsHalfDatum h (BitVec.ofNat 32 (half2Bits32 h)) := by
  rw [f16IsNan_iff] at hn
  refine ⟨fun h31 => ?_, fun h31 _ => ?_, fun h31 hfrac => absurd ⟨h31, hfrac⟩ hn⟩
  · obtain ⟨hs, he, -⟩ := half2Bits32_finite h31
    exact ⟨he.ne, f32Value_half2Bits32 h31, hs⟩
  · rw [half2Bits32, if_pos h31]
    cases f16Sign h <;> rfl

theorem f32NanOf_isHalfDatum {h : Nat} (hn : f16IsNan h = true) (d : Bool × Fin 8388607) :
    IsHalfDatum h (BitVec.ofNat 32 (f32NanOf d)) := by
  obtain ⟨h31, hfrac⟩ := (f16IsNan_iff h).1 hn
  refine ⟨fun hne => absurd h31 hne, fun _ h0 => absurd h0 hfrac, fun _ _ => ?_⟩
  rw [← ofNat32_zextWord]
  exact f32NanOf_isNan d

theorem half2Bits32_lt (h : Nat) : half2Bits32 h < 2 ^ 32 := by
  obtain ⟨e, f, hef, hf, hbits⟩ := half2Bits32_fields h
  rw [hbits]
  split_ifs <;> omega

theorem f32NanOf_lt (d : Bool × Fin 8388607) : f32NanOf d < 2 ^ 32 := by
  have hd := d.2.isLt
  rw [f32NanOf]
  split_ifs <;> omega

/-- The result of RD.F16 is a datum of the word read, and nothing but the count of draws is changed. -/
theorem decodeHalf_done (h : Nat) (c : RdCtx) :
    ∃ x n, decodeHalf h c = .done (some (x.setWidth 64)) { c with nanDraws := n } ∧ IsHalfDatum h x := by
  rw [decodeHalf]
  by_cases hn : f16IsNan h = true
  · rw [if_pos hn, zextWord_eq_setWidth (f32NanOf_lt _)]
    exact ⟨_, _, rfl, f32NanOf_isHalfDatum hn _⟩
  · rw [if_neg hn, zextWord_eq_setWidth (half2Bits32_lt h)]
    exact ⟨_, c.nanDraws, rfl, half2Bits32_isHalfDatum hn⟩

theorem afterRead_pulling_drawn (s : State) (bs : List Byte) (src : Source) (x : Word) (n : Nat) :
    s.afterRead (.done (some x) { (alignR s.rdStart).pulling bs 0 src with nanDraws := n }) =
      { readDone s bs 0 src x with nanDec := n } := by
  rw [← afterRead_pulling_done]
  rfl

/-- RD.F16 on the two bytes of a word. -/
theorem rdF16_done {s : State} {bs : List Byte} {src : Source} (he : s.r.err = 0)
    (htakes : s.source.takeBytes 2 = some (bs, src)) (hroom : s.r.total.toNat + 2 < 2 ^ 64) :
    ∃ x : BitVec 32, ∃ n, exec .rdF16 s = .next { readDone s bs 0 src (x.setWidth 64) with nanDec := n } ∧
      IsHalfDatum (leValue bs) x := by
  have hlen := Source.takeBytes_length htakes
  have hread := readBytesLE_done (c := alignR s.rdStart) rfl htakes
  obtain ⟨x, n, hdecode, hx⟩ := decodeHalf_done (leValue bs) ((alignR s.rdStart).pulling bs 0 src)
  refine ⟨x, n, ?_, hx⟩
  rw [← afterRead_pulling_drawn, rdF16_isCycle.exec_eq]
  exact readerCycle_runs he (by rw [if_pos rfl, hread, Res.andThen_done, hdecode]) (by simpa [hlen] using hroom)

/-- RD.F16 on a source that stops before the second byte. -/
theorem rdF16_stop {s : State} {bs : List Byte} {a : SrcAnswer} {src : Source} (he : s.r.err = 0)
    (hlt : bs.length < 2) (hstop : StopsAfter s bs a src) (hroom : s.r.total.toNat + bs.length < 2 ^ 64) :
    exec .rdF16 s = .next (readStopped s bs src (stopVerdict a bs.length)) := by
  obtain ⟨t, htakes, hpull, hnone⟩ := hstop
  have hread := readBytesLE_stop (c := alignR s.rdStart) rfl hlt htakes hpull hnone
  rw [alignR_delta, State.rdStart_delta, Nat.zero_add] at hread
  exact readStopped_of_readerCycle (rdF16_isCycle.exec_eq s) he (stopVerdict_latches hnone)
    (by rw [hread, Res.andThen_raised]) hroom

/-- Settles O48: two bytes, whose word's datum is exact, or a draw for a NaN. -/
theorem halfRead : Obligations.HalfRead := by
  unfold Obligations.HalfRead
  exact ⟨rfl, fun s he => ⟨fun bs src => rdF16_done he, fun bs a src => rdF16_stop he⟩⟩

/-! ### WR.F16 of a datum that is no NaN -/

theorem f32IsNan_iff (x : BitVec 32) : f32IsNan x = true ↔ IsNan32 x := decide_eq_true_iff

theorem f32Operand_eq (x : Word) : f32Operand x = BitVec.ofNat 32 x.toNat := (BitVec.ofNat_toNat ..).symm

theorem encodeHalf_sends {x : BitVec 32} (hx : ¬ IsNan32 x) {c : WrCtx} (h0 : c.unit.cnt = 0) :
    SendsFrom c (leBytes 2 (real2Half Config.f16Ties x)) (encodeHalf x c) := by
  rw [encodeHalf, if_neg ((f32IsNan_iff x).not.2 hx)]
  exact writeBytesLE_sends h0 (by decide)

/-- WR.F16 sends the encoded word of a datum that is no NaN. -/
theorem wrF16_sends {s : State} (he : s.w.err = 0) (hdin : s.dinV = true)
    (hx : ¬ IsNan32 (BitVec.ofNat 32 s.din.toNat)) :
    Sends .wrF16 s (padding s.w ++ leBytes 2 (real2Half Config.f16Ties (BitVec.ofNat 32 s.din.toNat))) := by
  rw [← f32Operand_eq] at hx ⊢
  exact sends_of_writerCycle (wrF16_isCycle.exec_eq s) he hdin fun _ h0 => encodeHalf_sends hx h0

/-! ### WR.F16 of a NaN -/

/-- `c` with `n` draws taken. -/
def WrCtx.drawn (c : WrCtx) (n : Nat) : WrCtx := { c with nanDraws := n }

theorem afterWrite_flushing_drawn_done (s : State) (bs : List Byte) (snk : Sink) (n : Nat) :
    s.afterWrite (.done () ((s.wrStart.flushing bs 0 0 snk).drawn n)) = { writeDone s bs 0 0 snk with nanEnc := n } := by
  rw [← afterWrite_flushing_done]
  rfl

theorem afterWrite_flushing_drawn_raised (s : State) (as : List Byte) (snk : Sink) (n : Nat) :
    s.afterWrite (.raised .transport ((s.wrStart.flushing as 0 0 snk).drawn n)) =
      { writeFailed s as snk with nanEnc := n } := by
  rw [← afterWrite_flushing_raised]
  rfl

section
variable {x : BitVec 32} {c : WrCtx} {w : Nat}

theorem encodeHalf_of_nan (hx : IsNan32 x) :
    encodeHalf x c = writeBytesLE 2 (f16NanOf (Config.f16NanEnc c.nanDraws)) (c.drawn (c.nanDraws + 1)) :=
  if_pos ((f32IsNan_iff x).2 hx)

/-- WR.F16 of a NaN whose drawn word and the padding before it the sink takes. -/
theorem writerBody_encodeHalf_nan_done (hx : IsNan32 x) (hw : w = f16NanOf (Config.f16NanEnc c.nanDraws)) {snk : Sink}
    (htakes : c.sink.takes (padding c.unit ++ leBytes 2 w) = some snk) :
    writerBody true (encodeHalf x) c =
      .done () ((c.flushing (padding c.unit ++ leBytes 2 w) 0 0 snk).drawn (c.nanDraws + 1)) := by
  obtain ⟨t, hpad, hword⟩ := Sink.takes_append.1 htakes
  rw [writerBody_align_taken hpad, encodeHalf_of_nan hx, WrCtx.flushing_nanDraws, ← hw,
    writeBytesLE_done (snk := snk) rfl hword (by decide), ← WrCtx.flushing_flushing c _ _ _ 0 0 0 t snk]
  rfl

/-- WR.F16 of a NaN of whose drawn word, or the padding before it, the sink refuses a byte. -/
theorem writerBody_encodeHalf_nan_fail (hx : IsNan32 x) (hw : w = f16NanOf (Config.f16NanEnc c.nanDraws))
    {as cs : List Byte} {b : Byte} {t snk : Sink} (hsplit : padding c.unit ++ leBytes 2 w = as ++ b :: cs)
    (htakes : c.sink.takes as = some t) (hpush : t.push b = (.fail, snk)) :
    ∃ n, writerBody true (encodeHalf x) c = .raised .transport ((c.flushing as 0 0 snk).drawn n) := by
  obtain ⟨cs', hpad⟩ | ⟨as', rfl, hword⟩ := mem_left_or_right_of_append_eq hsplit
  · refine ⟨c.nanDraws, ?_⟩
    rw [writerBody, if_pos rfl, alignW_fail hpad htakes hpush]
    rfl
  · obtain ⟨u, hpad, hrest⟩ := Sink.takes_append.1 htakes
    refine ⟨c.nanDraws + 1, ?_⟩
    rw [writerBody_align_taken hpad, encodeHalf_of_nan hx, WrCtx.flushing_nanDraws, ← hw,
      writeBytesLE_fail rfl hword hrest hpush, ← WrCtx.flushing_flushing c _ _ _ 0 0 0 u snk]
    rfl

end

/-- The word WR.F16 draws for a NaN in `s`. -/
def drawnHalf (s : State) : BitVec 16 := BitVec.ofNat 16 (f16NanOf (Config.f16NanEnc s.nanEnc))

theorem drawnHalf_isNan (s : State) : IsNan16 (drawnHalf s) := (f16NanOf_isNan _).2

theorem drawnHalf_toNat (s : State) : (drawnHalf s).toNat = f16NanOf (Config.f16NanEnc s.wrStart.nanDraws) :=
  Nat.mod_eq_of_lt (f16NanOf_isNan _).1

section
variable {s : State}

theorem wrF16_nan_done (he : s.w.err = 0) (hdin : s.dinV = true) (hx : IsNan32 (f32Operand s.din)) {snk : Sink}
    (htakes : s.sink.takes (padding s.w ++ leBytes 2 (drawnHalf s).toNat) = some snk)
    (hroom : s.w.total.toNat + (padding s.w).length + 2 < 2 ^ 64) :
    ∃ n, exec .wrF16 s =
      .next { writeDone s (padding s.w ++ leBytes 2 (drawnHalf s).toNat) 0 0 snk with nanEnc := n } := by
  have hbody := writerBody_encodeHalf_nan_done (c := s.wrStart) hx (drawnHalf_toNat s) htakes
  refine ⟨s.nanEnc + 1, ?_⟩
  rw [← afterWrite_flushing_drawn_done, wrF16_isCycle.exec_eq]
  refine writerCycle_runs he (fun _ => hdin) hbody ?_
  simpa [WrCtx.drawn, ← Nat.add_assoc] using hroom

theorem wrF16_nan_fail (he : s.w.err = 0) (hdin : s.dinV = true) (hx : IsNan32 (f32Operand s.din))
    {as cs : List Byte} {b : Byte} {t snk : Sink}
    (hsplit : padding s.w ++ leBytes 2 (drawnHalf s).toNat = as ++ b :: cs) (htakes : s.sink.takes as = some t)
    (hpush : t.push b = (.fail, snk)) (hroom : s.w.total.toNat + as.length < 2 ^ 64) :
    ∃ n, exec .wrF16 s = .next { writeFailed s as snk with nanEnc := n } := by
  obtain ⟨n, hbody⟩ := writerBody_encodeHalf_nan_fail (c := s.wrStart) hx (drawnHalf_toNat s) hsplit htakes hpush
  refine ⟨n, ?_⟩
  rw [← afterWrite_flushing_drawn_raised, wrF16_isCycle.exec_eq]
  exact writerCycle_runs he (fun _ => hdin) hbody (by simpa [WrCtx.drawn] using hroom)

end

/-- Settles O50: the encoder's word for each kind of datum, and for a NaN the word drawn at the count. -/
theorem halfWrite : Obligations.HalfWrite := by
  unfold Obligations.HalfWrite
  refine ⟨rfl, fun s he => ⟨fun hdin => ?_, fun hdin x hx => ?_⟩⟩
  · rw [wrF16_isCycle.exec_eq]
    exact writerCycle_dinUnwritten he hdin
  subst hx
  have sends := wrF16_sends he hdin
  refine ⟨fun hfin h0 => ?_, fun hfin _ => sends fun hn => hfin hn.1, fun hinf hfrac => ?_, fun hnan => ?_⟩
  · rw [← real2Half_of_zero Config.f16Ties hfin h0]
    exact sends fun hn => hfin hn.1
  · have hword := real2Half_of_infinite Config.f16Ties hinf
    rw [ite_add] at hword
    rw [← hword]
    exact sends fun hn => hn.2 hfrac
  · rw [← f32Operand_eq] at hnan
    exact ⟨drawnHalf s, drawnHalf_isNan s, fun snk => wrF16_nan_done he hdin hnan,
      fun as b cs t snk => wrF16_nan_fail he hdin hnan⟩

end Sys2Proof.Machine
end

section
/-! The outcomes of 60_exceptions.md R200: which commands raise each. A check that can fail belongs to a command that
has an operand to check, END_OF_STREAM and TRUNCATED are a pull's, and MALFORMED_VARINT is the EncodedU32 loop's. -/

namespace Sys2Proof.Machine
open Sys2Proof.Claims

/-! ### The table -/

/-- The commands with an operand check: width, EncodedU32, fixed point and size commands. -/
def ChecksOperand (i : Instr) : Prop :=
  i.takesWidth = true ∨ i ∈ [Instr.wrVu32, .wrFx32, .wrFx8] ∨ IsSize i

/-- The row of R200 for a command's outcome: command `i`, run in `s`, is one the row lists. -/
def Verdict.RaisedBy (v : Verdict) (i : Instr) (s : State) : Prop :=
  match v with
  | .ok => True
  | .endOfStream | .truncated => OnReader i ∧ 2 ≤ i.opc % 64
  | .transport => (OnReader i ∧ 2 ≤ i.opc % 64) ∨ (OnWriter i ∧ i ≠ .wrInit)
  | .malformedVarint => i = .rdVu32
  | .badWidth | .badValue | .nonFinite => ChecksOperand i
  | .illegalCommand => False
  | .streamBroken => (OnReader i ∧ i ≠ .rdInit ∧ s.r.err ≠ 0) ∨ (OnWriter i ∧ i ≠ .wrInit ∧ s.w.err ≠ 0)

theorem Verdict.RaisedBy.of_isCheck {v : Verdict} {i : Instr} (s : State) (hv : v.isCheck) (hi : ChecksOperand i) :
    v.RaisedBy i s := by
  obtain rfl | rfl | rfl := hv <;> exact hi

/-- Only RD.VU32 raises MALFORMED_VARINT; the other stream errors are open to every Reader value command. -/
theorem Verdict.RaisedBy.of_reader_latches {v : Verdict} {i : Instr} (s : State) (hv : v.latches = true)
    (hi : OnReader i) (hop : 2 ≤ i.opc % 64) (hmalformed : v = .malformedVarint → i = .rdVu32) : v.RaisedBy i s := by
  cases v with
  | endOfStream | truncated => exact ⟨hi, hop⟩
  | transport => exact .inl ⟨hi, hop⟩
  | malformedVarint => exact hmalformed rfl
  | _ => cases hv

theorem Verdict.code_info_listed (v : Verdict) :
    (v.code, v.info) ∈ [(0, 0), (1, 0), (2, 1), (2, 2), (3, 0), (4, 1), (4, 2), (4, 3), (5, 0), (6, 0)] := by
  cases v <;> decide

theorem Verdict.RaisedBy.code_ne_five {v : Verdict} {i : Instr} {s : State} (h : v.RaisedBy i s) : v.code ≠ 5 := by
  intro h5
  cases v with
  | illegalCommand => exact h
  | _ => cases h5

theorem Verdict.RaisedBy.code_one {v : Verdict} {i : Instr} {s : State} (h : v.RaisedBy i s) (hc : v.code = 1) :
    OnReader i ∧ 2 ≤ i.opc % 64 := by
  cases v with
  | endOfStream => exact h
  | _ => cases hc

theorem Verdict.RaisedBy.code_two {v : Verdict} {i : Instr} {s : State} (h : v.RaisedBy i s) (hc : v.code = 2) :
    (OnReader i ∧ 2 ≤ i.opc % 64) ∨ (OnWriter i ∧ i ≠ .wrInit ∧ v.info = 1) := by
  cases v with
  | transport => exact h.imp_right fun ⟨hw, hinit⟩ => ⟨hw, hinit, rfl⟩
  | truncated => exact .inl h
  | _ => cases hc

theorem Verdict.RaisedBy.code_three {v : Verdict} {i : Instr} {s : State} (h : v.RaisedBy i s) (hc : v.code = 3) :
    i = .rdVu32 := by
  cases Verdict.eq_malformedVarint_of_code hc
  exact h

theorem Verdict.RaisedBy.code_four {v : Verdict} {i : Instr} {s : State} (h : v.RaisedBy i s) (hc : v.code = 4) :
    ChecksOperand i := by
  cases v with
  | badWidth | badValue | nonFinite => exact h
  | _ => cases hc

theorem Verdict.RaisedBy.code_six {v : Verdict} {i : Instr} {s : State} (h : v.RaisedBy i s) (hc : v.code = 6) :
    (OnReader i ∧ i ≠ .rdInit ∧ s.r.err ≠ 0) ∨ (OnWriter i ∧ i ≠ .wrInit ∧ s.w.err ≠ 0) := by
  cases v with
  | streamBroken => exact h
  | _ => cases hc

/-! ### What a Reader's body raises -/

theorem Res.eq_raised_of_map {σ α β : Type} {f : α → β} {x : Res σ α} {v : Verdict} {c : σ}
    (h : x.map f = .raised v c) : x = .raised v c := by
  rcases x with ⟨a, d⟩ | ⟨u, d⟩ <;> cases h
  rfl

theorem readBits_ne_malformedVarint {w : Nat} {c d : RdCtx} {v : Verdict} (h : readBits w c = .raised v d) :
    v ≠ .malformedVarint := by
  obtain ⟨bs, src, hb⟩ | ⟨j, hj, bs, t, a, src, hb, hp, ha⟩ :=
    Source.takeBytes_or_stops (bytesNeeded w c.unit.cnt) c.source
  · rw [readBits_done hb] at h
    cases h
  · rw [readBits_stop hj hb hp ha] at h
    cases h
    exact stopVerdict_ne_malformedVarint _ _

theorem readBytesLE_ne_malformedVarint {k : Nat} {c d : RdCtx} {v : Verdict} (h0 : c.unit.cnt = 0)
    (h : readBytesLE k c = .raised v d) : v ≠ .malformedVarint := by
  obtain ⟨bs, src, hb⟩ | ⟨j, hj, bs, t, a, src, hb, hp, ha⟩ := Source.takeBytes_or_stops k c.source
  · rw [readBytesLE_done h0 hb] at h
    cases h
  · rw [readBytesLE_stop h0 hj hb hp ha] at h
    cases h
    exact stopVerdict_ne_malformedVarint _ _

theorem readHalf_ne_malformedVarint {c d : RdCtx} {v : Verdict} (h0 : c.unit.cnt = 0)
    (h : (readBytesLE 2 c).andThen decodeHalf = .raised v d) : v ≠ .malformedVarint := by
  cases hx : readBytesLE 2 c with
  | done a e =>
    rw [hx, Res.andThen_done, decodeHalf] at h
    split_ifs at h
  | raised u e =>
    rw [hx] at h
    cases h
    exact readBytesLE_ne_malformedVarint h0 hx

/-! ### Every command's check and body -/

/-- Command `i` is a Reader cycle whose check can fail only where it takes a width, and whose body raises only in value
commands, MALFORMED_VARINT only in RD.VU32. -/
def IsListedReader (i : Instr) : Prop :=
  ∃ check aligns body, IsReaderCycle i check aligns body ∧ (∀ v, check = some v → i.takesWidth = true) ∧
    ∀ (c d : RdCtx) v, (aligns = true → c.unit.cnt = 0) → body c = .raised v d →
      2 ≤ i.opc % 64 ∧ (v = .malformedVarint → i = .rdVu32)

/-- Command `i` is a Writer cycle whose check can fail only where it has an operand to check. -/
def IsListedWriter (i : Instr) : Prop :=
  ∃ check aligns body, IsWriterCycle i check aligns body ∧ ∀ x v, check x = some v → ChecksOperand i

theorem readFixed_isListed {i : Instr} {k : Nat} {format : Nat → Word} (h : ∀ s, exec i s = readFixed k format s)
    (hi : k ≤ 9 ∧ 2 ≤ i.opc % 64 ∧ i.takesWidth = false) : IsListedReader i :=
  ⟨_, _, _, readFixed_isCycle h hi.1 hi.2, nofun, fun _ _ _ h0 hx =>
    ⟨hi.2.1, fun hv => absurd hv (readBytesLE_ne_malformedVarint (h0 rfl) (Res.eq_raised_of_map hx))⟩⟩

theorem readField_isListed {i : Instr} {w : Nat} {format : Nat → Word} (h : ∀ s, exec i s = readField w format s)
    (hi : 2 ≤ i.opc % 64 ∧ i.takesWidth = true ∧ i.wField = w) : IsListedReader i :=
  ⟨_, _, _, readField_isCycle h hi, fun _ _ => hi.2.1, fun _ _ _ _ hx =>
    ⟨hi.1, fun hv => absurd hv (readBits_ne_malformedVarint (Res.eq_raised_of_map hx))⟩⟩

theorem onReader_isListed {i : Instr} (h : OnReader i) (hinit : i ≠ .rdInit) : IsListedReader i := by
  cases i with
  | rdInit => exact absurd rfl hinit
  | rdAlign => exact ⟨_, _, _, rdAlign_isCycle, nofun, nofun⟩
  | rdU8 | rdS8 | rdU16 | rdS16 | rdU32 | rdS32 | rdU64 | rdS64 | rdF32 | rdF64 | rdFx32 | rdFx8 =>
    exact readFixed_isListed (fun _ => rfl) (by decide)
  | rdVu32 => exact ⟨_, _, _, rdVu32_isCycle, nofun, fun _ _ _ _ _ => ⟨by decide, fun _ => rfl⟩⟩
  | rdF16 =>
    exact ⟨_, _, _, rdF16_isCycle, nofun, fun _ _ _ h0 hx =>
      ⟨by decide, fun hv => absurd hv (readHalf_ne_malformedVarint (h0 rfl) hx)⟩⟩
  | rdUb | rdSb | rdFb =>
    exact readField_isListed (fun _ => rfl) (by simp [Instr.opc, Instr.takesWidth, Instr.wField])
  | _ => simp [OnReader, Instr.opc] at h

theorem writeFixed_isListed {i : Instr} {k : Nat} (h : ∀ s, exec i s = writeFixed k s)
    (hi : (k ≤ 8 ∧ k ≠ 0) ∧ 2 ≤ i.opc % 64 ∧ i.takesWidth = false) : IsListedWriter i :=
  ⟨fun _ => none, _, _, writeBytes_isCycle (f := BitVec.toNat) h nofun hi.1 hi.2, nofun⟩

theorem onWriter_isListed {i : Instr} (h : OnWriter i) (hinit : i ≠ .wrInit) : IsListedWriter i := by
  have checked (hi : ChecksOperand i) : IsListedWriter i := by
    obtain ⟨_, _, _, hc⟩ := (onWriter_shape h).resolve_left hinit
    exact ⟨_, _, _, hc, fun _ _ _ => hi⟩
  cases i with
  | wrInit => exact absurd rfl hinit
  | wrAlign => exact ⟨_, _, _, wrAlign_isCycle, nofun⟩
  | wrU8 | wrS8 | wrU16 | wrS16 | wrU32 | wrS32 | wrU64 | wrS64 | wrF32 | wrF64 =>
    exact writeFixed_isListed (fun _ => rfl) (by decide)
  | wrF16 => exact ⟨_, _, _, wrF16_isCycle, nofun⟩
  | wrVu32 | wrFx32 | wrFx8 => exact checked (.inr (.inl (by decide)))
  | wrUb | wrSb | wrFb => exact checked (.inl rfl)
  | _ => simp [OnWriter, Instr.opc] at h

/-! ### Every command's outcome -/

/-- STATUS in `t` holds an outcome that R200 lists for command `i` run in `s`. -/
def EndsListed (i : Instr) (s t : State) : Prop :=
  ∃ v d, d ≤ 9 ∧ t.status = statusWord v d ∧ v.RaisedBy i s

theorem EndsListed.finish {i : Instr} {s u : State} {v : Verdict} {d : Nat} (hd : d ≤ 9) (hv : v.RaisedBy i s) :
    EndsListed i s (u.finish v d) := ⟨v, d, hd, rfl, hv⟩

theorem exec_reader_endsListed {i : Instr} {s t : State} (hi : OnReader i) (hinit : i ≠ .rdInit)
    (ht : exec i s = .next t) : EndsListed i s t := by
  obtain ⟨check, aligns, body, hc, hcheck, hbody⟩ := onReader_isListed hi hinit
  rcases hc.next ht with ⟨he, rfl⟩ | ⟨-, v, hv, hsome, rfl⟩ | ⟨-, -, x, hx, hm, -, rfl⟩
  · exact .finish (Nat.zero_le 9) (.inl ⟨hi, hinit, he⟩)
  · exact .finish (Nat.zero_le 9) (.of_isCheck s hv (.inl (hcheck v hsome)))
  · have hd := hm.delta_le
    rcases x with ⟨_, c⟩ | ⟨v, c⟩
    · exact .finish hd trivial
    · obtain ⟨hop, hmalformed⟩ := hbody _ c v (by rintro rfl; rfl) hx.symm
      exact .finish hd (.of_reader_latches s (hm.raised v c rfl).2 hi hop hmalformed)

theorem exec_writer_endsListed {i : Instr} {s t : State} (hi : OnWriter i) (hinit : i ≠ .wrInit)
    (ht : exec i s = .next t) : EndsListed i s t := by
  obtain ⟨check, aligns, body, hc, hcheck⟩ := onWriter_isListed hi hinit
  rcases hc.next ht with ⟨he, rfl⟩ | ⟨-, v, hv, hsome, rfl⟩ | ⟨-, -, x, -, hm, -, rfl⟩
  · exact .finish (Nat.zero_le 9) (.inr ⟨hi, hinit, he⟩)
  · exact .finish (Nat.zero_le 9) (.of_isCheck s hv (hcheck _ v hsome))
  · have hd := hm.delta_le
    rcases x with ⟨_, c⟩ | ⟨v, c⟩
    · exact .finish hd trivial
    · obtain ⟨-, -, rfl⟩ := hm.raised v c rfl
      exact .finish hd (.inr ⟨hi, hinit⟩)

theorem exec_size_endsListed {i : Instr} {s t : State} (hi : IsSize i) (ht : exec i s = .next t) :
    EndsListed i s t := by
  obtain ⟨_, _, hc⟩ := isSize_shape hi
  obtain ⟨-, ⟨v, hv, -, rfl⟩ | ⟨-, rfl⟩⟩ := hc.next ht
  · exact .finish (Nat.zero_le 9) (.of_isCheck s hv (.inr (.inr hi)))
  · exact .finish (Nat.zero_le 9) trivial

theorem exec_endsListed {i : Instr} {s t : State} (ht : exec i s = .next t) : EndsListed i s t := by
  rcases exec_shape i with rfl | rfl | ⟨hi, hinit, -⟩ | ⟨hi, hinit, -⟩ | ⟨hi, -⟩
  · cases ht
    exact .finish (Nat.zero_le 9) trivial
  · cases ht
    exact .finish (Nat.zero_le 9) trivial
  · exact exec_reader_endsListed hi hinit ht
  · exact exec_writer_endsListed hi hinit ht
  · exact exec_size_endsListed hi ht

theorem info_of_status {t : State} {v : Verdict} {d : Nat} (hd : d ≤ 9) (h : t.status = statusWord v d) :
    info t = v.info := by
  rw [info, h, statusWord_info hd]

/-- Settles O17: an illegal word has the one outcome no command has, and STATUS after a command holds a verdict that
the table lists for it. -/
theorem codesComeFromTheListedCommands : Obligations.CodesComeFromTheListedCommands := by
  unfold Obligations.CodesComeFromTheListedCommands
  intro c s t ht
  obtain ⟨hillegal, rfl⟩ | ⟨i, hdecode, hi⟩ := commandWrite_next ht
  · rw [code_of_status (Nat.zero_le 9) rfl, info_of_status (Nat.zero_le 9) rfl]
    exact ⟨Verdict.code_info_listed _, iff_of_true rfl hillegal, fun i hd => absurd ⟨i, hd⟩ hillegal⟩
  · obtain ⟨v, d, hd, hs, hv⟩ := exec_endsListed hi
    rw [code_of_status hd hs, info_of_status hd hs]
    refine ⟨v.code_info_listed, iff_of_false hv.code_ne_five (not_not_intro ⟨i, hdecode⟩), fun j hj => ?_⟩
    cases hdecode.symm.trans hj
    exact ⟨hv.code_one, hv.code_two, hv.code_three, hv.code_four, hv.code_six⟩

end Sys2Proof.Machine
end

section
/-! Reset and changes of the streams (70_reset_and_hazards.md R230 to R233). A command reaches its source by pulls,
whose bytes add up, and offers the sink bytes that are taken until one is refused, which ends the command; so each
first part of its transfers moves a first part of its bytes. -/

namespace Sys2Proof.Machine
open Sys2Proof.Claims

/-- Settles O14: the event is `attachSource` or `attachSink`, which name nothing but the stream's answers. -/
theorem attachingAStreamLeavesTheBlock : Obligations.AttachingAStreamLeavesTheBlock := by
  unfold Obligations.AttachingAStreamLeavesTheBlock
  exact fun s rest => ⟨fun _ _ hs => step_of_event hs, fun _ _ hs => step_of_event hs⟩

/-- Settles O57: the bodies of the INITs and reset name the same start state of the unit, and the whole commands are
O29. -/
theorem initDoesToItsUnitWhatResetDoes : Obligations.InitDoesToItsUnitWhatResetDoes := by
  unfold Obligations.InitDoesToItsUnitWhatResetDoes
  obtain ⟨-, -, hinits⟩ := initStartsAUnit
  intro s rest hs
  obtain ⟨hrdInit, hwrInit⟩ := hinits s
  exact ⟨_, step_of_event hs, rfl, hrdInit, rfl, hwrInit, rfl, rfl, rfl, rfl, rfl⟩

/-! ### A first part of the pulls -/

theorem sourceAfter_pulled (n : Nat) (src : Source) : ∃ bs, (sourceAfter n src).pulled = src.pulled ++ bs := by
  induction n generalizing src with
  | zero => exact ⟨[], (List.append_nil _).symm⟩
  | succ n ih =>
    obtain ⟨bs, hbs⟩ := ih src.pull.2
    exact ⟨_ ++ bs, hbs.trans (List.append_assoc ..)⟩

/-- Fewer pulls deliver a first part of the bytes of more. -/
theorem sourceAfter_pulled_prefix {m k : Nat} (hmk : m ≤ k) (src : Source) :
    ∃ bs, (sourceAfter m src).pulled = src.pulled ++ bs ∧
      bs <+: (sourceAfter k src).pulled.drop src.pulled.length := by
  obtain ⟨j, rfl⟩ := Nat.exists_eq_add_of_le hmk
  obtain ⟨as, has⟩ := sourceAfter_pulled m src
  obtain ⟨bs, hbs⟩ := sourceAfter_pulled j (sourceAfter m src)
  refine ⟨as, has, ?_⟩
  rw [sourceAfter_add, hbs, has, List.append_assoc, List.drop_left]
  exact List.prefix_append as bs

/-! ### A first part of the offers -/

/-- From `snk` to `snk'` the sink took `bs`, and at most one offer followed, which it refused. -/
def Sink.TookUntilRefused (bs : List Byte) (snk snk' : Sink) : Prop :=
  ∃ t, snk.takes bs = some t ∧ (snk' = t ∨ ∃ b, t.push b = (.fail, snk'))

theorem Sink.TookUntilRefused.refl (snk : Sink) : snk.TookUntilRefused [] snk := ⟨snk, rfl, .inl rfl⟩

theorem Sink.TookUntilRefused.taken {bs : List Byte} {snk snk' : Sink} (h : snk.TookUntilRefused bs snk') :
    snk'.taken = snk.taken ++ bs := by
  obtain ⟨t, ht, rfl | ⟨b, hb⟩⟩ := h
  · exact takes_taken ht
  · exact (push_fail_taken hb).trans (takes_taken ht)

theorem Sink.takes_offered_eq {bs : List Byte} {snk t : Sink} (h : snk.takes bs = some t) :
    t.offered = snk.offered + bs.length := by
  have ht : sinkAfter bs.length bs snk = t := by simpa [sinkAfter] using takes_sinkAfter h 0 []
  rw [← ht, sinkAfter_offered]

/-- Offering the first `n` of bytes that the sink takes. -/
theorem Sink.takes_sinkAfter_taken {bs : List Byte} {snk t : Sink} (h : snk.takes bs = some t) {n : Nat}
    (hn : n ≤ bs.length) : (sinkAfter n bs snk).taken = snk.taken ++ bs.take n := by
  rw [← List.take_append_drop n bs] at h
  obtain ⟨u, hu, -⟩ := takes_append.1 h
  have hcut := takes_sinkAfter hu 0 (bs.drop n)
  rw [List.length_take_of_le hn, List.take_append_drop] at hcut
  exact (congrArg Sink.taken hcut).trans (takes_taken hu)

/-- The sink's answer does not depend on the byte offered. -/
theorem Sink.push_fail_any {b : Byte} {snk snk' : Sink} (h : snk.push b = (.fail, snk')) (x : Byte) :
    (snk.push x).2.taken = snk.taken :=
  have hanswer : (snk.push b).1 = .fail := congrArg Prod.fst h
  push_fail_taken (Prod.ext hanswer rfl : snk.push x = (.fail, (snk.push x).2))

/-- Up to as many offers as there were, with the bytes taken then, have a first part of those bytes taken. -/
theorem Sink.TookUntilRefused.taken_prefix {bs : List Byte} {snk snk' : Sink} (h : snk.TookUntilRefused bs snk')
    {n : Nat} (hn : n ≤ snk'.offered - snk.offered) :
    ∃ as, (sinkAfter n bs snk).taken = snk.taken ++ as ∧ as <+: bs := by
  obtain ⟨t, ht, hend⟩ := h
  have hoffered := takes_offered_eq ht
  by_cases hle : n ≤ bs.length
  · exact ⟨_, takes_sinkAfter_taken ht hle, List.take_prefix n bs⟩
  obtain rfl | ⟨b, hb⟩ := hend
  · omega
  have hlast : snk'.offered = t.offered + 1 := congrArg (fun p => p.2.offered) hb.symm
  obtain rfl : n = bs.length + 1 := by omega
  have hcut := takes_sinkAfter ht 1 []
  rw [List.append_nil] at hcut
  exact ⟨bs, (congrArg Sink.taken hcut).trans ((push_fail_any hb 0).trans (takes_taken ht)), List.prefix_rfl⟩

/-! ### A reset during a command -/

/-- A Writer body offers the sink bytes until one is refused (20_memory.md R42, R59). -/
theorem WrMoves.tookUntilRefused {α : Type} {n : Nat} {c : WrCtx} {x : Res WrCtx α} (h : WrMoves n c x) :
    ∃ bs, c.sink.TookUntilRefused bs x.ctx.sink := by
  obtain ⟨bs, -, -, -, -, t, ht, hend⟩ := h.moved
  exact ⟨bs, t, ht, hend.imp_right And.right⟩

theorem exec_tookUntilRefused {i : Instr} {s t : State} (h : exec i s = .next t) :
    ∃ bs, s.sink.TookUntilRefused bs t.sink := by
  have still {u : State} (hsink : u.sink = s.sink) : ∃ bs, s.sink.TookUntilRefused bs u.sink :=
    ⟨[], hsink ▸ .refl s.sink⟩
  rcases exec_shape i with rfl | rfl | ⟨hi, -⟩ | ⟨-, -, _, _, _, hc⟩ | ⟨-, _, _, hc⟩
  · cases h
    exact still rfl
  · cases h
    exact still rfl
  · obtain ⟨-, hsink, -⟩ := exec_keeps_writer hi h
    exact still hsink
  · rcases hc.next h with ⟨-, rfl⟩ | ⟨-, v, -, -, rfl⟩ | ⟨-, -, x, -, hm, -, rfl⟩
    · exact still rfl
    · exact still rfl
    · rw [State.afterWrite_sink]
      exact hm.tookUntilRefused
  · obtain ⟨-, ⟨v, -, -, rfl⟩ | ⟨-, rfl⟩⟩ := hc.next h <;> exact still rfl

/-- A CMD write that completes reaches the source by pulls, and the sink by offers that end at the first refused. -/
theorem commandWrite_streams {c : Word} {s t : State} (h : commandWrite c s = .next t) :
    (∃ k, t.source = sourceAfter k s.source) ∧ ∃ bs, s.sink.TookUntilRefused bs t.sink := by
  obtain ⟨-, rfl⟩ | ⟨i, -, hi⟩ := commandWrite_next h
  · exact ⟨⟨0, rfl⟩, [], .refl s.sink⟩
  · exact ⟨(exec_streams hi).1, exec_tookUntilRefused hi⟩

/-- Settles O13: the cut makes at most the command's pulls and offers, so it moves a first part of its bytes. -/
theorem resetDuringCommandKeepsFirstTransfers : Obligations.ResetDuringCommandKeepsFirstTransfers := by
  unfold Obligations.ResetDuringCommandKeepsFirstTransfers
  intro c s t rest hs ht
  obtain ⟨⟨k, hsource⟩, bs, hsink⟩ := commandWrite_streams ht
  refine ⟨_, (step_of_event hs).trans (resetDuringCommand_next ht), rfl, rfl, rfl, rfl, rfl, rfl, rfl, ?_, ?_⟩
  · rw [hsource]
    exact sourceAfter_pulled_prefix (by simp) s.source
  · rw [hsink.taken, List.drop_left]
    exact hsink.taken_prefix (min_le_right _ _)

end Sys2Proof.Machine
end
